-- ==== Sys2Proof/Word.lean ====
section
/-! DEFINITION. The word types of RSAE and their plainest vocabulary: bytes, 32-bit host words, big
values of BIGW bits, and the numbers of the big registers (spec/00_scope.md R7, R9, R10; spec/10_state.md R22). -/

namespace Sys2Proof

/-- An 8-bit byte of MSGBUF, BLKBUF or the host FIFO. -/
abbrev Byte := BitVec 8

/-- A 32-bit host word: the only access size of the window (R64) and the command word (R90). -/
abbrev Word := BitVec 32

/-- A BIGW = 4096-bit value: a big register or a BLKBUF slot (R7, R22, R42). Always unsigned (R9). -/
abbrev Big := BitVec 4096

/-- The number k of big register Bk, 0 to 15 (R22, R94). -/
abbrev BReg := Fin 16

end Sys2Proof
end

