-- ==== Sys2Proof/Syntax.lean ====
section
/-! DEFINITION. The 20 commands of RSAE as a type (spec/30_encoding.md R95), one constructor per row of
spec/opcode_table.json with exactly the fields the row decodes, the pseudo-instructions (R102) and the
assembler spelling (R101). -/

namespace Sys2Proof

/-- A decoded command. Register fields stand in the order of the assembler syntax (R101): destination,
first source, second source, modulus. A field the command does not name is ignored (R92) and absent. -/
inductive Instr where
  /-- R111: no operation. -/
  | nop
  /-- R112: copy a big register. -/
  | mov (rd ra : BReg)
  /-- R113: add, wrapping at 2^BIGW. -/
  | add (rd ra rb : BReg)
  /-- R114: subtract, wrapping at 2^BIGW. -/
  | sub (rd ra rb : BReg)
  /-- R115: multiply, low BIGW bits. -/
  | mul (rd ra rb : BReg)
  /-- R116: add an 8-bit immediate. -/
  | addi (rd ra : BReg) (imm : Byte)
  /-- R117: subtract an 8-bit immediate. -/
  | subi (rd ra : BReg) (imm : Byte)
  /-- R118: compare. -/
  | cmp (ra rb : BReg)
  /-- R119: greatest common divisor. -/
  | gcd (rd ra rb : BReg)
  /-- R130: reduce modulo a register. -/
  | modred (rd ra rn : BReg)
  /-- R131: modular multiplication. -/
  | modmul (rd ra rb rn : BReg)
  /-- R132: modular exponentiation. -/
  | modexp (rd ra rb rn : BReg)
  /-- R133: Montgomery multiplication with R = 2^BIGW. -/
  | montmul (rd ra rb rn : BReg)
  /-- R134: modular inverse. -/
  | modinv (rd ra rn : BReg)
  /-- R155: probabilistic primality test. -/
  | primeq (ra : BReg)
  /-- R156: generate a prime of BITLEN bits. -/
  | genprime (rd : BReg)
  /-- R157: smallest integer at least 2 coprime to a register. -/
  | coprime (rd ra : BReg)
  /-- R158: generate a key pair; RD receives e, RA receives d, RN receives n. -/
  | keygen (rd ra rn : BReg)
  /-- R182: encrypt MSGBUF under (B[ra], B[rn]). -/
  | enc (ra rn : BReg)
  /-- R184: decrypt BLKBUF under (B[ra], B[rn]). -/
  | dec (ra rn : BReg)
  deriving DecidableEq, Repr

namespace Instr

/-- Pseudo-instruction CLR (R102). -/
def clr (bd : BReg) : Instr := .sub bd bd bd

/-- Pseudo-instruction INC (R102). -/
def inc (bd : BReg) : Instr := .addi bd bd 1#8

/-- Pseudo-instruction DECR (R102). -/
def decr (bd : BReg) : Instr := .subi bd bd 1#8

/-- Pseudo-instruction LDI, two commands (R102). -/
def ldi (bd : BReg) (imm : Byte) : List Instr := [clr bd, .addi bd bd imm]

/-- Pseudo-instruction SQR (R102). -/
def sqr (bd ba bn : BReg) : Instr := .modmul bd ba ba bn

/-- The name of big register Bk in the assembler syntax (R101). -/
def regName (r : BReg) : String := "b" ++ toString r.val

/-- A mnemonic and its operands as one assembler line (R101). -/
def line (mnemonic : String) (operands : List String) : String :=
  match operands with
  | [] => mnemonic
  | _ => mnemonic ++ " " ++ ", ".intercalate operands

/-- The assembler spelling of a command (R101). -/
def assembly : Instr → String
  | nop => line "NOP" []
  | mov rd ra => line "MOV" [regName rd, regName ra]
  | add rd ra rb => line "ADD" [regName rd, regName ra, regName rb]
  | sub rd ra rb => line "SUB" [regName rd, regName ra, regName rb]
  | mul rd ra rb => line "MUL" [regName rd, regName ra, regName rb]
  | addi rd ra imm => line "ADDI" [regName rd, regName ra, toString imm.toNat]
  | subi rd ra imm => line "SUBI" [regName rd, regName ra, toString imm.toNat]
  | cmp ra rb => line "CMP" [regName ra, regName rb]
  | gcd rd ra rb => line "GCD" [regName rd, regName ra, regName rb]
  | modred rd ra rn => line "MODRED" [regName rd, regName ra, regName rn]
  | modmul rd ra rb rn => line "MODMUL" [regName rd, regName ra, regName rb, regName rn]
  | modexp rd ra rb rn => line "MODEXP" [regName rd, regName ra, regName rb, regName rn]
  | montmul rd ra rb rn => line "MONTMUL" [regName rd, regName ra, regName rb, regName rn]
  | modinv rd ra rn => line "MODINV" [regName rd, regName ra, regName rn]
  | primeq ra => line "PRIMEQ" [regName ra]
  | genprime rd => line "GENPRIME" [regName rd]
  | coprime rd ra => line "COPRIME" [regName rd, regName ra]
  | keygen rd ra rn => line "KEYGEN" [regName rd, regName ra, regName rn]
  | enc ra rn => line "ENC" [regName ra, regName rn]
  | dec ra rn => line "DEC" [regName ra, regName rn]

end Instr

end Sys2Proof
end

