-- ==== Sys2Proof/WellFormed.lean ====
section
/-! DEFINITION. Which terms of `Instr` are commands of RSAE: every register may be named in every field
(spec/30_encoding.md R94), but for the three destinations of KEYGEN, which must be distinct (R98). -/

namespace Sys2Proof

/-- The three destination fields of a KEYGEN are pairwise distinct (R96, R98). -/
abbrev distinctDestinations (rd ra rn : BReg) : Prop := rd ≠ ra ∧ rd ≠ rn ∧ ra ≠ rn

/-- Well-formedness (R98): only KEYGEN constrains its fields. -/
def Instr.wellFormed : Instr → Bool
  | .keygen rd ra rn => decide (distinctDestinations rd ra rn)
  | .nop | .mov _ _ | .add _ _ _ | .sub _ _ _ | .mul _ _ _ | .addi _ _ _ | .subi _ _ _ | .cmp _ _
  | .gcd _ _ _ | .modred _ _ _ | .modmul _ _ _ _ | .modexp _ _ _ _ | .montmul _ _ _ _ | .modinv _ _ _
  | .primeq _ | .genprime _ | .coprime _ _ | .enc _ _ | .dec _ _ => true

end Sys2Proof
end

