-- ==== Sys2Proof/Decode.lean ====
section
/-! DEFINITION. Decoding of a command word (spec/30_encoding.md R90 to R99), total on every 32-bit word and
rejecting by name, and the encoder of the same table (R91, R95, R101). -/

namespace Sys2Proof

/-- Why a word is no command; each gives error ILLEGAL (R96, R97). -/
inductive DecodeError where
  /-- R97: bits 7:0 are none of the 20 assigned opcodes. -/
  | reservedOpcode
  /-- R92, R97: a word of format N or R with any of bits 31:24 set. -/
  | reservedBits
  /-- R98: two of the three destination fields of KEYGEN are equal. -/
  | aliasedDestinations
  deriving DecidableEq, Repr

/-- OPC, bits 7:0 (R91). -/
def opcField (w : Word) : BitVec 8 := w.extractLsb' 0 8

/-- RD, bits 11:8 (R91). -/
def rdField (w : Word) : BReg := (w.extractLsb' 8 4).toFin

/-- RA, bits 15:12 (R91). -/
def raField (w : Word) : BReg := (w.extractLsb' 12 4).toFin

/-- RB, bits 19:16 (R91). -/
def rbField (w : Word) : BReg := (w.extractLsb' 16 4).toFin

/-- RN, bits 23:20 (R91). -/
def rnField (w : Word) : BReg := (w.extractLsb' 20 4).toFin

/-- IMM8, bits 31:24 (R91, R93). -/
def immField (w : Word) : Byte := w.extractLsb' 24 8

/-- A command of format N or R: bits 31:24 must be 0 (R92). -/
def plainFormat (w : Word) (i : Instr) : Except DecodeError Instr :=
  if immField w = 0#8 then .ok i else .error .reservedBits

/-- KEYGEN: format R, then the check of its destinations (R96, R98). -/
def keygenFormat (w : Word) : Except DecodeError Instr :=
  if immField w = 0#8 then
    if distinctDestinations (rdField w) (raField w) (rnField w) then
      .ok (.keygen (rdField w) (raField w) (rnField w))
    else .error .aliasedDestinations
  else .error .reservedBits

/-- The decoder (R95, R96). Fields a command does not name are ignored (R92). -/
def decode (w : Word) : Except DecodeError Instr :=
  match opcField w with
  | 0x00#8 => plainFormat w .nop
  | 0x01#8 => plainFormat w (.mov (rdField w) (raField w))
  | 0x02#8 => plainFormat w (.add (rdField w) (raField w) (rbField w))
  | 0x03#8 => plainFormat w (.sub (rdField w) (raField w) (rbField w))
  | 0x04#8 => plainFormat w (.mul (rdField w) (raField w) (rbField w))
  | 0x05#8 => .ok (.addi (rdField w) (raField w) (immField w))
  | 0x06#8 => .ok (.subi (rdField w) (raField w) (immField w))
  | 0x07#8 => plainFormat w (.cmp (raField w) (rbField w))
  | 0x08#8 => plainFormat w (.gcd (rdField w) (raField w) (rbField w))
  | 0x10#8 => plainFormat w (.modred (rdField w) (raField w) (rnField w))
  | 0x11#8 => plainFormat w (.modmul (rdField w) (raField w) (rbField w) (rnField w))
  | 0x12#8 => plainFormat w (.modexp (rdField w) (raField w) (rbField w) (rnField w))
  | 0x13#8 => plainFormat w (.montmul (rdField w) (raField w) (rbField w) (rnField w))
  | 0x14#8 => plainFormat w (.modinv (rdField w) (raField w) (rnField w))
  | 0x20#8 => plainFormat w (.primeq (raField w))
  | 0x21#8 => plainFormat w (.genprime (rdField w))
  | 0x22#8 => plainFormat w (.coprime (rdField w) (raField w))
  | 0x23#8 => keygenFormat w
  | 0x30#8 => plainFormat w (.enc (raField w) (rnField w))
  | 0x31#8 => plainFormat w (.dec (raField w) (rnField w))
  | _ => .error .reservedOpcode

/-- The instruction the decoder reads from an instruction of `nbits` bits numbered as
spec/opcode_table.json numbers them. A command is one 32-bit word (R90); bits above `nbits` are 0. -/
def decodeTableWord (nbits w : Nat) : Option Instr :=
  (decode (BitVec.ofNat 32 (w % 2 ^ nbits))).toOption

/-- The opcode of a command (R95). -/
def Instr.opcode : Instr → BitVec 8
  | .nop => 0x00#8
  | .mov _ _ => 0x01#8
  | .add _ _ _ => 0x02#8
  | .sub _ _ _ => 0x03#8
  | .mul _ _ _ => 0x04#8
  | .addi _ _ _ => 0x05#8
  | .subi _ _ _ => 0x06#8
  | .cmp _ _ => 0x07#8
  | .gcd _ _ _ => 0x08#8
  | .modred _ _ _ => 0x10#8
  | .modmul _ _ _ _ => 0x11#8
  | .modexp _ _ _ _ => 0x12#8
  | .montmul _ _ _ _ => 0x13#8
  | .modinv _ _ _ => 0x14#8
  | .primeq _ => 0x20#8
  | .genprime _ => 0x21#8
  | .coprime _ _ => 0x22#8
  | .keygen _ _ _ => 0x23#8
  | .enc _ _ => 0x30#8
  | .dec _ _ => 0x31#8

/-- The field layout of a command word: each field at its place of R91, as the sum R101 writes. -/
def layout (imm : Byte) (rn rb ra rd : BReg) (opc : BitVec 8) : Word :=
  BitVec.ofNat 32 (opc.toNat + rd.val * 2 ^ 8 + ra.val * 2 ^ 12 + rb.val * 2 ^ 16 + rn.val * 2 ^ 20
    + imm.toNat * 2 ^ 24)

/-- The encoder: the word of a command with every ignored field 0 (R101). -/
def encode (i : Instr) : Word :=
  match i with
  | .nop => layout 0 0 0 0 0 i.opcode
  | .mov rd ra => layout 0 0 0 ra rd i.opcode
  | .add rd ra rb => layout 0 0 rb ra rd i.opcode
  | .sub rd ra rb => layout 0 0 rb ra rd i.opcode
  | .mul rd ra rb => layout 0 0 rb ra rd i.opcode
  | .addi rd ra imm => layout imm 0 0 ra rd i.opcode
  | .subi rd ra imm => layout imm 0 0 ra rd i.opcode
  | .cmp ra rb => layout 0 0 rb ra 0 i.opcode
  | .gcd rd ra rb => layout 0 0 rb ra rd i.opcode
  | .modred rd ra rn => layout 0 rn 0 ra rd i.opcode
  | .modmul rd ra rb rn => layout 0 rn rb ra rd i.opcode
  | .modexp rd ra rb rn => layout 0 rn rb ra rd i.opcode
  | .montmul rd ra rb rn => layout 0 rn rb ra rd i.opcode
  | .modinv rd ra rn => layout 0 rn 0 ra rd i.opcode
  | .primeq ra => layout 0 0 0 ra 0 i.opcode
  | .genprime rd => layout 0 0 0 0 rd i.opcode
  | .coprime rd ra => layout 0 0 0 ra rd i.opcode
  | .keygen rd ra rn => layout 0 rn 0 ra rd i.opcode
  | .enc ra rn => layout 0 rn 0 ra 0 i.opcode
  | .dec ra rn => layout 0 rn 0 ra 0 i.opcode

end Sys2Proof
end

