-- ==== Sys2Proof/Config.lean ====
section
/-! DEFINITION. What an RSAE implementation fixes (spec/00_scope.md R7, spec/10_state.md R24 to R26,
spec/20_memory.md R61) and the free values of the model: the UNSPEC values of spec/93_implementation_defined.md,
constants with no body, of which nothing can be proved. -/

namespace Sys2Proof.Config

/-- BIGW, the width in bits of a big register and of a BLKBUF slot (R7). -/
abbrev bigw : Nat := 4096

/-- S = BIGW / 8, the bytes of one big value in the window (R62). -/
abbrev bigBytes : Nat := 512

/-- NBREG, the number of big registers (R7). -/
abbrev nbreg : Nat := 16

/-- MSG_BYTES, the size of MSGBUF (R7, R41). -/
abbrev msgBytes : Nat := 8192

/-- NBLK, the number of BLKBUF slots (R7, R42). -/
abbrev nblk : Nat := 128

/-- RNG_DEPTH, the capacity of the host entropy FIFO in bytes (R7, R43). -/
abbrev rngDepth : Nat := 64

/-- WINDOW, the size of the register window (R7, R60). -/
abbrev window : Nat := 0x20000

/-- End of the CSR page: offsets 0x000 to 0x0FF (R61). -/
abbrev csrTop : Nat := 0x100

/-- First window offset of the B-file (R61). -/
abbrev bBase : Nat := 0x1000

/-- First window offset after the B-file (R61). -/
abbrev bTop : Nat := 0x3000

/-- First window offset of MSGBUF (R61). -/
abbrev msgBase : Nat := 0x4000

/-- First window offset after MSGBUF (R61). -/
abbrev msgTop : Nat := 0x6000

/-- First window offset of BLKBUF, which ends at the end of the window (R61). -/
abbrev blkBase : Nat := 0x10000

/-- The constant of ID (R24). -/
abbrev idWord : Word := 0x52534145#32

/-- The constant of CAPS (R25). -/
abbrev capsWord : Word := 0x20800080#32

/-- The constant of CAPS2 (R26). -/
abbrev caps2Word : Word := 0x00014010#32

/-- FREE VALUE. The byte at window offset `addr` of a buffer whose contents are UNSPEC since the
event numbered `gen` (R41, R42, R47, R185, R233; spec/93 U1, U3, U4). Assumption 1. -/
opaque unspecByte (gen addr : Nat) : Byte

/-- FREE VALUE. What draw number `draw` answers to a host read of the B-file, MSGBUF or BLKBUF while
BUSY = 1 (R69; spec/93 U2). Assumption 1. -/
opaque unspecWord (draw : Nat) : Word

/-- FREE VALUE. The result of a MODINV of operands that are not coprime, draw number `draw`
(R134; spec/93 I1). Assumption 1. -/
opaque unspecBig (draw : Nat) : Big

end Sys2Proof.Config
end

