-- ==== Sys2Proof/Machine/State.lean ====
section
/-! DEFINITION. The state of RSAE as plain data (spec/10_state.md R20 to R47): the B-file, the CSRs, the two
buffers, the host FIFO, the engine phase with the working value of a running command, and beside them the
model's own fields (the inputs still to come, the free-value counter, the pace of the engine). -/

namespace Sys2Proof.Machine

/-- The error codes of R203. Codes 10 to 15 are never produced (spec/93 V5), so none stands here. -/
inductive ErrorCode where
  | ok | illegal | modzero | modeven | smallmod | capacity | rng | nocoprime | decwide | decode
  deriving DecidableEq, Repr

/-- FLAGS (R30): Z, C, V and RES; every other bit reads 0. -/
structure Flags where
  /-- Bit 0, zero or equal. -/
  z : Bool
  /-- Bit 1, carry, borrow or less-than. -/
  c : Bool
  /-- Bit 2, multiply overflow. -/
  v : Bool
  /-- Bit 3, the Boolean result of the last PRIMEQ. -/
  res : Bool
  deriving DecidableEq, Repr

/-- What the external entropy source answers to one byte request (R150): a byte or a failure. -/
inductive Answer where
  | byte (b : Byte)
  | failure
  deriving DecidableEq, Repr

/-- The width of a host access (R64, R65): 8, 16 or 32 bits or a burst; only 32 bits is admitted. -/
inductive Width where
  | w8 | w16 | w32 | burst
  deriving DecidableEq, Repr

/-- One host access to the window at byte offset `off` from BASE (R60, R64, R65). Only a 32-bit write uses
its value; a refused write of another width has none of its effect. -/
inductive Access where
  | read (width : Width) (off : Nat)
  | write (width : Width) (off : Nat) (v : Word)
  deriving DecidableEq, Repr

/-- The moves of the agents of R8, as inputs of the machine: what happens next, and to whom. -/
inductive Event where
  /-- The host makes one access (R73). -/
  | host (a : Access)
  /-- The external source answers a byte request (R150) that was made when there had been `asked` resets. -/
  | source (asked : Nat) (a : Answer)
  /-- The engine takes a turn of `pace` moves after the first (R242: any number of steps may pass). -/
  | engine (pace : Nat)
  /-- The platform asserts the power-on reset (R230, R231). -/
  | powerOn
  deriving DecidableEq, Repr

/-- What the host received for its last access (R67): the data of a read, and whether it was refused
with a bus error. -/
structure BusReply where
  data : Word
  error : Bool
  deriving DecidableEq, Repr

/-- An isPrime call in progress (R152) that needs witness bytes (R151): the number under test, the rounds
left with this one, and the bytes of the current witness draw, first drawn first. -/
structure Witness where
  n : Nat
  left : Nat
  got : List Byte
  deriving DecidableEq, Repr

/-- A generatePrime call in progress (R153). -/
inductive Gen where
  /-- Drawing the candidate's bytes, first drawn first. -/
  | draw (got : List Byte)
  /-- About to test the odd candidate `c` in the inner loop. -/
  | search (c : Nat)
  /-- Inside the inner isPrime(c). -/
  | searching (c : Nat) (w : Witness)
  /-- About to verify `c` again at the outer level. -/
  | recheck (c : Nat)
  /-- Inside the outer isPrime(c). -/
  | rechecking (c : Nat) (w : Witness)
  deriving DecidableEq, Repr

/-- The internal working value of a running command (R45): not architectural, and gone at completion. -/
inductive Work where
  /-- Accepted; the word in CMD is not yet decoded (R201). -/
  | fetch
  /-- PRIMEQ, inside its isPrime call (R155). -/
  | primeq (w : Witness)
  /-- GENPRIME into B[rd] (R156). -/
  | genprime (rd : BReg) (g : Gen)
  /-- KEYGEN, generating p (R158). -/
  | keygenP (rd ra rn : BReg) (g : Gen)
  /-- KEYGEN, generating q after `p` (R158). -/
  | keygenQ (rd ra rn : BReg) (p : Nat) (g : Gen)
  deriving DecidableEq, Repr

/-- The engine phase (R44), with the working value of the command in it (R45). -/
inductive Phase where
  /-- No command; BUSY = 0. -/
  | idle
  /-- A command is executing; BUSY = 1. -/
  | run (w : Work)
  /-- A command is held in nextByte(); BUSY = 1 and RNGWAIT = 1. -/
  | wait (w : Work)
  deriving DecidableEq, Repr

/-- The contents of MSGBUF and BLKBUF (R41, R42) as bytes at window offsets (R61, R62). An unlisted offset
holds no known value: it reads as the free byte of its buffer's generation, the number of the event
that made the buffer UNSPEC. Assumption 2. -/
structure Memory where
  cells : List Host.Cell
  msgGen : Nat
  blkGen : Nat
  deriving DecidableEq, Repr

/-- The whole machine (R20). BUSY, ERR, RNGWAIT, RNGLEVEL and irq are views of these fields (R29, R38, R44,
R46); ID, CAPS and CAPS2 are constants (R24 to R26); CTRL and RNGDATA hold nothing (R27, R37). -/
structure State where
  /-- The B-file, B0 to B15 (R22). -/
  b : Vector Big 16
  /-- CMD, the last accepted command word (R28). -/
  cmd : Word
  /-- STATUS.DONE (R29). -/
  done : Bool
  /-- STATUS.HAZ (R29). -/
  haz : Bool
  /-- STATUS.RNGOVF (R29). -/
  rngovf : Bool
  /-- STATUS.ERRCODE (R29, R203). -/
  errcode : ErrorCode
  /-- FLAGS (R30). -/
  flags : Flags
  /-- IE.DONEIE (R31). -/
  doneie : Bool
  /-- IE.RNGIE (R31). -/
  rngie : Bool
  /-- CFG.RNGSRC: false is the external port, true the host FIFO (R32). -/
  rngsrc : Bool
  /-- CFG.ASCHK (R32). -/
  aschk : Bool
  /-- ROUNDS (R33). -/
  rounds : BitVec 16
  /-- BITLEN (R34). -/
  bitlen : BitVec 16
  /-- MSGLEN (R35). -/
  msglen : BitVec 16
  /-- NBLOCKS (R36). -/
  nblocks : BitVec 16
  /-- RNGCOUNT (R39). -/
  rngcount : Word
  /-- The host FIFO, head first (R43). -/
  fifo : List Byte
  /-- MSGBUF and BLKBUF (R41, R42). -/
  mem : Memory
  /-- The engine phase (R44). -/
  phase : Phase
  /-- The model's own: the number of the next free value. Assumption 1. -/
  free : Nat
  /-- The model's own: how many moves an engine turn makes after its first. Assumption 4. -/
  pace : Nat
  /-- The response of the last host access, as the host holds it (R67). -/
  bus : BusReply
  /-- The environment's: how the external source will meet the coming byte requests, one entry each:
  an answer given at once, or none for one given later (R150). Assumption 5. -/
  source : List (Option Answer)
  /-- The model's own: how many resets there have been. A request belongs to the time between two of them, and an answer
  to a request that a reset has abandoned is ignored (R231). Assumption 5. -/
  resets : Nat
  /-- The environment's: the moves still to come, earliest first (R8). Assumption 4. -/
  inputs : List Event
  deriving DecidableEq, Repr

/-- Why a step stops the machine. RSAE never stops: "the engine never stops, halts or locks up on an error"
(R200), and a bus error is a response to the host that changes no state (R67). So there is no reason, and
no constructor. -/
inductive Fault where
  deriving DecidableEq, Repr

/-- Why the model gives an instruction no meaning. -/
inductive Refusal where
  /-- Raised by an arm of `exec` for an instruction that has no meaning yet; no arm raises it. Safe. -/
  | notModelled (mnemonic : String)
  deriving DecidableEq, Repr

/-- The state right after power-on reset (R47, R231, R234): the spec's value for every field it names; the
buffers UNSPEC. The model's own fields are DESIGN CHOICES of assumption 3: `free`, `pace`, `bus`, `resets`, no input. -/
def State.reset : State where
  b := Vector.replicate 16 (BitVec.zero 4096)
  cmd := 0#32
  done := false
  haz := false
  rngovf := false
  errcode := .ok
  flags := ⟨false, false, false, false⟩
  doneie := false
  rngie := false
  rngsrc := false
  aschk := true
  rounds := 128#16
  bitlen := 2048#16
  msglen := 0#16
  nblocks := 0#16
  rngcount := 0#32
  fifo := []
  mem := ⟨[], 0, 0⟩
  phase := .idle
  free := 1
  pace := 0
  bus := ⟨0#32, false⟩
  source := []
  resets := 0
  inputs := []

end Sys2Proof.Machine
end

