-- ==== Sys2Proof/Machine/Numbers.lean ====
section
/-! DEFINITION. The mathematics the rules of RSAE are written in, as functions that evaluate: bit and byte lengths
(spec/00_scope.md R10, R11), byte sequences and integers (R11), modular power and inverse (spec/41_modular.md R126,
R132, R134), the pieces of the Miller-Rabin test (spec/42_prime.md R152) and the coprime scan (R154). -/

namespace Sys2Proof.Machine

/-- 2^BIGW: arithmetic on big registers wraps here (R110). -/
def bigMod : Nat := 2 ^ Config.bigw

/-- bitlen(x), the bits of x without leading zeros (R10). -/
def bitLength (x : Nat) : Nat := if x = 0 then 0 else Nat.log2 x + 1

/-- byteLength(x) (R11). -/
def byteLength (x : Nat) : Nat := (bitLength x + 7) / 8

/-- beInt(s), the big-endian integer of a byte sequence (R11). -/
def beInt : List Byte → Nat
  | [] => 0
  | b :: rest => b.toNat * 256 ^ rest.length + beInt rest

/-- beBytes(x), the shortest big-endian byte sequence of x (R11). -/
def beBytes (x : Nat) : List Byte :=
  (List.range (byteLength x)).map fun j => BitVec.ofNat 8 (x >>> (8 * (byteLength x - 1 - j)))

/-- The little-endian integer of a byte sequence: byte t holds bits 8t+7:8t (R62, R63). -/
def leInt : List Byte → Nat
  | [] => 0
  | b :: rest => b.toNat + 256 * leInt rest

/-- The window image of a big value, byte t being bits 8t+7:8t (R62). -/
def bigToBytes (v : Big) : List Byte :=
  (List.range Config.bigBytes).map fun t => v.extractLsb' (8 * t) 8

/-- The four bytes of a host word, lowest offset first (R63). -/
def wordToBytes (v : Word) : List Byte :=
  (List.range 4).map fun t => v.extractLsb' (8 * t) 8

/-- Word i of a big value (R62). -/
def bigWord (v : Big) (i : Nat) : Word := v.extractLsb' (32 * i) 32

/-- A big value with word i replaced by `w` (R62): bits 32i+31:32i are those of `w`. -/
def setBigWord (v : Big) (i : Nat) (w : Word) : Big :=
  (v &&& ~~~ (BitVec.ofNat 4096 0xFFFFFFFF <<< (32 * i))) ||| (w.setWidth 4096 <<< (32 * i))

/-- Square-and-multiply on the bits of `e`, with `fuel` at least the number of bits. -/
def powModFuel (n a : Nat) : Nat → Nat → Nat
  | 0, _ => 1 % n
  | fuel + 1, e =>
    if e = 0 then 1 % n
    else
      let h := powModFuel n a fuel (e / 2)
      if e % 2 = 1 then h * h % n * a % n else h * h % n

/-- a^e mod n (R126, R132), computed so that it evaluates for every 4096-bit exponent;
`Sys2Proof.Laws.powMod_eq` says that it is the residue. -/
def powMod (a e n : Nat) : Nat := powModFuel n a e e

/-- The extended Euclidean algorithm with its coefficients kept in [0, m) (R134). -/
def inverseLoop (m : Nat) : Nat → Nat → Nat → Nat → Nat → Nat
  | 0, _, _, t0, _ => t0
  | fuel + 1, r0, r1, t0, t1 =>
    if r1 = 0 then t0
    else inverseLoop m fuel r1 (r0 % r1) t1 ((t0 + (m - r0 / r1 * t1 % m)) % m)

/-- The inverse of `a` modulo `m` normalised into [0, m), for coprime operands and m ≥ 2; 0 for m = 1 (R134).
`Sys2Proof.Laws.modInverse_spec` says that it is the inverse. -/
def modInverse (a m : Nat) : Nat := inverseLoop m m m (a % m) 0 (1 % m)

/-- The Montgomery product a·b·R⁻¹ mod n with R = 2^BIGW, for odd n (R133). -/
def montProduct (a b n : Nat) : Nat := a * b * modInverse (bigMod % n) n % n

/-- The loop "while r mod 2 == 0" of R152, with `fuel` at least r. -/
def oddPartLoop : Nat → Nat → Nat → Nat × Nat
  | 0, r, s => (r, s)
  | fuel + 1, r, s => if r % 2 = 0 then oddPartLoop fuel (r / 2) (s + 1) else (r, s)

/-- The pair (r, s) with x = 2^s · r and r odd, for x ≥ 1 (R152). -/
def oddPart (x : Nat) : Nat × Nat := oddPartLoop x x 0

/-- The inner loop of a Miller-Rabin round (R152): up to `k` squarings of `x`, failing at 1, passing at n - 1. -/
def squaringsPass (n : Nat) : Nat → Nat → Bool
  | 0, _ => false
  | k + 1, x =>
    let y := x * x % n
    if y = 1 then false else if y = n - 1 then true else squaringsPass n k y

/-- One Miller-Rabin round of n with witness a (R152). -/
def roundPasses (n a : Nat) : Bool :=
  let x := powMod a (oddPart (n - 1)).1 n
  if x = 1 ∨ x = n - 1 then true else squaringsPass n ((oddPart (n - 1)).2 - 1) x

/-- The loop of selectCoprime (R154), with `fuel` at least x - k. -/
def coprimeLoop (x : Nat) : Nat → Nat → Option Nat
  | 0, _ => none
  | fuel + 1, k =>
    if k < x then (if Nat.gcd k x = 1 then some k else coprimeLoop x fuel (k + 1)) else none

/-- selectCoprime(x): the smallest k with 2 ≤ k < x and gcd(k, x) = 1, if there is one (R154). -/
def selectCoprime (x : Nat) : Option Nat := coprimeLoop x x 2

end Sys2Proof.Machine
end

