-- ==== Sys2Proof/Machine/Ops.lean ====
section
/-! DEFINITION. The named operations over registers and memory, the life of a command (acceptance, normal completion,
error completion and its acknowledgement, spec/60_exceptions.md R200 to R209), the entropy draw (spec/42_prime.md R150),
the free values, and the two resets (spec/70_reset_and_hazards.md R230 to R234). -/

namespace Sys2Proof.Machine

/-! ### The B-file (R22) -/

/-- `B[i]` as a natural number (R9, R12). -/
def readB (r : BReg) (s : State) : Nat := s.b[r].toNat

/-- `B[i] <- v`, v modulo 2^BIGW (R12, R110). -/
def writeB (r : BReg) (v : Nat) (s : State) : State := { s with b := s.b.set r (BitVec.ofNat 4096 v) }

/-- FLAGS <- f (R30). -/
def writeFlags (f : Flags) (s : State) : State := { s with flags := f }

/-! ### The buffers (R41, R42, R62) -/

/-- The listed byte at a window offset, if one is listed. -/
def cellAt : List Host.Cell → Nat → Option Byte
  | [], _ => none
  | c :: rest, a => if c.1 = a then some c.2 else cellAt rest a

/-- What an unlisted offset reads as: the free byte of its buffer's generation. Assumptions 1, 2. -/
def unlistedByte (m : Memory) (a : Nat) : Byte :=
  Config.unspecByte (if a < Config.blkBase then m.msgGen else m.blkGen) a

/-- The byte of a buffer at window offset `a`. -/
def readByte (m : Memory) (a : Nat) : Byte := (cellAt m.cells a).getD (unlistedByte m a)

/-- The `len` bytes from window offset `a` on. -/
def readBytes (m : Memory) (a len : Nat) : List Byte := (List.range len).map fun t => readByte m (a + t)

/-- A byte sequence as cells at rising offsets from `a`. -/
def cellsFrom : Nat → List Byte → List Host.Cell
  | _, [] => []
  | a, b :: rest => (a, b) :: cellsFrom (a + 1) rest

/-- Store a byte sequence at window offsets `a`, a+1, …, keeping the cells in rising order. -/
def writeBytes (m : Memory) (a : Nat) (bs : List Byte) : Memory :=
  { m with cells := m.cells.filter (fun c => decide (c.1 < a)) ++ cellsFrom a bs
                      ++ m.cells.filter (fun c => decide (a + bs.length ≤ c.1)) }

/-- An offset of MSGBUF or BLKBUF (R61). -/
abbrev inBuffers (a : Nat) : Prop :=
  (Config.msgBase ≤ a ∧ a < Config.msgTop) ∨ (Config.blkBase ≤ a ∧ a < Config.window)

/-- The canonical form of the buffers: offsets strictly rising, each one of MSGBUF or BLKBUF. -/
abbrev Memory.wf (m : Memory) : Prop :=
  m.cells.Pairwise (fun c d => c.1 < d.1) ∧ ∀ c ∈ m.cells, inBuffers c.1

/-- MsgRead(j) (R12). -/
def msgRead (m : Memory) (j : Nat) : Byte := readByte m (Config.msgBase + j)

/-- The window offset of BLKBUF slot `i` (R62). -/
def slotOffset (i : Nat) : Nat := Config.blkBase + Config.bigBytes * i

/-- BlkRead(i) (R12, R62). -/
def blkRead (m : Memory) (i : Nat) : Nat := leInt (readBytes m (slotOffset i) Config.bigBytes)

/-! ### Views of the state (R29, R38, R44, R46) -/

/-- STATUS.BUSY (R29, R44). -/
def busy (s : State) : Bool :=
  match s.phase with
  | .idle => false
  | .run _ => true
  | .wait _ => true

/-- STATUS.RNGWAIT (R29, R44). -/
def rngwait (s : State) : Bool :=
  match s.phase with
  | .idle => false
  | .run _ => false
  | .wait _ => true

/-- The number of an error code (R203). -/
def errorNumber : ErrorCode → BitVec 4
  | .ok => 0#4
  | .illegal => 1#4
  | .modzero => 2#4
  | .modeven => 3#4
  | .smallmod => 4#4
  | .capacity => 5#4
  | .rng => 6#4
  | .nocoprime => 7#4
  | .decwide => 8#4
  | .decode => 9#4

/-- STATUS.ERR (R29): ERRCODE ≠ 0. -/
def err (s : State) : Bool := decide (errorNumber s.errcode ≠ 0#4)

/-- The interrupt output (R46, R211). -/
def irq (s : State) : Bool := (s.done && s.doneie) || (rngwait s && s.rngie)

/-! ### The life of a command -/

/-- Acceptance of word `w` (R201). -/
def accept (w : Word) (s : State) : State :=
  { s with cmd := w, done := false, errcode := .ok, rngcount := 0#32, phase := .run .fetch }

/-- Completion with a code (R203, R205, R206): the code is recorded, DONE is set and the engine is IDLE. -/
def complete (c : ErrorCode) (s : State) : State := { s with errcode := c, done := true, phase := .idle }

/-- Normal completion, after the writes of the command's rule (R205). -/
def finish (s : State) : State := complete .ok s

/-- TAKING AN ERROR, `raise Error(c)` (R12, R206): RSAE's only exception. Nothing is saved and control goes nowhere
(R207); what the command had written so far must not be in `s`. -/
def raise (c : ErrorCode) (s : State) : State := complete c s

/-- THE RETURN FROM IT, the acknowledgement by a write of STATUS (R29, R208): each W1C field whose bit is 1 in `v`
is cleared. -/
def acknowledge (v : Word) (s : State) : State :=
  { s with done := s.done && !v.getLsbD 1, haz := s.haz && !v.getLsbD 4, rngovf := s.rngovf && !v.getLsbD 5 }

/-! ### Entropy (R150) -/

/-- The result of one nextByte() call. -/
inductive Draw where
  /-- A byte, and the state that has consumed it. -/
  | byte (b : Byte) (s : State)
  /-- The external source answered a failure. -/
  | failed (s : State)
  /-- The selected source has no answer yet. -/
  | held (s : State)

/-- Count one returned byte (R39). -/
def countByte (s : State) : State := { s with rngcount := s.rngcount + 1#32 }

/-- nextByte() up to its first wait (R150). -/
def nextByte (s : State) : Draw :=
  if s.rngsrc then
    match s.fifo with
    | [] => .held s
    | b :: rest => .byte b (countByte { s with fifo := rest })
  else
    match s.source with
    | [] => .held s
    | none :: rest => .held { s with source := rest }
    | some .failure :: rest => .failed { s with source := rest }
    | some (.byte b) :: rest => .byte b (countByte { s with source := rest })

/-- A write of RNGDATA (R37): push at the tail, or drop the byte of a full FIFO and set RNGOVF. A draw that waits
for the host FIFO is answered by the push (R150, R211). -/
def pushEntropy (b : Byte) (s : State) : State :=
  if s.fifo.length < Config.rngDepth then
    let s := { s with fifo := s.fifo ++ [b] }
    match s.phase with
    | .idle => s
    | .run _ => s
    | .wait w => if s.rngsrc then { s with phase := .run w } else s
  else { s with rngovf := true }

/-! ### UNSPEC contents and the resets -/

/-- MSGBUF becomes UNSPEC as a whole (R231, R233). -/
def forgetMsg (gen : Nat) (m : Memory) : Memory :=
  { m with cells := m.cells.filter (fun c => decide (Config.blkBase ≤ c.1)), msgGen := gen }

/-- BLKBUF becomes UNSPEC as a whole (R231, R233). -/
def forgetBlk (gen : Nat) (m : Memory) : Memory :=
  { m with cells := m.cells.filter (fun c => decide (c.1 < Config.blkBase)), blkGen := gen }

/-- The first `len` bytes of MSGBUF become UNSPEC (R185, R206). -/
def scrambleMsg (gen len : Nat) (m : Memory) : Memory :=
  writeBytes m Config.msgBase ((List.range len).map fun j => Config.unspecByte gen (Config.msgBase + j))

/-- A reset with buffer contents `m`: every field of R47, with the environment's and the model's own fields kept. An
entropy request outstanding is abandoned (R231): answers to it are of the time before this reset. -/
def resetWith (m : Memory) (s : State) : State :=
  { State.reset with mem := m, free := s.free + 1, pace := s.pace, bus := s.bus, source := s.source,
                     resets := s.resets + 1, inputs := s.inputs }

/-- The power-on reset as an event (R230, R231): both buffers become UNSPEC. -/
def powerOnReset (s : State) : State := resetWith ⟨[], s.free, s.free⟩ s

/-- The buffers after a soft reset (R232, R233): kept, but for BLKBUF if the aborted command was an ENC and MSGBUF if
it was a DEC. -/
def softResetMemory (s : State) : Memory :=
  if busy s then
    match decode s.cmd with
    | .ok (.enc _ _) => forgetBlk s.free s.mem
    | .ok (.dec _ _) => forgetMsg s.free s.mem
    | _ => s.mem
  else s.mem

/-- The soft reset of CTRL.SRST (R27, R232, R233). -/
def softReset (s : State) : State := resetWith (softResetMemory s) s

end Sys2Proof.Machine
end

