-- ==== Sys2Proof/Machine/Flags.lean ====
section
/-! DEFINITION. The flags each command writes (spec/10_state.md R48), as functions of its operands and of the flags
before; "-" of the table is the flag before. -/

namespace Sys2Proof.Machine

/-- ADD, ADDI (R48, R113, R116): Z of the wrapped sum, C the carry out of bit BIGW-1, V 0. -/
def addFlags (x y : Nat) (f : Flags) : Flags :=
  { z := decide ((x + y) % bigMod = 0), c := decide (bigMod ≤ x + y), v := false, res := f.res }

/-- x - y modulo 2^BIGW (R114, R117), for y < 2^BIGW. -/
def subWrapped (x y : Nat) : Nat := (x + (bigMod - y)) % bigMod

/-- SUB, SUBI (R48, R114, R117): Z of the wrapped difference, C the borrow, V 0. -/
def subFlags (x y : Nat) (f : Flags) : Flags :=
  { z := decide (subWrapped x y = 0), c := decide (x < y), v := false, res := f.res }

/-- MUL (R48, R115): Z of the low half, C 0, V if the full product does not fit. -/
def mulFlags (x y : Nat) (f : Flags) : Flags :=
  { z := decide (x * y % bigMod = 0), c := false, v := decide (bigMod ≤ x * y), res := f.res }

/-- CMP (R48, R118): Z if equal, C if less, V 0. -/
def cmpFlags (x y : Nat) (f : Flags) : Flags :=
  { z := decide (x = y), c := decide (x < y), v := false, res := f.res }

/-- PRIMEQ (R48, R155): RES only. -/
def resFlags (r : Bool) (f : Flags) : Flags := { f with res := r }

end Sys2Proof.Machine
end

