-- ==== Sys2Proof/Machine/Operands.lean ====
section
/-! DEFINITION. The operand forms of the commands (spec/30_encoding.md R93, R94): registers (`readB` of
Ops.lean), the zero-extended immediate, the modulus register with its check (spec/41_modular.md R127), and the
CSR operands ROUNDS, BITLEN, MSGLEN and NBLOCKS (spec/10_state.md R33 to R36). -/

namespace Sys2Proof.Machine

/-- IMM8 zero-extended (R93). -/
def immediate (imm : Byte) : Nat := imm.toNat

/-- The modulus check every command with an RN makes first (R127): 0 raises MODZERO. -/
def withModulus (rn : BReg) (k : Nat → State → State) (s : State) : State :=
  if readB rn s = 0 then raise .modzero s else k (readB rn s) s

/-- ROUNDS (R33). -/
def roundsOf (s : State) : Nat := s.rounds.toNat

/-- k = BITLEN div 8, the bytes of a prime candidate (R34, R153). -/
def primeBytes (s : State) : Nat := s.bitlen.toNat / 8

/-- MSGLEN (R35). -/
def msglenOf (s : State) : Nat := s.msglen.toNat

/-- NBLOCKS (R36). -/
def nblocksOf (s : State) : Nat := s.nblocks.toNat

end Sys2Proof.Machine
end

