-- ==== Sys2Proof/Machine/BigInt.lean ====
section
/-! DEFINITION. The big-integer substrate commands NOP, MOV, ADD, SUB, MUL, ADDI, SUBI, CMP and GCD
(spec/40_bigint.md R110 to R120): sources are read first, then the destination and the flags are written. -/

namespace Sys2Proof.Machine

/-- NOP (R111). -/
def execNop (s : State) : Host.Outcome State Fault Refusal := .next (finish s)

/-- MOV (R112). -/
def execMov (rd ra : BReg) (s : State) : Host.Outcome State Fault Refusal :=
  .next (finish (writeB rd (readB ra s) s))

/-- The sum of two operand values into B[rd], with its flags (R113, R116). -/
def addInto (rd : BReg) (x y : Nat) (s : State) : State :=
  finish (writeFlags (addFlags x y s.flags) (writeB rd (x + y) s))

/-- The difference of two operand values into B[rd], with its flags (R114, R117). -/
def subInto (rd : BReg) (x y : Nat) (s : State) : State :=
  finish (writeFlags (subFlags x y s.flags) (writeB rd (subWrapped x y) s))

/-- ADD (R113). -/
def execAdd (rd ra rb : BReg) (s : State) : Host.Outcome State Fault Refusal :=
  .next (addInto rd (readB ra s) (readB rb s) s)

/-- SUB (R114). -/
def execSub (rd ra rb : BReg) (s : State) : Host.Outcome State Fault Refusal :=
  .next (subInto rd (readB ra s) (readB rb s) s)

/-- MUL (R115). -/
def execMul (rd ra rb : BReg) (s : State) : Host.Outcome State Fault Refusal :=
  .next (finish (writeFlags (mulFlags (readB ra s) (readB rb s) s.flags)
    (writeB rd (readB ra s * readB rb s) s)))

/-- ADDI (R116). -/
def execAddi (rd ra : BReg) (imm : Byte) (s : State) : Host.Outcome State Fault Refusal :=
  .next (addInto rd (readB ra s) (immediate imm) s)

/-- SUBI (R117). -/
def execSubi (rd ra : BReg) (imm : Byte) (s : State) : Host.Outcome State Fault Refusal :=
  .next (subInto rd (readB ra s) (immediate imm) s)

/-- CMP (R118): no register is written. -/
def execCmp (ra rb : BReg) (s : State) : Host.Outcome State Fault Refusal :=
  .next (finish (writeFlags (cmpFlags (readB ra s) (readB rb s) s.flags) s))

/-- GCD (R119). -/
def execGcd (rd ra rb : BReg) (s : State) : Host.Outcome State Fault Refusal :=
  .next (finish (writeB rd (Nat.gcd (readB ra s) (readB rb s)) s))

end Sys2Proof.Machine
end

