-- ==== Sys2Proof/Machine/Codec.lean ====
section
/-! DEFINITION. The RSA block encoder and decoder, ENC and DEC (spec/43_codec.md R180 to R187): all checks come before
the first write, and every write happens at the one completion (R205, R206). -/

namespace Sys2Proof.Machine

/-- chunkSize(n) (R180). -/
def chunkSize (n : Nat) : Nat := byteLength n - 1

/-- The number of blocks of a message of `len` bytes (R182, R183). -/
def blockCount (len k : Nat) : Nat := max 1 ((len + k - 1) / k)

/-- The message followed by spaces up to `total` bytes (R182, R183). -/
def paddedMessage (m : Memory) (len total : Nat) : List Byte :=
  (List.range len).map (msgRead m) ++ List.replicate (total - len) 0x20#8

/-- Chunk `i` of a padded message as an integer (R181, R182). -/
def chunkValue (bytes : List Byte) (k i : Nat) : Nat := beInt ((bytes.drop (i * k)).take k)

/-- The value ENC writes to slot `i` (R182). -/
def encSlot (e n k : Nat) (padded : List Byte) (i : Nat) : Nat := powMod (chunkValue padded k i) e n

/-- The bytes ENC writes to BLKBUF, slot 0 first (R182, R62). -/
def encImage (e n k nb : Nat) (padded : List Byte) : List Byte :=
  (List.range nb).flatMap fun i => bigToBytes (BitVec.ofNat 4096 (encSlot e n k padded i))

/-- ENC after its checks: write the slots and NBLOCKS (R182). -/
def encWrite (e n k nb : Nat) (s : State) : State :=
  finish { s with
    mem := writeBytes s.mem Config.blkBase
      (encImage e n k nb (paddedMessage s.mem (msglenOf s) (nb * k)))
    nblocks := BitVec.ofNat 16 nb }

/-- ENC (R182): MODZERO, SMALLMOD and CAPACITY in that order. -/
def execEnc (ra rn : BReg) (s : State) : Host.Outcome State Fault Refusal :=
  .next (withModulus rn (fun n s =>
    if chunkSize n = 0 then raise .smallmod s
    else if Config.msgBytes < msglenOf s then raise .capacity s
    else if Config.nblk < blockCount (msglenOf s) (chunkSize n) then raise .capacity s
    else encWrite (readB ra s) n (chunkSize n) (blockCount (msglenOf s) (chunkSize n)) s) s)

/-- The decrypted value of slot `i` (R184). -/
def decValue (d n : Nat) (m : Memory) (i : Nat) : Nat := powMod (blkRead m i) d n

/-- The bytes of a decrypted value in its slot: the shortest big-endian bytes, then zeros (R185). -/
def decSlot (k v : Nat) : List Byte := beBytes v ++ List.replicate (k - (beBytes v).length) 0x00#8

/-- Some decrypted value needs more than k bytes (R185). -/
def tooWide (d n k nb : Nat) (m : Memory) : Bool :=
  (List.range nb).any fun i => decide (k < (beBytes (decValue d n m i)).length)

/-- The nb · k output bytes of DEC (R184). -/
def decOutput (d n k nb : Nat) (m : Memory) : List Byte :=
  (List.range nb).flatMap fun i => decSlot k (decValue d n m i)

/-- The length up to the last byte that is not a space (R184, R186). -/
def strippedLength (out : List Byte) : Nat := (out.reverse.dropWhile fun b => b == 0x20#8).length

/-- Some byte is not ASCII (R187). -/
def hasNonAscii (out : List Byte) : Bool := out.any fun b => decide (0x80 ≤ b.toNat)

/-- DEC after its checks, with the nb · k output bytes `out` (R184, R186, R187). DECODE leaves its outputs written. -/
def decWrite (out : List Byte) (s : State) : State :=
  complete (if s.aschk && hasNonAscii (out.take (strippedLength out)) then .decode else .ok)
    { s with
      mem := writeBytes s.mem Config.msgBase out
      msglen := BitVec.ofNat 16 (strippedLength out) }

/-- DEC of a block that is too wide (R185, R206): MSGBUF bytes 0 to len-1 become UNSPEC. -/
def decWide (len : Nat) (s : State) : State :=
  raise .decwide { s with mem := scrambleMsg s.free len s.mem, free := s.free + 1 }

/-- DEC (R184): MODZERO, SMALLMOD and CAPACITY in that order, then DECWIDE, then DECODE. -/
def execDec (ra rn : BReg) (s : State) : Host.Outcome State Fault Refusal :=
  .next (withModulus rn (fun n s =>
    if chunkSize n = 0 then raise .smallmod s
    else if Config.nblk < nblocksOf s ∨ Config.msgBytes < nblocksOf s * chunkSize n then raise .capacity s
    else if tooWide (readB ra s) n (chunkSize n) (nblocksOf s) s.mem then
      decWide (nblocksOf s * chunkSize n) s
    else decWrite (decOutput (readB ra s) n (chunkSize n) (nblocksOf s) s.mem) s) s)

end Sys2Proof.Machine
end

