-- ==== Sys2Proof/Machine/Modular.lean ====
section
/-! DEFINITION. The modular arithmetic commands MODRED, MODMUL, MODEXP, MONTMUL and MODINV
(spec/41_modular.md R126 to R134): the modulus is checked first (R127), and every result is the exact residue. -/

namespace Sys2Proof.Machine

/-- MODRED (R130). -/
def execModred (rd ra rn : BReg) (s : State) : Host.Outcome State Fault Refusal :=
  .next (withModulus rn (fun n s => finish (writeB rd (readB ra s % n) s)) s)

/-- MODMUL (R131). -/
def execModmul (rd ra rb rn : BReg) (s : State) : Host.Outcome State Fault Refusal :=
  .next (withModulus rn (fun n s => finish (writeB rd (readB ra s * readB rb s % n) s)) s)

/-- MODEXP (R132). -/
def execModexp (rd ra rb rn : BReg) (s : State) : Host.Outcome State Fault Refusal :=
  .next (withModulus rn (fun n s => finish (writeB rd (powMod (readB ra s) (readB rb s) n) s)) s)

/-- MONTMUL (R133): an even modulus raises MODEVEN. -/
def execMontmul (rd ra rb rn : BReg) (s : State) : Host.Outcome State Fault Refusal :=
  .next (withModulus rn (fun n s =>
    if n % 2 = 0 then raise .modeven s
    else finish (writeB rd (montProduct (readB ra s) (readB rb s) n) s)) s)

/-- MODINV (R134): 0 modulo 1, the inverse of coprime operands, and otherwise a free value of BIGW bits. -/
def execModinv (rd ra rn : BReg) (s : State) : Host.Outcome State Fault Refusal :=
  .next (withModulus rn (fun m s =>
    if m = 1 then finish (writeB rd 0 s)
    else if Nat.gcd (readB ra s % m) m = 1 then finish (writeB rd (modInverse (readB ra s) m) s)
    else finish (writeB rd (Config.unspecBig s.free).toNat { s with free := s.free + 1 })) s)

end Sys2Proof.Machine
end

