-- ==== Sys2Proof/Machine/Prime.lean ====
section
/-! DEFINITION. The primality tester pipeline (spec/42_prime.md): isPrime, drawWitness and generatePrime as procedures
that can be held at every byte request (R150 to R153, R44), and the commands PRIMEQ, GENPRIME, COPRIME and KEYGEN
(R155 to R158). One move of the engine is one byte request or one step between two. -/

namespace Sys2Proof.Machine

/-- Where an isPrime call stands: answered, or in need of witness bytes. -/
inductive Verdict where
  | yes
  | no
  | ask (w : Witness)
  deriving DecidableEq, Repr

/-- isPrime(n, rounds) up to its first byte request (R152). -/
def testStart (n rounds : Nat) : Verdict :=
  if n = 2 ∨ n = 3 then .yes
  else if n ≤ 1 ∨ n % 2 = 0 then .no
  else if rounds = 0 then .yes
  else .ask ⟨n, rounds, []⟩

/-- One whole draw of byteLength(n) bytes as witness `a`: rejected unless 2 ≤ a ≤ n - 2 (R151), else one round (R152). -/
def testWitness (w : Witness) (a : Nat) : Verdict :=
  if 2 ≤ a ∧ a ≤ w.n - 2 then
    if roundPasses w.n a then (if w.left ≤ 1 then .yes else .ask ⟨w.n, w.left - 1, []⟩) else .no
  else .ask ⟨w.n, w.left, []⟩

/-- An isPrime call receives one byte (R151, R152). -/
def testFeed (w : Witness) (b : Byte) : Verdict :=
  if (w.got ++ [b]).length < byteLength w.n then .ask ⟨w.n, w.left, w.got ++ [b]⟩
  else testWitness w (beInt (w.got ++ [b]))

/-- Where a generatePrime call stands after a move: at its result, or going on. -/
inductive GenStep where
  | found (c : Nat)
  | more (g : Gen)
  deriving DecidableEq, Repr

/-- The candidate of R153: the first drawn byte most significant, its top bit cleared, made odd. -/
def candidate (bytes : List Byte) : Nat :=
  let c := match bytes with
    | [] => 0
    | b :: rest => beInt ((b &&& 0x7F#8) :: rest)
  if c % 2 = 0 then c + 1 else c

/-- The inner test of `c` has come to a verdict: accept it for the outer test, try c + 2, or go on (R153). -/
def searchVerdict (c : Nat) : Verdict → GenStep
  | .yes => .more (.recheck c)
  | .no => .more (.search (c + 2))
  | .ask w => .more (.searching c w)

/-- The outer test of `c` has come to a verdict: the result, a new draw, or go on (R153). -/
def recheckVerdict (c : Nat) : Verdict → GenStep
  | .yes => .found c
  | .no => .more (.draw [])
  | .ask w => .more (.rechecking c w)

/-- A generatePrime call needs a byte; `k` is the number of bytes of a candidate. -/
def genWants (k : Nat) : Gen → Bool
  | .draw got => decide (got.length < k)
  | .search _ => false
  | .searching _ _ => true
  | .recheck _ => false
  | .rechecking _ _ => true

/-- A move of a generatePrime call that draws nothing (R153). -/
def genQuiet (rounds : Nat) : Gen → GenStep
  | .draw got => .more (.search (candidate got))
  | .search c => searchVerdict c (testStart c rounds)
  | .searching c w => .more (.searching c w)
  | .recheck c => recheckVerdict c (testStart c rounds)
  | .rechecking c w => .more (.rechecking c w)

/-- A generatePrime call receives one byte (R153). -/
def genFeed (b : Byte) : Gen → GenStep
  | .draw got => .more (.draw (got ++ [b]))
  | .search c => .more (.search c)
  | .searching c w => searchVerdict c (testFeed w b)
  | .recheck c => .more (.recheck c)
  | .rechecking c w => recheckVerdict c (testFeed w b)

/-- The end of an isPrime call of PRIMEQ, or its next byte request (R155). -/
def primeqVerdict : Verdict → State → State
  | .yes, s => finish (writeFlags (resFlags true s.flags) s)
  | .no, s => finish (writeFlags (resFlags false s.flags) s)
  | .ask w, s => { s with phase := .run (.primeq w) }

/-- The end of GENPRIME, or its next stage (R156). -/
def genprimeStep (rd : BReg) : GenStep → State → State
  | .found c, s => finish (writeB rd c s)
  | .more g, s => { s with phase := .run (.genprime rd g) }

/-- KEYGEN with both primes (R158): e is selected before d is computed, and nothing of p, q, φ is kept. -/
def keygenFinish (rd ra rn : BReg) (p q : Nat) (s : State) : State :=
  match selectCoprime ((p - 1) * (q - 1)) with
  | none => raise .nocoprime s
  | some e =>
    finish (writeB ra (modInverse e ((p - 1) * (q - 1))) (writeB rd e (writeB rn (p * q) s)))

/-- The end of the first generatePrime call of KEYGEN, or its next stage (R158). -/
def keygenPStep (rd ra rn : BReg) : GenStep → State → State
  | .found p, s => { s with phase := .run (.keygenQ rd ra rn p (.draw [])) }
  | .more g, s => { s with phase := .run (.keygenP rd ra rn g) }

/-- The end of the second generatePrime call of KEYGEN, or its next stage (R158). -/
def keygenQStep (rd ra rn : BReg) (p : Nat) : GenStep → State → State
  | .found q, s => keygenFinish rd ra rn p q s
  | .more g, s => { s with phase := .run (.keygenQ rd ra rn p g) }

/-- The working value needs a byte next. -/
def workWants (k : Nat) : Work → Bool
  | .fetch => false
  | .primeq _ => true
  | .genprime _ g => genWants k g
  | .keygenP _ _ _ g => genWants k g
  | .keygenQ _ _ _ _ g => genWants k g

/-- A running command receives one byte. -/
def workFeed (b : Byte) : Work → State → State
  | .fetch, s => s
  | .primeq w, s => primeqVerdict (testFeed w b) s
  | .genprime rd g, s => genprimeStep rd (genFeed b g) s
  | .keygenP rd ra rn g, s => keygenPStep rd ra rn (genFeed b g) s
  | .keygenQ rd ra rn p g, s => keygenQStep rd ra rn p (genFeed b g) s

/-- A move of a running command that draws nothing. -/
def workQuiet : Work → State → State
  | .fetch, s => s
  | .primeq _, s => s
  | .genprime rd g, s => genprimeStep rd (genQuiet (roundsOf s) g) s
  | .keygenP rd ra rn g, s => keygenPStep rd ra rn (genQuiet (roundsOf s) g) s
  | .keygenQ rd ra rn p g, s => keygenQStep rd ra rn p (genQuiet (roundsOf s) g) s

/-- A move that requests a byte (R150): a byte is given to the command, a failure is error RNG, and with no answer
yet the engine is in WAIT. -/
def workDraw (w : Work) (s : State) : State :=
  match nextByte s with
  | .byte b s' => workFeed b w s'
  | .failed s' => raise .rng s'
  | .held s' => { s' with phase := .wait w }

/-- One move of the engine in phase RUN. -/
def engineMove (w : Work) (s : State) : State :=
  if workWants (primeBytes s) w then workDraw w s else workQuiet w s

/-- Up to `fuel` moves of the engine: it stops at a completion, in WAIT, or when the turn is over. -/
def runMoves : Nat → State → State
  | 0, s => s
  | fuel + 1, s =>
    match s.phase with
    | .idle => s
    | .wait _ => s
    | .run .fetch => s
    | .run w => runMoves fuel (engineMove w s)

/-- The answer of the external source to a request made when there had been `asked` resets (R150, R211); with no request
outstanding, or when a reset has abandoned the request it answers, it is ignored (R231). -/
def sourceAnswer (asked : Nat) (a : Answer) (s : State) : State :=
  match s.phase with
  | .idle => s
  | .run _ => s
  | .wait w =>
    if s.rngsrc = true ∨ asked ≠ s.resets then s
    else match a with
      | .failure => raise .rng s
      | .byte b => workFeed b w (countByte { s with phase := .run w })

/-- PRIMEQ (R155). -/
def execPrimeq (ra : BReg) (s : State) : Host.Outcome State Fault Refusal :=
  .next (runMoves s.pace (primeqVerdict (testStart (readB ra s) (roundsOf s)) s))

/-- GENPRIME (R156): CAPACITY before any draw. -/
def execGenprime (rd : BReg) (s : State) : Host.Outcome State Fault Refusal :=
  .next (if Config.bigw / 8 < primeBytes s then raise .capacity s
    else runMoves (s.pace + 1) { s with phase := .run (.genprime rd (.draw [])) })

/-- COPRIME (R157). -/
def execCoprime (rd ra : BReg) (s : State) : Host.Outcome State Fault Refusal :=
  .next (match selectCoprime (readB ra s) with
    | none => raise .nocoprime s
    | some k => finish (writeB rd k s))

/-- KEYGEN (R158): equal destinations are ILLEGAL (R98), then CAPACITY before any draw. -/
def execKeygen (rd ra rn : BReg) (s : State) : Host.Outcome State Fault Refusal :=
  .next (if distinctDestinations rd ra rn then
      if Config.bigw / 16 < primeBytes s then raise .capacity s
      else runMoves (s.pace + 1) { s with phase := .run (.keygenP rd ra rn (.draw [])) }
    else raise .illegal s)

end Sys2Proof.Machine
end

