-- ==== Sys2Proof/Machine/Dispatch.lean ====
section
/-! DEFINITION. The meaning of a decoded command in the state its acceptance left, one arm per constructor. -/

namespace Sys2Proof.Machine

/-- The engine executes the rule of a decoded command (spec/30_encoding.md R96). -/
def exec (i : Instr) (s : State) : Host.Outcome State Fault Refusal :=
  match i with
  | .nop => Sys2Proof.Machine.execNop s
  | .mov rd ra => Sys2Proof.Machine.execMov rd ra s
  | .add rd ra rb => Sys2Proof.Machine.execAdd rd ra rb s
  | .sub rd ra rb => Sys2Proof.Machine.execSub rd ra rb s
  | .mul rd ra rb => Sys2Proof.Machine.execMul rd ra rb s
  | .addi rd ra imm => Sys2Proof.Machine.execAddi rd ra imm s
  | .subi rd ra imm => Sys2Proof.Machine.execSubi rd ra imm s
  | .cmp ra rb => Sys2Proof.Machine.execCmp ra rb s
  | .gcd rd ra rb => Sys2Proof.Machine.execGcd rd ra rb s
  | .modred rd ra rn => Sys2Proof.Machine.execModred rd ra rn s
  | .modmul rd ra rb rn => Sys2Proof.Machine.execModmul rd ra rb rn s
  | .modexp rd ra rb rn => Sys2Proof.Machine.execModexp rd ra rb rn s
  | .montmul rd ra rb rn => Sys2Proof.Machine.execMontmul rd ra rb rn s
  | .modinv rd ra rn => Sys2Proof.Machine.execModinv rd ra rn s
  | .primeq ra => Sys2Proof.Machine.execPrimeq ra s
  | .genprime rd => Sys2Proof.Machine.execGenprime rd s
  | .coprime rd ra => Sys2Proof.Machine.execCoprime rd ra s
  | .keygen rd ra rn => Sys2Proof.Machine.execKeygen rd ra rn s
  | .enc ra rn => Sys2Proof.Machine.execEnc ra rn s
  | .dec ra rn => Sys2Proof.Machine.execDec ra rn s

end Sys2Proof.Machine
end

