-- ==== Sys2Proof/Machine/HostPort.lean ====
section
/-! DEFINITION. The host bus target port: the window map (spec/20_memory.md R60 to R69), the reads and writes of the
CSRs (spec/10_state.md R23 to R40), of the B-file and of the buffers, the busy lock (R69) and bus errors (R65 to R67). -/

namespace Sys2Proof.Machine

/-- What a window offset names (R61). -/
inductive Place where
  /-- The CSR page; reserved offsets in it read 0 and ignore writes (R40). -/
  | csr (off : Nat)
  /-- Word `i` of big register Bk (R62). -/
  | bfile (k : BReg) (i : Nat)
  /-- The MSGBUF or BLKBUF word at window offset `off` (R62). -/
  | buffer (off : Nat)
  /-- No location of RSAE (R66). -/
  | unmapped
  deriving DecidableEq, Repr

/-- The window map (R61, R62). -/
def place (off : Nat) : Place :=
  if off < Config.csrTop then .csr off
  else if Config.bBase ≤ off ∧ off < Config.bTop then
    .bfile (Fin.ofNat 16 ((off - Config.bBase) / Config.bigBytes)) ((off - Config.bBase) % Config.bigBytes / 4)
  else if inBuffers off then .buffer off
  else .unmapped

/-- One Boolean as a bit field. -/
def flagBit (x : Bool) : BitVec 1 := BitVec.ofBool x

/-- STATUS as the host reads it (R29). -/
def statusWord (s : State) : Word :=
  0#20 ++ errorNumber s.errcode ++ 0#2 ++ flagBit s.rngovf ++ flagBit s.haz ++ flagBit (rngwait s)
    ++ flagBit (err s) ++ flagBit s.done ++ flagBit (busy s)

/-- FLAGS as the host reads it (R30). -/
def flagsWord (f : Flags) : Word := 0#28 ++ flagBit f.res ++ flagBit f.v ++ flagBit f.c ++ flagBit f.z

/-- IE as the host reads it (R31). -/
def ieWord (s : State) : Word := 0#30 ++ flagBit s.rngie ++ flagBit s.doneie

/-- CFG as the host reads it (R32). -/
def cfgWord (s : State) : Word := 0#30 ++ flagBit s.aschk ++ flagBit s.rngsrc

/-- RNGLEVEL as the host reads it (R38). -/
def rnglevelWord (s : State) : Word := BitVec.ofNat 32 s.fifo.length

/-- A CSR as the host reads it (R23 to R40). CTRL and RNGDATA read 0; so do reserved offsets. -/
def csrRead (off : Nat) (s : State) : Word :=
  match off with
  | 0x000 => Config.idWord
  | 0x004 => Config.capsWord
  | 0x008 => Config.caps2Word
  | 0x010 => s.cmd
  | 0x014 => statusWord s
  | 0x018 => flagsWord s.flags
  | 0x01C => ieWord s
  | 0x020 => cfgWord s
  | 0x024 => s.rounds.setWidth 32
  | 0x028 => s.bitlen.setWidth 32
  | 0x02C => s.msglen.setWidth 32
  | 0x030 => s.nblocks.setWidth 32
  | 0x038 => rnglevelWord s
  | 0x03C => s.rngcount
  | _ => 0#32

/-- A write the busy lock covers (R69): while BUSY = 1 it is ignored and sets HAZ. -/
def lockedWrite (write : State → State) (s : State) : State :=
  if busy s then { s with haz := true } else write s

/-- A write of CMD (R28, R201, R202): acceptance when idle, lost with HAZ while busy. -/
def writeCmd (v : Word) (s : State) : State := if busy s then { s with haz := true } else accept v s

/-- A write of CTRL (R27): bit 0 is the soft reset. -/
def writeCtrl (v : Word) (s : State) : State := if v.getLsbD 0 then softReset s else s

/-- A write of IE (R31). -/
def writeIe (v : Word) (s : State) : State := { s with doneie := v.getLsbD 0, rngie := v.getLsbD 1 }

/-- A write of CFG (R32). -/
def writeCfg (v : Word) (s : State) : State := { s with rngsrc := v.getLsbD 0, aschk := v.getLsbD 1 }

/-- A CSR written by the host (R23 to R40). Read-only and reserved offsets ignore the write (R40, R68). -/
def csrWrite (off : Nat) (v : Word) (s : State) : State :=
  match off with
  | 0x00C => writeCtrl v s
  | 0x010 => writeCmd v s
  | 0x014 => acknowledge v s
  | 0x01C => writeIe v s
  | 0x020 => lockedWrite (writeCfg v) s
  | 0x024 => lockedWrite (fun s => { s with rounds := v.setWidth 16 }) s
  | 0x028 => lockedWrite (fun s => { s with bitlen := v.setWidth 16 }) s
  | 0x02C => lockedWrite (fun s => { s with msglen := v.setWidth 16 }) s
  | 0x030 => lockedWrite (fun s => { s with nblocks := v.setWidth 16 }) s
  | 0x034 => pushEntropy (v.setWidth 8) s
  | _ => s

/-- The buffer word at a window offset, little-endian (R62, R63). -/
def bufferWord (m : Memory) (off : Nat) : Word :=
  readByte m (off + 3) ++ readByte m (off + 2) ++ readByte m (off + 1) ++ readByte m off

/-- The host receives a word (R64). -/
def replyData (v : Word) (s : State) : State := { s with bus := ⟨v, false⟩ }

/-- The host receives a bus error; a refused read returns 0 alongside it (R67). -/
def replyError (s : State) : State := { s with bus := ⟨0#32, true⟩ }

/-- A read of a location the busy lock hides (R69): a free value while BUSY = 1. -/
def hiddenRead (v : Word) (s : State) : State :=
  if busy s then replyData (Config.unspecWord s.free) { s with free := s.free + 1 } else replyData v s

/-- A read of the window at an admitted offset, or the bus error of an unmapped one (R66, R68, R69). -/
def hostRead (off : Nat) (s : State) : State :=
  match place off with
  | .csr o => replyData (csrRead o s) s
  | .bfile k i => hiddenRead (bigWord s.b[k] i) s
  | .buffer o => hiddenRead (bufferWord s.mem o) s
  | .unmapped => replyError s

/-- The host's write is accepted: no data, no error. -/
def replyDone (s : State) : State := replyData 0#32 s

/-- A write of word `i` of a big register (R62). -/
def writeBWord (k : BReg) (i : Nat) (v : Word) (s : State) : State :=
  { s with b := s.b.set k (setBigWord s.b[k] i v) }

/-- A write of the buffer word at a window offset (R62). -/
def writeBufferWord (off : Nat) (v : Word) (s : State) : State :=
  { s with mem := writeBytes s.mem off (wordToBytes v) }

/-- A write of the window at an admitted offset, or the bus error of an unmapped one (R66, R68, R69). -/
def hostWrite (off : Nat) (v : Word) (s : State) : State :=
  match place off with
  | .csr o => replyDone (csrWrite o v s)
  | .bfile k i => replyDone (lockedWrite (writeBWord k i v) s)
  | .buffer o => replyDone (lockedWrite (writeBufferWord o v) s)
  | .unmapped => replyError s

/-- An access the window admits by its width and alignment (R64, R65). -/
def admitted (w : Width) (off : Nat) : Bool := decide (w = .w32) && decide (off % 4 = 0)

/-- One host access (R64 to R69). -/
def hostAccess : Access → State → State
  | .read w off, s => if admitted w off then hostRead off s else replyError s
  | .write w off v, s => if admitted w off then hostWrite off v s else replyError s

/-! ### Host program lines (spec/30_encoding.md R103) as sequences of accesses

WAIT and BR repeat or choose by what the host has read: control flow of the host's, not of RSAE (R21). -/

/-- `W32 off, v` (R103). -/
def w32 (off : Nat) (v : Word) : Access := .write .w32 off v

/-- `R32 off` (R103). -/
def r32 (off : Nat) : Access := .read .w32 off

/-- A command line: issue the word of a command (R103). -/
def issue (i : Instr) : Access := w32 0x010 (encode i)

/-- `LDBIG bk, v` (R103). -/
def ldbig (k : BReg) (v : Big) : List Access :=
  (List.range 128).map fun i => w32 (Config.bBase + Config.bigBytes * k.val + 4 * i) (bigWord v i)

/-- The offsets of the words of Bk, word 0 first (R62). -/
def rdbigOffsets (k : BReg) : List Nat :=
  (List.range 128).map fun i => Config.bBase + Config.bigBytes * k.val + 4 * i

/-- The 128 reads of `RDBIG bk` (R103). -/
def rdbig (k : BReg) : List Access := (rdbigOffsets k).map r32

/-- Bytes as whole little-endian words, unused lanes 0 (R63, R103). -/
def messageWords : List Byte → List Word
  | [] => []
  | b0 :: [] => [0#8 ++ 0#8 ++ 0#8 ++ b0]
  | b0 :: b1 :: [] => [0#8 ++ 0#8 ++ b1 ++ b0]
  | b0 :: b1 :: b2 :: [] => [0#8 ++ b2 ++ b1 ++ b0]
  | b0 :: b1 :: b2 :: b3 :: rest => (b3 ++ b2 ++ b1 ++ b0) :: messageWords rest

/-- Words at rising offsets. -/
def storeWords : Nat → List Word → List Access
  | _, [] => []
  | off, v :: rest => w32 off v :: storeWords (off + 4) rest

/-- `LDMSG "bytes"` (R103). -/
def ldmsg (bytes : List Byte) : List Access :=
  storeWords Config.msgBase (messageWords bytes) ++ [w32 0x02C (BitVec.ofNat 32 bytes.length)]

/-- `FEED b0, b1, ...` (R103). -/
def feed (bytes : List Byte) : List Access := bytes.map fun b => w32 0x034 (b.setWidth 32)

end Sys2Proof.Machine
end

