-- ==== Sys2Proof/Machine/Turn.lean ====
section
/-! DEFINITION. Who moves next, and how: the engine fetches the accepted word from CMD, decodes it and executes it
(spec/30_encoding.md R96, spec/60_exceptions.md R201), or goes on with a command in progress; the host, the
entropy source and the platform move when an input says so (spec/00_scope.md R8). -/

namespace Sys2Proof.Machine

/-- The engine decodes the accepted word and executes it; a word that is no command is ILLEGAL (R96, R97). -/
def executeWord (w : Word) (s : State) : Host.Outcome State Fault Refusal :=
  match decode w with
  | .ok i => exec i s
  | .error _ => .next (raise .illegal s)

/-- A turn of the engine (R44). In IDLE it does nothing until the host writes CMD (R234); in WAIT it is held (R150). -/
def engineTurn (s : State) : Host.Outcome State Fault Refusal :=
  match s.phase with
  | .idle => .next s
  | .wait _ => .next s
  | .run .fetch => executeWord s.cmd s
  | .run (.primeq _) => .next (runMoves (s.pace + 1) s)
  | .run (.genprime _ _) => .next (runMoves (s.pace + 1) s)
  | .run (.keygenP _ _ _ _) => .next (runMoves (s.pace + 1) s)
  | .run (.keygenQ _ _ _ _ _) => .next (runMoves (s.pace + 1) s)

/-- One input takes effect (R8, R73, R212: the inputs fix the order). -/
def takeEvent (e : Event) (s : State) : Host.Outcome State Fault Refusal :=
  match e with
  | .host a => .next (hostAccess a s)
  | .source asked a => .next (sourceAnswer asked a s)
  | .engine pace => engineTurn { s with pace := pace }
  | .powerOn => .next (powerOnReset s)

/-- The next move: the earliest input, or a turn of the engine when there is none. -/
def nextMove (s : State) : Host.Outcome State Fault Refusal :=
  match s.inputs with
  | [] => engineTurn s
  | e :: rest => takeEvent e { s with inputs := rest }

/-- The host's write of `w` to CMD has been accepted and the engine has the next turn. -/
def placeCommand (w : Word) (s : State) : State :=
  { accept w s with inputs := .engine s.pace :: s.inputs }

end Sys2Proof.Machine
end

