-- ==== Sys2Proof/Machine/Step.lean ====
section
/-! DEFINITION. One step of RSAE, and how a command comes to be the one the next step runs. -/

namespace Sys2Proof.Machine

/-- One step: the earliest input takes effect, or the engine takes a turn. -/
def step (s : State) : Host.Outcome State Fault Refusal := nextMove s

/-- `s` with an instruction of `nbits` bits where the engine fetches its next one: accepted in CMD (R201), with the
engine to move. The bits above `nbits` are 0. Assumption 6. -/
def State.withFetchWord (s : State) (nbits w : Nat) : State :=
  placeCommand (BitVec.ofNat 32 (w % 2 ^ nbits)) s

end Sys2Proof.Machine
end

