-- ==== Sys2Proof/Safety.lean ====
section
/-! DEFINITION. The terms the claims are stated in: what a command leaves alone (frames), what a completion shows, the
invariant of the machine, and the entropy-drawing procedures of spec/42_prime.md written as the nested loops of their
pseudocode over the answers that are ready, against which the engine's held-and-resumed form is claimed to agree. -/

namespace Sys2Proof.Safety

open Sys2Proof.Machine

/-! ### Command words by their bits -/

/-- The opcodes of R95. -/
def assignedOpcodes : List Nat :=
  [0x00, 0x01, 0x02, 0x03, 0x04, 0x05, 0x06, 0x07, 0x08, 0x10, 0x11, 0x12, 0x13, 0x14, 0x20, 0x21, 0x22, 0x23, 0x30,
   0x31]

/-- The three checks of R96 on the number a word stands for: the opcode, bits 31:24 outside format I, and the
destination fields of KEYGEN. -/
abbrev illegalWord (w : Nat) : Prop :=
  w % 256 ∉ assignedOpcodes ∨ (w % 256 ≠ 0x05 ∧ w % 256 ≠ 0x06 ∧ w / 2 ^ 24 ≠ 0) ∨
  (w % 256 = 0x23 ∧ (w / 2 ^ 8 % 16 = w / 2 ^ 12 % 16 ∨ w / 2 ^ 8 % 16 = w / 2 ^ 20 % 16
    ∨ w / 2 ^ 12 % 16 = w / 2 ^ 20 % 16))

/-- The bits of a command word that are decoded (R92, R95): OPC, bits 31:24, and the register fields the command names. -/
def decodedBits : Instr → Word
  | .nop => 0xFF0000FF#32
  | .mov _ _ => 0xFF00FFFF#32
  | .add _ _ _ => 0xFF0FFFFF#32
  | .sub _ _ _ => 0xFF0FFFFF#32
  | .mul _ _ _ => 0xFF0FFFFF#32
  | .addi _ _ _ => 0xFF00FFFF#32
  | .subi _ _ _ => 0xFF00FFFF#32
  | .cmp _ _ => 0xFF0FF0FF#32
  | .gcd _ _ _ => 0xFF0FFFFF#32
  | .modred _ _ _ => 0xFFF0FFFF#32
  | .modmul _ _ _ _ => 0xFFFFFFFF#32
  | .modexp _ _ _ _ => 0xFFFFFFFF#32
  | .montmul _ _ _ _ => 0xFFFFFFFF#32
  | .modinv _ _ _ => 0xFFF0FFFF#32
  | .primeq _ => 0xFF00F0FF#32
  | .genprime _ => 0xFF000FFF#32
  | .coprime _ _ => 0xFF00FFFF#32
  | .keygen _ _ _ => 0xFFF0FFFF#32
  | .enc _ _ => 0xFFF0F0FF#32
  | .dec _ _ => 0xFFF0F0FF#32

/-- A command of format R or N with opcode `opc`: bits 31:24 of its word are 0 (R92, R95). -/
def EncodedPlain (opc : BitVec 8) (i : Instr) : Prop := opcField (encode i) = opc ∧ immField (encode i) = 0#8

/-- A command of format I with opcode `opc` and immediate `imm` in bits 31:24 (R92, R93, R95). -/
def EncodedImmediate (opc : BitVec 8) (imm : Byte) (i : Instr) : Prop :=
  opcField (encode i) = opc ∧ immField (encode i) = imm

/-- Big-register number `r` in the field that starts at bit `n` (R91). -/
def fieldAt (r : BReg) (n : Nat) : Word := BitVec.ofNat 32 r.val <<< n

/-- An immediate in bits 31:24 (R91, R93). -/
def immediateAt (imm : Byte) : Word := imm.setWidth 32 <<< 24

/-- The word R101 writes for each row of its table. -/
def rowWord : Instr → Word
  | .nop => 0x00000000#32
  | .mov d a => 0x01#32 ||| fieldAt d 8 ||| fieldAt a 12
  | .add d a b => 0x02#32 ||| fieldAt d 8 ||| fieldAt a 12 ||| fieldAt b 16
  | .sub d a b => 0x03#32 ||| fieldAt d 8 ||| fieldAt a 12 ||| fieldAt b 16
  | .mul d a b => 0x04#32 ||| fieldAt d 8 ||| fieldAt a 12 ||| fieldAt b 16
  | .addi d a imm => 0x05#32 ||| fieldAt d 8 ||| fieldAt a 12 ||| immediateAt imm
  | .subi d a imm => 0x06#32 ||| fieldAt d 8 ||| fieldAt a 12 ||| immediateAt imm
  | .cmp a b => 0x07#32 ||| fieldAt a 12 ||| fieldAt b 16
  | .gcd d a b => 0x08#32 ||| fieldAt d 8 ||| fieldAt a 12 ||| fieldAt b 16
  | .modred d a n => 0x10#32 ||| fieldAt d 8 ||| fieldAt a 12 ||| fieldAt n 20
  | .modmul d a b n => 0x11#32 ||| fieldAt d 8 ||| fieldAt a 12 ||| fieldAt b 16 ||| fieldAt n 20
  | .modexp d a b n => 0x12#32 ||| fieldAt d 8 ||| fieldAt a 12 ||| fieldAt b 16 ||| fieldAt n 20
  | .montmul d a b n => 0x13#32 ||| fieldAt d 8 ||| fieldAt a 12 ||| fieldAt b 16 ||| fieldAt n 20
  | .modinv d a n => 0x14#32 ||| fieldAt d 8 ||| fieldAt a 12 ||| fieldAt n 20
  | .primeq a => 0x20#32 ||| fieldAt a 12
  | .genprime d => 0x21#32 ||| fieldAt d 8
  | .coprime d a => 0x22#32 ||| fieldAt d 8 ||| fieldAt a 12
  | .keygen e d n => 0x23#32 ||| fieldAt e 8 ||| fieldAt d 12 ||| fieldAt n 20
  | .enc e n => 0x30#32 ||| fieldAt e 12 ||| fieldAt n 20
  | .dec d n => 0x31#32 ||| fieldAt d 12 ||| fieldAt n 20

/-- The commands that write FLAGS (R48). -/
def writesFlags : Instr → Bool
  | .add _ _ _ | .addi _ _ _ | .sub _ _ _ | .subi _ _ _ | .mul _ _ _ | .cmp _ _ | .primeq _ => true
  | .nop | .mov _ _ | .gcd _ _ _ | .modred _ _ _ | .modmul _ _ _ _ | .modexp _ _ _ _ | .montmul _ _ _ _
  | .modinv _ _ _ | .genprime _ | .coprime _ _ | .keygen _ _ _ | .enc _ _ | .dec _ _ => false

/-! ### Frames -/

/-- What no command writes between acceptance and completion: CMD, HAZ, RNGOVF, IE, CFG, ROUNDS, BITLEN (R201, R205,
R206), the host's last response, the number of resets and the inputs. -/
structure KeepsControl (s t : State) : Prop where
  cmd : t.cmd = s.cmd
  haz : t.haz = s.haz
  rngovf : t.rngovf = s.rngovf
  doneie : t.doneie = s.doneie
  rngie : t.rngie = s.rngie
  rngsrc : t.rngsrc = s.rngsrc
  aschk : t.aschk = s.aschk
  rounds : t.rounds = s.rounds
  bitlen : t.bitlen = s.bitlen
  pace : t.pace = s.pace
  bus : t.bus = s.bus
  resets : t.resets = s.resets
  inputs : t.inputs = s.inputs

/-- No entropy is drawn: the host FIFO, the external source and RNGCOUNT are as before. -/
structure KeepsEntropy (s t : State) : Prop where
  fifo : t.fifo = s.fifo
  source : t.source = s.source
  rngcount : t.rngcount = s.rngcount

/-- MSGLEN, NBLOCKS and every byte of the buffers are as before. -/
structure KeepsBuffers (s t : State) : Prop where
  msglen : t.msglen = s.msglen
  nblocks : t.nblocks = s.nblocks
  bytes : ∀ a, readByte t.mem a = readByte s.mem a

/-- Every big register not listed is as before. -/
def KeepsRegistersBut (written : List BReg) (s t : State) : Prop := ∀ r, r ∉ written → t.b[r] = s.b[r]

/-- A completion with code `c` (R205, R206): the code in ERRCODE, DONE = 1, BUSY = 0, RNGWAIT = 0, phase IDLE. -/
structure Completed (c : ErrorCode) (t : State) : Prop where
  errcode : t.errcode = c
  done : t.done = true
  idle : t.phase = .idle
  busy : busy t = false
  rngwait : rngwait t = false

/-- A command that writes B[rd] and the flags, completes normally and leaves everything else as it was. -/
structure WritesRegister (rd : BReg) (v : Nat) (f : Flags) (s t : State) : Prop where
  completed : Completed .ok t
  value : readB rd t = v
  registers : KeepsRegistersBut [rd] s t
  flags : t.flags = f
  control : KeepsControl s t
  entropy : KeepsEntropy s t
  buffers : KeepsBuffers s t

/-- A command that writes no register, completes with code `c`, leaves FLAGS at `f` and everything else as it was. -/
structure WritesNothing (c : ErrorCode) (f : Flags) (s t : State) : Prop where
  completed : Completed c t
  registers : t.b = s.b
  flags : t.flags = f
  control : KeepsControl s t
  entropy : KeepsEntropy s t
  buffers : KeepsBuffers s t

/-- A draw is held (R44, R150): WAIT with the working value `w`, and nothing drawn, counted, written or completed. -/
structure Held (w : Work) (s t : State) : Prop where
  waits : t.phase = .wait w
  busy : busy t = true
  rngwait : rngwait t = true
  done : t.done = s.done
  errcode : t.errcode = s.errcode
  registers : t.b = s.b
  flags : t.flags = s.flags
  fifo : t.fifo = s.fifo
  rngcount : t.rngcount = s.rngcount
  control : KeepsControl s t
  buffers : KeepsBuffers s t

/-! ### The moves of a command -/

/-- A move of a command in progress: a turn of the engine, or an answer of the external source. -/
def LaterMove (s t : State) : Prop := engineTurn s = .next t ∨ ∃ asked a, t = sourceAnswer asked a s

/-- A move of a command: its execution from the accepted word, or a later move. -/
def CommandMove (s t : State) : Prop := (∃ i, exec i s = .next t) ∨ LaterMove s t

/-- The big registers the command in progress is still to write. -/
def destinations : Work → List BReg
  | .fetch => []
  | .primeq _ => []
  | .genprime rd _ => [rd]
  | .keygenP rd ra rn _ => [rd, ra, rn]
  | .keygenQ rd ra rn _ _ => [rd, ra, rn]

/-- What ends the hold of a command in WAIT (R150, R159, R232): a reset, an answer of the external source to
the request made since the last reset when that source is selected, a byte pushed into the host FIFO when that one is. -/
def endsTheHold (s : State) : Event → Prop
  | .powerOn => True
  | .source asked _ => s.rngsrc = false ∧ asked = s.resets
  | .engine _ => False
  | .host (.read _ _) => False
  | .host (.write w off v) => w = .w32 ∧
      ((off = 0x00C ∧ v.getLsbD 0 = true) ∨ (off = 0x034 ∧ s.rngsrc = true ∧ s.fifo.length < 64))

/-- The source as it is when the first request it would have met later is answered at once with `a` (R150). -/
def answeredWith (a : Answer) : List (Option Answer) → List (Option Answer)
  | [] => [some a]
  | none :: rest => some a :: rest
  | some x :: rest => some x :: answeredWith a rest

/-! ### Resets and the window -/

/-- The values of R47 as the host reads them, for every piece of state but the buffers. -/
structure ResetValues (t : State) : Prop where
  registers : ∀ r, readB r t = 0
  cmd : t.cmd = 0#32
  status : statusWord t = 0#32
  flags : flagsWord t.flags = 0#32
  ie : ieWord t = 0#32
  cfg : cfgWord t = 0x00000002#32
  rounds : t.rounds = 128#16
  bitlen : t.bitlen = 2048#16
  msglen : t.msglen = 0#16
  nblocks : t.nblocks = 0#16
  fifo : t.fifo = []
  rngcount : t.rngcount = 0#32
  idle : t.phase = .idle
  irq : irq t = false

/-- The window offset of word `i` of big register Bk (R62). -/
def bWordOffset (k : BReg) (i : Nat) : Nat := 0x1000 + 0x200 * k.val + 4 * i

/-- The window offset of word `i` of BLKBUF slot `j` (R62). -/
def slotWordOffset (j i : Nat) : Nat := 0x10000 + 0x200 * j + 4 * i

/-- The window offset of the MSGBUF word of bytes 4j to 4j+3 (R62). -/
def msgWordOffset (j : Nat) : Nat := 0x4000 + 4 * j

/-- An offset of the window map (R61). -/
abbrev mapped (off : Nat) : Prop :=
  off < 0x100 ∨ (0x1000 ≤ off ∧ off < 0x3000) ∨ (0x4000 ≤ off ∧ off < 0x6000) ∨ (0x10000 ≤ off ∧ off < 0x20000)

/-- A word-aligned offset of the B-file, MSGBUF or BLKBUF, whose reads are hidden while BUSY = 1 (R69). -/
abbrev hiddenOffset (off : Nat) : Prop :=
  off % 4 = 0 ∧
  ((0x1000 ≤ off ∧ off < 0x3000) ∨ (0x4000 ≤ off ∧ off < 0x6000) ∨ (0x10000 ≤ off ∧ off < 0x20000))

/-- The busy-locked locations of R69. -/
abbrev lockedOffset (off : Nat) : Prop :=
  hiddenOffset off ∨ off = 0x020 ∨ off = 0x024 ∨ off = 0x028 ∨ off = 0x02C ∨ off = 0x030

/-! ### The invariant -/

/-- The command in CMD is the one the working value belongs to. -/
def commandOf (w : Word) : Work → Prop
  | .fetch => True
  | .primeq _ => ∃ ra, decode w = .ok (.primeq ra)
  | .genprime rd _ => decode w = .ok (.genprime rd)
  | .keygenP rd ra rn _ => decode w = .ok (.keygen rd ra rn)
  | .keygenQ rd ra rn _ _ => decode w = .ok (.keygen rd ra rn)

/-- What holds in every state a step can leave when it holds in the state before. -/
structure Inv (s : State) : Prop where
  /-- The host FIFO holds 0 to 64 bytes (R43). -/
  fifoFits : s.fifo.length ≤ Config.rngDepth
  /-- The buffers keep their canonical form. -/
  memoryWf : s.mem.wf
  /-- DONE is 0 while a command runs, so DONE and RNGWAIT are never 1 together (R212). -/
  doneIdle : s.done = true → s.phase = .idle
  /-- ERRCODE is 0 while a command runs (R201, R208). -/
  errorIdle : s.errcode ≠ .ok → s.phase = .idle
  /-- The engine waits only inside a byte request (R44). -/
  waitAsks : ∀ w, s.phase = .wait w → workWants (primeBytes s) w = true
  /-- In host-FIFO mode the engine waits only while the FIFO is empty (R150). -/
  waitEmpty : ∀ w, s.phase = .wait w → s.rngsrc = true → s.fifo = []
  /-- A running or held command is the one whose word CMD holds (R28, R202). -/
  runsCommand : ∀ w, s.phase = .run w ∨ s.phase = .wait w → commandOf s.cmd w
  /-- The free values the buffers stand for have been drawn before. -/
  generations : s.mem.msgGen < s.free ∧ s.mem.blkGen < s.free

/-! ### The procedures of spec/42_prime.md over the answers that are ready -/

/-- The outcome of a procedure on the answers that are ready: a result and the answers left, a failed draw and the
answers left, or too few answers. -/
inductive Run (α : Type) where
  | done (a : α) (rest : List Answer)
  | failed (rest : List Answer)
  | starved
  deriving DecidableEq, Repr

/-- What follows a procedure that has come to a result. -/
def Run.bind {α β : Type} (r : Run α) (k : α → List Answer → Run β) : Run β :=
  match r with
  | .done a rest => k a rest
  | .failed rest => .failed rest
  | .starved => .starved

/-- nextBytes(k) (R12, R150). -/
def nextBytes : Nat → List Answer → Run (List Byte)
  | 0, l => .done [] l
  | _ + 1, [] => .starved
  | _ + 1, .failure :: l => .failed l
  | k + 1, .byte b :: l => (nextBytes k l).bind fun bs rest => .done (b :: bs) rest

/-- drawWitness(n) (R151), with `fuel` at least the number of draws. -/
def drawWitness (n : Nat) : Nat → List Answer → Run Nat
  | 0, _ => .starved
  | fuel + 1, l => (nextBytes (byteLength n) l).bind fun bs rest =>
      if 2 ≤ beInt bs ∧ beInt bs ≤ n - 2 then .done (beInt bs) rest else drawWitness n fuel rest

/-- The rounds of isPrime for odd n ≥ 5 (R152). -/
def primeRounds (n : Nat) : Nat → List Answer → Run Bool
  | 0, l => .done true l
  | rounds + 1, l => (drawWitness n (l.length + 1) l).bind fun a rest =>
      if roundPasses n a then primeRounds n rounds rest else .done false rest

/-- isPrime(n, rounds) (R152). -/
def isPrime (n rounds : Nat) (l : List Answer) : Run Bool :=
  if n = 2 ∨ n = 3 then .done true l
  else if n ≤ 1 ∨ n % 2 = 0 then .done false l
  else primeRounds n rounds l

/-- "while not isPrime(c, ROUNDS): c <- c + 2" (R153), with `fuel` at least the number of tests. -/
def searchPrime (rounds : Nat) : Nat → Nat → List Answer → Run Nat
  | 0, _, _ => .starved
  | fuel + 1, c, l => (isPrime c rounds l).bind fun yes rest =>
      if yes then .done c rest else searchPrime rounds fuel (c + 2) rest

/-- generatePrime (R153) for candidates of k bytes, with `fuel` at least the number of candidates drawn. -/
def generatePrime (k rounds : Nat) : Nat → List Answer → Run Nat
  | 0, _ => .starved
  | fuel + 1, l => (nextBytes k l).bind fun bs l1 =>
      (searchPrime rounds (l1.length + 3) (candidate bs) l1).bind fun c l2 =>
        (isPrime c rounds l2).bind fun yes l3 => if yes then .done c l3 else generatePrime k rounds fuel l3

/-- generatePrime(BITLEN) with the CSRs of `s` (R33, R34, R153). -/
def generatePrimeOf (s : State) (l : List Answer) : Run Nat :=
  generatePrime (primeBytes s) (roundsOf s) (l.length + 1) l

/-- The answers of the external source that are given at once. -/
def atOnce : List (Option Answer) → List Answer
  | [] => []
  | none :: _ => []
  | some a :: rest => a :: atOnce rest

/-- The answers ready at the selected source (R32, R150). -/
def available (s : State) : List Answer := if s.rngsrc then s.fifo.map .byte else atOnce s.source

/-- The state after `answers` answers have been taken from the selected source and `bytes` bytes counted (R39). -/
def afterDraws (answers bytes : Nat) (s : State) : State :=
  { s with fifo := if s.rngsrc then s.fifo.drop answers else s.fifo
           source := if s.rngsrc then s.source else s.source.drop answers
           rngcount := s.rngcount + BitVec.ofNat 32 bytes }

/-- The state after the answers of `available s` down to `rest` have all been bytes (R39, R150). -/
def afterBytes (s : State) (rest : List Answer) : State :=
  afterDraws ((available s).length - rest.length) ((available s).length - rest.length) s

/-- The state after the answers of `available s` down to `rest`, the last of which was a failure (R39, R150). -/
def afterFailure (s : State) (rest : List Answer) : State :=
  afterDraws ((available s).length - rest.length) ((available s).length - rest.length - 1) s

/-- A turn long enough for a command that draws from the answers ready: assumption 4. -/
abbrev longTurn (s : State) : Prop := 6 * (available s).length + 8 ≤ s.pace

end Sys2Proof.Safety
end

