-- ==== Sys2Proof/Certificates/Slice0/Obligations.lean ====
section
/-! DEFINITION. The statements about RSAE for the provers. A free value (Config.unspecByte, unspecWord, unspecBig)
stands in a statement as itself: the statement holds whatever that value is. The data 0 of the response to a host write is
the model's choice (assumption 7), and so are the schedule of the inputs and the length of an engine turn (assumption 4). -/

open Sys2Proof Sys2Proof.Machine Sys2Proof.Safety

/-! ### Encoding (spec/30_encoding.md) -/

/-- R91, R95, R101: decoding the word of any well-formed command gives the command back, with every register and
immediate it names. -/
def Obligations.DecodeInvertsEncode : Prop :=
  ∀ i : Instr, i.wellFormed = true → decode (encode i) = .ok i

/-- R92, R97: a word that decodes to `i` is `i`'s word but for the fields `i` ignores, and any value in those gives the
same command; what decodes is well-formed (R98). -/
def Obligations.IgnoredFieldsGiveTheSameCommand : Prop :=
  ∀ (w : Word) (i : Instr), decode w = .ok i →
    i.wellFormed = true ∧ encode i = w &&& decodedBits i ∧
    ∀ w' : Word, w' &&& decodedBits i = w &&& decodedBits i → decode w' = .ok i

/-- R96, R98: every word is either one of the 20 commands, which the engine executes with the fields of the word, or
ILLEGAL, and then the command completes with code 1 and changes nothing else. -/
def Obligations.EveryWordIsACommandOrIllegal : Prop :=
  ∀ (w : Word) (s : State),
    (illegalWord w.toNat → executeWord w s = .next { s with errcode := .illegal, done := true, phase := .idle }) ∧
    (¬ illegalWord w.toNat → ∃ i, decode w = .ok i ∧ encode i = w &&& decodedBits i ∧ executeWord w s = exec i s)

/-- R91, R95, R101: the word of each of the 20 commands is the one its row of R101 writes, with its opcode and each register
and immediate at its place; and the words the spec writes out for its programs (spec/95 P1 to P5) decode to their
commands. -/
def Obligations.CommandWordsFollowTheirRows : Prop :=
  (∀ i : Instr, encode i = rowWord i) ∧
  decode 0x00210312#32 = .ok (.modexp 3 0 1 2) ∧ decode 0x04000005#32 = .ok (.addi 0 0 4#8) ∧
  decode 0x00065007#32 = .ok (.cmp 5 6) ∧ decode 0x00203123#32 = .ok (.keygen 1 3 2) ∧
  decode 0x00201030#32 = .ok (.enc 1 2) ∧ decode 0x00831A13#32 = .ok (.montmul 10 1 3 8)

/-! ### Steps (spec/60_exceptions.md R200 to R202) -/

/-- R96, R201: when the word in CMD has been accepted and the engine has the turn, by an input or because there is no
input (the schedule is the model's choice, assumption 4), the step is the decoded command's meaning; the turn's input is
taken off and its pace noted. R8, R73: a host access that is the next input takes effect in the step, whole and alone, in
whatever phase; only it is taken off the inputs. -/
def Obligations.StepRunsTheAcceptedCommandOrTakesTheHostAccess : Prop :=
  ∀ s : State,
    (∀ i : Instr, s.phase = .run .fetch → decode s.cmd = .ok i →
      (s.inputs = [] → step s = exec i s) ∧
      ∀ pace rest, s.inputs = .engine pace :: rest → step s = exec i { s with inputs := rest, pace := pace }) ∧
    ∀ (a : Access) (rest : List Event), s.inputs = .host a :: rest →
      step s = .next (hostAccess a { s with inputs := rest })

/-- R96, R201: a placed word (placing is the model's own, assumption 6) that decodes is accepted and run by the very next
step; one that does not decode completes with ILLEGAL in that step. -/
def Obligations.StepRunsThePlacedWord : Prop :=
  ∀ (s : State) (nbits w : Nat),
    (∀ i, decodeTableWord nbits w = some i →
      step (s.withFetchWord nbits w) = exec i (accept (BitVec.ofNat 32 (w % 2 ^ nbits)) s)) ∧
    (decodeTableWord nbits w = none →
      step (s.withFetchWord nbits w) = .next (complete .illegal (accept (BitVec.ofNat 32 (w % 2 ^ nbits)) s)))

/-- R200: the engine never stops. Every step of every state answers a next state, and so does every command. -/
def Obligations.TheMachineNeverStops : Prop :=
  (∀ s : State, ∃ t, step s = .next t) ∧ ∀ (i : Instr) (s : State), ∃ t, exec i s = .next t

/-- R242: how the engine's moves are cut into turns does not matter, in any phase. A turn of a moves after the first and then
a turn of b lead where one turn of a + b + 1 leads, the turn that executes the accepted word included: so a PRIMEQ, GENPRIME
or KEYGEN begun in a short turn and gone on with in later ones comes to what it comes to in one long turn (turns and their
pace are the model's own, assumption 4). -/
def Obligations.TurnsMayBeCutAnywhere : Prop :=
  ∀ (s : State) (a b : Nat) (rest : List Event), s.inputs = .engine a :: .engine b :: rest →
    ∃ t u, step s = .next t ∧ step t = .next u ∧
      step { s with inputs := .engine (a + b + 1) :: rest } = .next { u with pace := a + b + 1 }

/-- R159, R44: a held command stays held while nothing answers it. With no input, no number of steps changes the state.
An input that is no reset, no answer of the selected external source to its request and no byte pushed into the selected host FIFO (a
read, a write of CMD or STATUS, an engine turn, a byte for the source that is not selected) leaves the command in WAIT at
the same place, with registers, flags, buffers, CMD, RNGCOUNT and ERRCODE as they were; and each input of those three
kinds ends the hold: a push at the write itself (assumption 10). That an answer of the external source is ignored while the
host FIFO is selected, or from before the last reset, is assumption 5, and the order of the inputs assumption 4. -/
def Obligations.AnUnansweredCommandNeverCompletes : Prop :=
  ∀ (s : State) (w : Work), s.phase = .wait w →
    (s.inputs = [] → ∀ n, Host.Core.run Sys2Proof.core n s = .next s) ∧
    (∀ e rest, s.inputs = e :: rest → ¬ endsTheHold s e →
      ∃ t, step s = .next t ∧ t.phase = .wait w ∧ t.inputs = rest ∧ t.b = s.b ∧ t.flags = s.flags ∧ t.cmd = s.cmd ∧
        t.rngcount = s.rngcount ∧ t.errcode = s.errcode ∧ KeepsBuffers s t) ∧
    (∀ e rest, s.inputs = e :: rest → endsTheHold s e → ∃ t, step s = .next t ∧ rngwait t = false)

/-- R201, R202, R28: acceptance. An idle CMD write records the word, clears DONE, ERRCODE and RNGCOUNT, starts the engine,
and changes nothing else; while BUSY = 1 a CMD write is ignored but for HAZ. The data 0 of the response is the model's
choice (assumption 7). -/
def Obligations.CmdWriteIsAcceptedOrLost : Prop :=
  ∀ (s : State) (w : Word),
    (busy s = false →
      ∃ t, hostAccess (w32 0x010 w) s = t ∧ busy t = true ∧ t.phase = .run .fetch ∧
        t = { s with cmd := w, done := false, errcode := .ok, rngcount := 0#32, phase := .run .fetch,
                     bus := ⟨0#32, false⟩ }) ∧
    (busy s = true → hostAccess (w32 0x010 w) s = { s with haz := true, bus := ⟨0#32, false⟩ })

/-! ### Big-integer substrate (spec/40_bigint.md) -/

/-- R111: NOP completes and changes nothing else. -/
def Obligations.NopOnlyCompletes : Prop :=
  ∀ s : State, EncodedPlain 0x00#8 .nop ∧ ∃ t, exec .nop s = .next t ∧ WritesNothing .ok s.flags s t

/-- R112: MOV copies a big register. -/
def Obligations.MovCopiesARegister : Prop :=
  ∀ (rd ra : BReg) (s : State), EncodedPlain 0x01#8 (.mov rd ra) ∧
    ∃ t, exec (.mov rd ra) s = .next t ∧ WritesRegister rd (readB ra s) s.flags s t

/-- R113, R48: ADD wraps at 2^BIGW, with Z of the result, C the carry and V = 0. -/
def Obligations.AddWrapsAndCarries : Prop :=
  ∀ (rd ra rb : BReg) (s : State), EncodedPlain 0x02#8 (.add rd ra rb) ∧
    ∃ t, exec (.add rd ra rb) s = .next t ∧
      WritesRegister rd ((readB ra s + readB rb s) % bigMod)
        ⟨decide (readB rd t = 0), decide (readB ra s + readB rb s ≥ bigMod), false, s.flags.res⟩ s t

/-- R114, R48: SUB wraps at 2^BIGW, with Z of the result, C the borrow and V = 0. -/
def Obligations.SubWrapsAndBorrows : Prop :=
  ∀ (rd ra rb : BReg) (s : State), EncodedPlain 0x03#8 (.sub rd ra rb) ∧
    ∃ t, exec (.sub rd ra rb) s = .next t ∧
      WritesRegister rd (((readB ra s : ℤ) - (readB rb s : ℤ)) % (bigMod : ℤ)).toNat
        ⟨decide (readB rd t = 0), decide (readB ra s < readB rb s), false, s.flags.res⟩ s t

/-- R115, R48: MUL keeps the low BIGW bits, with Z of the result, C = 0 and V the overflow. -/
def Obligations.MulKeepsTheLowHalf : Prop :=
  ∀ (rd ra rb : BReg) (s : State), EncodedPlain 0x04#8 (.mul rd ra rb) ∧
    ∃ t, exec (.mul rd ra rb) s = .next t ∧
      WritesRegister rd (readB ra s * readB rb s % bigMod)
        ⟨decide (readB rd t = 0), false, decide (readB ra s * readB rb s ≥ bigMod), s.flags.res⟩ s t

/-- R116, R93, R48: ADDI adds the zero-extended immediate. -/
def Obligations.AddiAddsTheImmediate : Prop :=
  ∀ (rd ra : BReg) (imm : Byte) (s : State), EncodedImmediate 0x05#8 imm (.addi rd ra imm) ∧
    ∃ t, exec (.addi rd ra imm) s = .next t ∧
      WritesRegister rd ((readB ra s + imm.toNat) % bigMod)
        ⟨decide (readB rd t = 0), decide (readB ra s + imm.toNat ≥ bigMod), false, s.flags.res⟩ s t

/-- R117, R93, R48: SUBI subtracts the zero-extended immediate. -/
def Obligations.SubiSubtractsTheImmediate : Prop :=
  ∀ (rd ra : BReg) (imm : Byte) (s : State), EncodedImmediate 0x06#8 imm (.subi rd ra imm) ∧
    ∃ t, exec (.subi rd ra imm) s = .next t ∧
      WritesRegister rd (((readB ra s : ℤ) - (imm.toNat : ℤ)) % (bigMod : ℤ)).toNat
        ⟨decide (readB rd t = 0), decide (readB ra s < imm.toNat), false, s.flags.res⟩ s t

/-- R118, R48: CMP writes Z and C, clears V, and writes no register. -/
def Obligations.CmpWritesOnlyFlags : Prop :=
  ∀ (ra rb : BReg) (s : State), EncodedPlain 0x07#8 (.cmp ra rb) ∧
    ∃ t, exec (.cmp ra rb) s = .next t ∧
      WritesNothing .ok ⟨decide (readB ra s = readB rb s), decide (readB ra s < readB rb s), false, s.flags.res⟩ s t

/-- R119: GCD. The result divides both operands, and every common divisor divides it (so gcd(0, 0) = 0, R9). -/
def Obligations.GcdIsTheGreatestCommonDivisor : Prop :=
  ∀ (rd ra rb : BReg) (s : State), EncodedPlain 0x08#8 (.gcd rd ra rb) ∧
    ∃ (t : State) (g : Nat), exec (.gcd rd ra rb) s = .next t ∧ WritesRegister rd g s.flags s t ∧
      g ∣ readB ra s ∧ g ∣ readB rb s ∧ ∀ c, c ∣ readB ra s → c ∣ readB rb s → c ∣ g

/-- R102: what each pseudo-instruction expands to and what it does, LDI being its two commands one after the other. -/
def Obligations.PseudoInstructionsHaveTheirEffect : Prop :=
  ∀ (bd ba bn : BReg) (imm : Byte) (s : State),
    (Instr.clr bd = .sub bd bd bd ∧ Instr.inc bd = .addi bd bd 1#8 ∧ Instr.decr bd = .subi bd bd 1#8 ∧
      Instr.ldi bd imm = [Instr.clr bd, .addi bd bd imm] ∧ Instr.sqr bd ba bn = .modmul bd ba ba bn) ∧
    (∃ t, exec (Instr.clr bd) s = .next t ∧ WritesRegister bd 0 ⟨true, false, false, s.flags.res⟩ s t) ∧
    (∃ t, exec (Instr.inc bd) s = .next t ∧ readB bd t = (readB bd s + 1) % bigMod ∧ KeepsRegistersBut [bd] s t) ∧
    (∃ t, exec (Instr.decr bd) s = .next t ∧ readB bd t = (((readB bd s : ℤ) - 1) % (bigMod : ℤ)).toNat ∧
      KeepsRegistersBut [bd] s t) ∧
    (∃ t u, exec (Instr.clr bd) s = .next t ∧ exec (.addi bd bd imm) t = .next u ∧ readB bd u = imm.toNat ∧
      KeepsRegistersBut [bd] s u) ∧
    (readB bn s ≠ 0 → ∃ t, exec (Instr.sqr bd ba bn) s = .next t ∧
      WritesRegister bd (readB ba s ^ 2 % readB bn s) s.flags s t)

/-! ### Modular arithmetic (spec/41_modular.md) -/

/-- R130: MODRED gives the exact residue; a modulus of 0 raises MODZERO. -/
def Obligations.ModredGivesTheResidue : Prop :=
  ∀ (rd ra rn : BReg) (s : State), EncodedPlain 0x10#8 (.modred rd ra rn) ∧
    ∃ t, exec (.modred rd ra rn) s = .next t ∧
      (readB rn s = 0 → WritesNothing .modzero s.flags s t) ∧
      (readB rn s ≠ 0 → WritesRegister rd (readB ra s % readB rn s) s.flags s t)

/-- R131: MODMUL gives the residue of the exact product; a modulus of 0 raises MODZERO. -/
def Obligations.ModmulGivesTheResidue : Prop :=
  ∀ (rd ra rb rn : BReg) (s : State), EncodedPlain 0x11#8 (.modmul rd ra rb rn) ∧
    ∃ t, exec (.modmul rd ra rb rn) s = .next t ∧
      (readB rn s = 0 → WritesNothing .modzero s.flags s t) ∧
      (readB rn s ≠ 0 → WritesRegister rd (readB ra s * readB rb s % readB rn s) s.flags s t)

/-- R132: MODEXP gives the residue of the exact power, for every 4096-bit exponent (a^0 = 1, R9); a modulus of 0 raises
MODZERO. -/
def Obligations.ModexpGivesTheResidueOfThePower : Prop :=
  ∀ (rd ra rb rn : BReg) (s : State), EncodedPlain 0x12#8 (.modexp rd ra rb rn) ∧
    ∃ t, exec (.modexp rd ra rb rn) s = .next t ∧
      (readB rn s = 0 → WritesNothing .modzero s.flags s t) ∧
      (readB rn s ≠ 0 → WritesRegister rd (readB ra s ^ readB rb s % readB rn s) s.flags s t)

/-- R133, R204: MONTMUL. A modulus of 0 raises MODZERO, another even one MODEVEN; for an odd one there is exactly one
x in [0, n) with 2^BIGW · x ≡ 1, and the result is a · b · x mod n. -/
def Obligations.MontmulUsesTheInverseOfR : Prop :=
  ∀ (rd ra rb rn : BReg) (s : State), EncodedPlain 0x13#8 (.montmul rd ra rb rn) ∧
    ∃ t, exec (.montmul rd ra rb rn) s = .next t ∧
      (readB rn s = 0 → WritesNothing .modzero s.flags s t) ∧
      (readB rn s ≠ 0 → readB rn s % 2 = 0 → WritesNothing .modeven s.flags s t) ∧
      (readB rn s % 2 = 1 → ∃ x, x < readB rn s ∧ bigMod * x % readB rn s = 1 % readB rn s ∧
        (∀ y, y < readB rn s → bigMod * y % readB rn s = 1 % readB rn s → y = x) ∧
        WritesRegister rd (readB ra s * readB rb s * x % readB rn s) s.flags s t)

/-- R134: MODINV of coprime operands is the one x in [0, m) with a · x ≡ 1; m = 1 gives 0; m = 0 raises MODZERO. For
operands that are not coprime the command completes normally with a free value (assumption 1), and nothing else is
different. -/
def Obligations.ModinvGivesTheInverse : Prop :=
  ∀ (rd ra rn : BReg) (s : State), EncodedPlain 0x14#8 (.modinv rd ra rn) ∧
    ∃ t, exec (.modinv rd ra rn) s = .next t ∧
      (readB rn s = 0 → WritesNothing .modzero s.flags s t) ∧
      (readB rn s = 1 → WritesRegister rd 0 s.flags s t) ∧
      (2 ≤ readB rn s → Nat.gcd (readB ra s % readB rn s) (readB rn s) = 1 →
        ∃ x, x < readB rn s ∧ readB ra s * x % readB rn s = 1 ∧
          (∀ y, y < readB rn s → readB ra s * y % readB rn s = 1 → y = x) ∧ WritesRegister rd x s.flags s t) ∧
      (2 ≤ readB rn s → Nat.gcd (readB ra s % readB rn s) (readB rn s) ≠ 1 →
        WritesRegister rd (Config.unspecBig s.free).toNat s.flags s t)

/-- R127: each of the seven commands with a modulus register raises MODZERO on 0 and writes nothing; modulo 1 the five
modular commands give 0. -/
def Obligations.TheModuliZeroAndOne : Prop :=
  ∀ (rd ra rb rn : BReg) (s : State),
    (readB rn s = 0 →
      ∀ i ∈ [Instr.modred rd ra rn, .modmul rd ra rb rn, .modexp rd ra rb rn, .montmul rd ra rb rn, .modinv rd ra rn,
          .enc ra rn, .dec ra rn],
        ∃ t, exec i s = .next t ∧ WritesNothing .modzero s.flags s t) ∧
    (readB rn s = 1 →
      ∀ i ∈ [Instr.modred rd ra rn, .modmul rd ra rb rn, .modexp rd ra rb rn, .montmul rd ra rb rn, .modinv rd ra rn],
        ∃ t, exec i s = .next t ∧ WritesRegister rd 0 s.flags s t)

/-! ### Primality, primes and keys (spec/42_prime.md) -/

/-- R152: one round of the test, in the terms of the literature: with n - 1 = 2^s · r, the witness passes exactly when
a^r ≡ 1 or some a^(2^j · r) ≡ n - 1 with j < s. The early return at a square of 1 changes no verdict. -/
def Obligations.ARoundIsTheStrongPrimeTest : Prop :=
  ∀ n a r s : Nat, 5 ≤ n → n % 2 = 1 → n - 1 = 2 ^ s * r → r % 2 = 1 →
    (roundPasses n a = true ↔ a ^ r % n = 1 ∨ ∃ j < s, a ^ (2 ^ j * r) % n = n - 1)

/-- spec/93 G1 (the spec marks it as general knowledge): isPrime never answers false for a prime, whatever the entropy. -/
def Obligations.APrimeIsNeverRejected : Prop :=
  ∀ (p rounds : Nat) (l rest : List Answer), p.Prime → isPrime p rounds l ≠ .done false rest

/-- R153 (its derived bound, resting on spec/93 G1 and G2): what generatePrime returns for k ≥ 1 candidate bytes is odd,
at least 3 and below 2^(8k); for k = 0 it is 3. -/
def Obligations.GeneratedValuesFit : Prop :=
  ∀ (k rounds fuel c : Nat) (l rest : List Answer), generatePrime k rounds fuel l = .done c rest →
    c % 2 = 1 ∧ 3 ≤ c ∧ (1 ≤ k → c < 2 ^ (8 * k)) ∧ (k = 0 → c = 3)

/-- R150, R151, R152, R155: with a turn long enough (assumption 4) and enough answers ready at the selected source,
PRIMEQ takes exactly the bytes the pseudocode takes and RES is its result; nothing else changes. -/
def Obligations.PrimeqAnswersIsPrime : Prop :=
  ∀ (ra : BReg) (s : State) (b : Bool) (rest : List Answer), longTurn s →
    isPrime (readB ra s) (roundsOf s) (available s) = .done b rest →
    exec (.primeq ra) s = .next { afterBytes s rest with
      flags := { s.flags with res := b }, errcode := .ok, done := true, phase := .idle }

/-- R152, R155: PRIMEQ of 0, 1, 2, 3 and every even number answers at once, without an answer of the source and in
whatever turn; so does every odd number at least 5 for ROUNDS = 0. -/
def Obligations.PrimeqDecidesSmallAndEvenWithoutEntropy : Prop :=
  ∀ (ra : BReg) (s : State),
    (readB ra s ≤ 3 ∨ readB ra s % 2 = 0 ∨ s.rounds = 0#16) →
    ∃ t, exec (.primeq ra) s = .next t ∧
      WritesNothing .ok ⟨s.flags.z, s.flags.c, s.flags.v,
        decide (readB ra s = 2 ∨ readB ra s = 3 ∨ (5 ≤ readB ra s ∧ readB ra s % 2 = 1))⟩ s t

/-- R153, R156: GENPRIME with k = BITLEN div 8 ≤ 512, a long enough turn (assumption 4) and enough answers takes exactly
the bytes the pseudocode takes and writes its result to B[rd]; nothing else changes. -/
def Obligations.GenprimeWritesTheGeneratedPrime : Prop :=
  ∀ (rd : BReg) (s : State) (c : Nat) (rest : List Answer), longTurn s → s.bitlen.toNat / 8 ≤ 512 →
    generatePrimeOf s (available s) = .done c rest →
    ∃ t, exec (.genprime rd) s = .next t ∧ readB rd t = c ∧ KeepsRegistersBut [rd] s t ∧
      t = { afterBytes s rest with b := t.b, errcode := .ok, done := true, phase := .idle }

/-- R158, R153, R154: KEYGEN with distinct destinations, k = BITLEN div 8 ≤ 256, a long enough turn (assumption 4) and
enough answers generates p and then q, and writes
n = p · q to B[rn], the smallest e ≥ 2 coprime to φ = (p-1)(q-1) to B[rd], and the inverse d of e modulo φ to B[ra];
nothing else changes. -/
def Obligations.KeygenWritesAKeyPair : Prop :=
  ∀ (rd ra rn : BReg) (s : State) (p q : Nat) (l rest : List Answer), longTurn s → distinctDestinations rd ra rn →
    s.bitlen.toNat / 8 ≤ 256 → generatePrimeOf s (available s) = .done p l → generatePrimeOf s l = .done q rest →
    ∃ t, exec (.keygen rd ra rn) s = .next t ∧ readB rn t = p * q ∧
      2 ≤ readB rd t ∧ readB rd t < (p - 1) * (q - 1) ∧ Nat.gcd (readB rd t) ((p - 1) * (q - 1)) = 1 ∧
      (∀ j, 2 ≤ j → j < readB rd t → Nat.gcd j ((p - 1) * (q - 1)) ≠ 1) ∧
      readB ra t < (p - 1) * (q - 1) ∧ readB rd t * readB ra t % ((p - 1) * (q - 1)) = 1 ∧
      KeepsRegistersBut [rd, ra, rn] s t ∧
      t = { afterBytes s rest with b := t.b, errcode := .ok, done := true, phase := .idle }

/-- R156, R158, R96: BITLEN div 8 > 512 (GENPRIME) or > 256 (KEYGEN) raises CAPACITY before any draw, and equal
destinations of KEYGEN are ILLEGAL before that (no word decodes to such a term: that exec of one completes with ILLEGAL is
the model's reading, assumption 14); nothing is written. -/
def Obligations.GenerationCapacityIsCheckedFirst : Prop :=
  ∀ (rd ra rn : BReg) (s : State),
    (512 < s.bitlen.toNat / 8 → ∃ t, exec (.genprime rd) s = .next t ∧ WritesNothing .capacity s.flags s t) ∧
    (¬ distinctDestinations rd ra rn →
      ∃ t, exec (.keygen rd ra rn) s = .next t ∧ WritesNothing .illegal s.flags s t) ∧
    (distinctDestinations rd ra rn → 256 < s.bitlen.toNat / 8 →
      ∃ t, exec (.keygen rd ra rn) s = .next t ∧ WritesNothing .capacity s.flags s t)

/-- R150, R206: with a turn long enough (assumption 4) a failed draw ends PRIMEQ, GENPRIME and KEYGEN (in either prime)
with error RNG; the bytes before it stay consumed and counted, the failed draw is not counted, and nothing is written. -/
def Obligations.AFailedDrawRaisesRng : Prop :=
  ∀ (rd ra rn : BReg) (s : State) (rest : List Answer), longTurn s →
    (isPrime (readB ra s) (roundsOf s) (available s) = .failed rest →
      exec (.primeq ra) s = .next { afterFailure s rest with errcode := .rng, done := true, phase := .idle }) ∧
    (s.bitlen.toNat / 8 ≤ 512 → generatePrimeOf s (available s) = .failed rest →
      exec (.genprime rd) s = .next { afterFailure s rest with errcode := .rng, done := true, phase := .idle }) ∧
    (distinctDestinations rd ra rn → s.bitlen.toNat / 8 ≤ 256 →
      (generatePrimeOf s (available s)).bind (fun _ l => generatePrimeOf s l) = .failed rest →
      exec (.keygen rd ra rn) s = .next { afterFailure s rest with errcode := .rng, done := true, phase := .idle })

/-- R150, R44: a draw that the selected source has no answer for leads to WAIT: RNGWAIT = 1, BUSY = 1, nothing drawn, counted
or written. So does every later draw of a command in progress, in the engine turn that comes to it, and the first draw of
PRIMEQ (in a turn with a move for it), GENPRIME and KEYGEN (turns: assumption 4). -/
def Obligations.ADrawWithNoAnswerWaits : Prop :=
  ∀ s : State, available s = [] →
    (∀ w, s.phase = .run w → workWants (primeBytes s) w = true →
      (s.inputs = [] → ∃ t, step s = .next t ∧ Held w s t) ∧
      ∀ pace rest, s.inputs = .engine pace :: rest →
        ∃ t, step s = .next t ∧ Held w { s with inputs := rest, pace := pace } t) ∧
    (∀ ra, 1 ≤ s.pace → 5 ≤ readB ra s → readB ra s % 2 = 1 → s.rounds ≠ 0#16 →
      ∃ t, exec (.primeq ra) s = .next t ∧ Held (.primeq ⟨readB ra s, s.rounds.toNat, []⟩) s t) ∧
    (∀ rd, 1 ≤ s.bitlen.toNat / 8 → s.bitlen.toNat / 8 ≤ 512 →
      ∃ t, exec (.genprime rd) s = .next t ∧ Held (.genprime rd (.draw [])) s t) ∧
    (∀ rd ra rn, distinctDestinations rd ra rn → 1 ≤ s.bitlen.toNat / 8 → s.bitlen.toNat / 8 ≤ 256 →
      ∃ t, exec (.keygen rd ra rn) s = .next t ∧ Held (.keygenP rd ra rn (.draw [])) s t)

/-- R150, R211, R231: an answer of the external source to the outstanding request clears RNGWAIT; a byte is counted and goes
to the held command where it asked for it, a failure is error RNG; with no request outstanding an answer is ignored, and so
is an answer to a request that a reset has abandoned, even while a later command waits (assumption 5). -/
def Obligations.TheSourceAnswersTheWaitingDraw : Prop :=
  ∀ (s : State) (rest : List Event) (b : Byte) (w : Work),
    (s.inputs = .source s.resets (.byte b) :: rest → s.phase = .wait w → s.rngsrc = false →
      ∃ t, step s = .next t ∧
        t = workFeed b w { s with inputs := rest, phase := .run w, rngcount := s.rngcount + 1#32 } ∧
        rngwait t = false ∧ t.rngcount = s.rngcount + 1#32 ∧ t.inputs = rest) ∧
    (s.inputs = .source s.resets .failure :: rest → s.phase = .wait w → s.rngsrc = false →
      step s = .next { s with inputs := rest, errcode := .rng, done := true, phase := .idle }) ∧
    (∀ asked a, s.inputs = .source asked a :: rest → (rngwait s = false ∨ s.rngsrc = true ∨ asked ≠ s.resets) →
      step s = .next { s with inputs := rest })

/-- R150, R242: waiting changes no result. A command that has gone to WAIT, is then given the byte (a RNGDATA write) or the
answer (byte or failure) it waits for, and then the engine's turn, is where it is when that byte or answer stands ready from
the start and the turn is long enough (turns: assumption 4; how the external source meets a request: assumption 5); only
the inputs, the pace and the host's last response tell the two apart. -/
def Obligations.WaitingChangesNoResult : Prop :=
  ∀ (i : Instr) (s t : State) (w : Work), exec i s = .next t → t.phase = .wait w →
    (s.rngsrc = true → ∀ v : Word, ∃ q, ∀ (n : Nat) (rest : List Event), ∃ x u,
      exec i { s with fifo := s.fifo ++ [v.setWidth 8], pace := q + n } = .next u ∧
      step { t with inputs := .host (w32 0x034 v) :: .engine n :: rest } = .next x ∧
      step x = .next { u with pace := n, bus := ⟨0#32, false⟩, inputs := rest }) ∧
    (s.rngsrc = false → ∀ a : Answer, ∃ q, ∀ (n : Nat) (rest : List Event), ∃ x u,
      exec i { s with source := answeredWith a s.source, pace := q + n } = .next u ∧
      step { t with inputs := .source s.resets a :: .engine n :: rest } = .next x ∧
      step x = .next { u with pace := n, inputs := rest })

/-- R154, R157: COPRIME gives the smallest k with 2 ≤ k < x and gcd(k, x) = 1 for x ≥ 3, and NOCOPRIME for x ≤ 2. -/
def Obligations.CoprimeGivesTheSmallestCoprime : Prop :=
  ∀ (rd ra : BReg) (s : State), EncodedPlain 0x22#8 (.coprime rd ra) ∧
    ∃ t, exec (.coprime rd ra) s = .next t ∧
      (3 ≤ readB ra s → ∃ k, 2 ≤ k ∧ k < readB ra s ∧ Nat.gcd k (readB ra s) = 1 ∧
        (∀ j, 2 ≤ j → j < k → Nat.gcd j (readB ra s) ≠ 1) ∧ WritesRegister rd k s.flags s t) ∧
      (readB ra s ≤ 2 → WritesNothing .nocoprime s.flags s t)

/-! ### The codec (spec/43_codec.md) -/

/-- R180 to R183: ENC writes block i of the space-padded message as (big-endian chunk)^e mod n to slot i and the number of
blocks to NBLOCKS; no other byte of a buffer, no register and no flag changes. -/
def Obligations.EncWritesTheBlocks : Prop :=
  ∀ (ra rn : BReg) (s : State) (n k len nb : Nat), n = readB rn s → k = byteLength n - 1 → len = s.msglen.toNat →
    nb = max 1 ((len + k - 1) / k) → 256 ≤ n → len ≤ 8192 → nb ≤ 128 →
    ∃ t, exec (.enc ra rn) s = .next t ∧ Completed .ok t ∧ t.nblocks.toNat = nb ∧
      (∀ i < nb, blkRead t.mem i =
        beInt ((List.range k).map fun j => if i * k + j < len then msgRead s.mem (i * k + j) else 0x20#8)
          ^ readB ra s % n) ∧
      (∀ a, ¬ (0x10000 ≤ a ∧ a < 0x10000 + 512 * nb) → readByte t.mem a = readByte s.mem a) ∧
      t.b = s.b ∧ t.flags = s.flags ∧ t.msglen = s.msglen ∧ KeepsControl s t ∧ KeepsEntropy s t

/-- R184 to R187: DEC, when every decrypted value fits its slot. Slot i holds the shortest big-endian bytes of the value
and then zeros; MSGLEN is the length up to the last byte that is not a space; DECODE is raised exactly when ASCHK = 1
and a byte below MSGLEN is not ASCII, with the outputs written; no other byte, register or flag changes. -/
def Obligations.DecWritesTheMessage : Prop :=
  ∀ (ra rn : BReg) (s : State) (n k nb : Nat) (m : Nat → Nat), n = readB rn s → k = byteLength n - 1 →
    nb = s.nblocks.toNat → 256 ≤ n → nb ≤ 128 → nb * k ≤ 8192 →
    (∀ i < nb, m i = blkRead s.mem i ^ readB ra s % n ∧ byteLength (m i) ≤ k) →
    ∃ (t : State) (len : Nat), exec (.dec ra rn) s = .next t ∧ t.msglen.toNat = len ∧ len ≤ nb * k ∧
      (∀ i < nb, ∀ j < k, (msgRead t.mem (i * k + j)).toNat =
        if j < byteLength (m i) then m i / 256 ^ (byteLength (m i) - 1 - j) % 256 else 0) ∧
      (∀ j, len ≤ j → j < nb * k → msgRead t.mem j = 0x20#8) ∧
      (len = 0 ∨ msgRead t.mem (len - 1) ≠ 0x20#8) ∧
      ((s.aschk = true ∧ ∃ j < len, 0x80 ≤ (msgRead t.mem j).toNat) → Completed .decode t) ∧
      (¬ (s.aschk = true ∧ ∃ j < len, 0x80 ≤ (msgRead t.mem j).toNat) → Completed .ok t) ∧
      (∀ a, ¬ (0x4000 ≤ a ∧ a < 0x4000 + nb * k) → readByte t.mem a = readByte s.mem a) ∧
      t.b = s.b ∧ t.flags = s.flags ∧ t.nblocks = s.nblocks ∧ KeepsControl s t ∧ KeepsEntropy s t

/-- R180, R182, R184, R204: the checks of ENC and of DEC in their order, each writing nothing. -/
def Obligations.CodecChecksInOrder : Prop :=
  ∀ (ra rn : BReg) (s : State), ∃ t u, exec (.enc ra rn) s = .next t ∧ exec (.dec ra rn) s = .next u ∧
    (readB rn s = 0 → WritesNothing .modzero s.flags s t ∧ WritesNothing .modzero s.flags s u) ∧
    (1 ≤ readB rn s → readB rn s ≤ 255 → WritesNothing .smallmod s.flags s t ∧ WritesNothing .smallmod s.flags s u) ∧
    (256 ≤ readB rn s → (8192 < s.msglen.toNat ∨
        128 < max 1 ((s.msglen.toNat + (byteLength (readB rn s) - 1) - 1) / (byteLength (readB rn s) - 1))) →
      WritesNothing .capacity s.flags s t) ∧
    (256 ≤ readB rn s → (128 < s.nblocks.toNat ∨ 8192 < s.nblocks.toNat * (byteLength (readB rn s) - 1)) →
      WritesNothing .capacity s.flags s u)

/-- R185, R206: DEC of a block that is too wide raises DECWIDE; MSGLEN, registers, flags and every byte outside MSGBUF 0 to
nb·k - 1 stay, and those bytes become free values (assumption 1). -/
def Obligations.DecOfAWideBlockRaisesDecwide : Prop :=
  ∀ (ra rn : BReg) (s : State) (n k nb : Nat), n = readB rn s → k = byteLength n - 1 → nb = s.nblocks.toNat →
    256 ≤ n → nb ≤ 128 → nb * k ≤ 8192 → (∃ i < nb, k < byteLength (blkRead s.mem i ^ readB ra s % n)) →
    ∃ t, exec (.dec ra rn) s = .next t ∧ Completed .decwide t ∧ t.msglen = s.msglen ∧ t.nblocks = s.nblocks ∧
      (∀ a, ¬ (0x4000 ≤ a ∧ a < 0x4000 + nb * k) → readByte t.mem a = readByte s.mem a) ∧
      (∀ j < nb * k, msgRead t.mem j = Config.unspecByte s.free (0x4000 + j)) ∧
      t.b = s.b ∧ t.flags = s.flags ∧ KeepsControl s t ∧ KeepsEntropy s t

/-- R188: the round trip. For n = p · q with p ≠ q prime and e · d ≡ 1 mod (p-1)(q-1), ENC and then DEC give back MSGLEN
and the message, if no chunk starts with 0x00, the message does not end in a space, and DEC's output fits MSGBUF; with
ASCHK = 1 the message must be ASCII. -/
def Obligations.DecInvertsEnc : Prop :=
  ∀ (re rd rn : BReg) (s : State) (p q n k len nb : Nat), p.Prime → q.Prime → p ≠ q → n = p * q → readB rn s = n →
    readB re s * readB rd s % ((p - 1) * (q - 1)) = 1 % ((p - 1) * (q - 1)) → 256 ≤ n → k = byteLength n - 1 →
    len = s.msglen.toNat → len ≤ 8192 → nb = max 1 ((len + k - 1) / k) → nb ≤ 128 → nb * k ≤ 8192 →
    (∀ i, i * k < len → msgRead s.mem (i * k) ≠ 0x00#8) → (len = 0 ∨ msgRead s.mem (len - 1) ≠ 0x20#8) →
    (s.aschk = true → ∀ j < len, (msgRead s.mem j).toNat < 0x80) →
    ∃ t u, exec (.enc re rn) s = .next t ∧ exec (.dec rd rn) t = .next u ∧ Completed .ok u ∧ u.msglen = s.msglen ∧
      ∀ j < len, msgRead u.mem j = msgRead s.mem j

/-! ### Whole-machine rules -/

/-- R201, R205, R206: no move of a command, neither its execution nor a later turn or answer, changes CMD, HAZ, RNGOVF, IE,
CFG, ROUNDS or BITLEN; a later move changes no big register but the command's destinations, no byte of a buffer, and
nothing of the source that is not selected. Every step whose input is not the host's or the platform's is such a move, of
the state with that input taken off (turns: assumption 4). -/
def Obligations.NoCommandWritesTheControlRegisters : Prop :=
  (∀ s t : State, CommandMove s t → KeepsControl s t) ∧
  (∀ (s t : State) (w : Work), (s.phase = .run w ∨ s.phase = .wait w) → w ≠ .fetch → LaterMove s t →
    KeepsRegistersBut (destinations w) s t ∧ KeepsBuffers s t ∧ (s.rngsrc = true → t.source = s.source) ∧
    (s.rngsrc = false → t.fifo = s.fifo)) ∧
  ∀ s t : State, step s = .next t → (∀ a, s.inputs.head? ≠ some (.host a)) → s.inputs.head? ≠ some .powerOn →
    ∃ pace, CommandMove { s with inputs := s.inputs.tail, pace := pace } t

/-- R48: only ADD, ADDI, SUB, SUBI, MUL, CMP and PRIMEQ write FLAGS; only PRIMEQ writes RES, and PRIMEQ no other flag. So do
the later turns and answers of the commands that draw entropy: none writes Z, C or V, and only those of PRIMEQ write RES. -/
def Obligations.OnlyListedCommandsWriteFlags : Prop :=
  (∀ (i : Instr) (s t : State), exec i s = .next t →
    (writesFlags i = false → t.flags = s.flags) ∧
    ((∀ ra, i ≠ .primeq ra) → t.flags.res = s.flags.res) ∧
    (∀ ra, i = .primeq ra → t.flags.z = s.flags.z ∧ t.flags.c = s.flags.c ∧ t.flags.v = s.flags.v)) ∧
  ∀ (s t : State) (w : Work), (s.phase = .run w ∨ s.phase = .wait w) → w ≠ .fetch → LaterMove s t →
    t.flags.z = s.flags.z ∧ t.flags.c = s.flags.c ∧ t.flags.v = s.flags.v ∧
    ((∀ x, w ≠ .primeq x) → t.flags = s.flags)

/-- R74, R205, R30: a move of a command that leaves BUSY = 1, its execution or a later turn or answer, has changed no register,
flag or buffer byte and neither MSGLEN nor NBLOCKS: every result appears at the completion. R206, R207: nor has an error
completion other than DECODE and DECWIDE. -/
def Obligations.NothingIsWrittenBeforeCompletionOrOnError : Prop :=
  (∀ s t : State, CommandMove s t → busy t = true → t.b = s.b ∧ t.flags = s.flags ∧ KeepsBuffers s t) ∧
  ∀ s t : State, ((∃ i, exec i s = .next t) ∨ (busy s = true ∧ LaterMove s t)) → t.phase = .idle →
    t.errcode ≠ .ok → t.errcode ≠ .decode → t.errcode ≠ .decwide →
    t.b = s.b ∧ t.flags = s.flags ∧ t.done = true ∧ KeepsBuffers s t

/-- The invariant of `Safety.Inv` (R43, R44, R150, R201, R202, R212) is kept by every step. -/
def Obligations.EveryStepKeepsTheInvariant : Prop :=
  ∀ s t : State, Inv s → step s = .next t → Inv t

/-- R47: the invariant holds right after reset. That the buffers' generations are below the free-value counter rests on the
model's own reset values 0 and 1 (assumption 3). -/
def Obligations.ResetMeetsTheInvariant : Prop := Inv State.reset

/-! ### The host port (spec/20_memory.md, spec/10_state.md) -/

/-- R62: what the host reads while idle. Word i of a big value is its bits 32i+31:32i; the MSGBUF word of bytes 4j to 4j+3
has byte 4j+t in bits 8t+7:8t. -/
def Obligations.WindowReadsFollowTheFormulas : Prop :=
  ∀ s : State, busy s = false →
    (∀ (k : BReg) (i : Nat), i < 128 →
      hostAccess (r32 (bWordOffset k i)) s =
        { s with bus := ⟨BitVec.ofNat 32 (readB k s / 2 ^ (32 * i)), false⟩ }) ∧
    (∀ j i : Nat, j < 128 → i < 128 →
      hostAccess (r32 (slotWordOffset j i)) s =
        { s with bus := ⟨BitVec.ofNat 32 (blkRead s.mem j / 2 ^ (32 * i)), false⟩ }) ∧
    (∀ j : Nat, j < 2048 →
      hostAccess (r32 (msgWordOffset j)) s =
        { s with bus := ⟨BitVec.ofNat 32 ((msgRead s.mem (4 * j)).toNat + 2 ^ 8 * (msgRead s.mem (4 * j + 1)).toNat
          + 2 ^ 16 * (msgRead s.mem (4 * j + 2)).toNat + 2 ^ 24 * (msgRead s.mem (4 * j + 3)).toNat), false⟩ })

/-- R62, R63, R64: an idle host write of word i of a big register replaces bits 32i+31:32i; one of a buffer word stores its
four bytes, least significant first. Neither changes anything else (the response data 0: assumption 7). -/
def Obligations.HostWritesOneWord : Prop :=
  ∀ (s : State) (v : Word), busy s = false →
    (∀ (k : BReg) (i : Nat), i < 128 →
      ∃ t, hostAccess (w32 (bWordOffset k i) v) s = t ∧
        (∀ j < 4096, (t.b[k]).getLsbD j =
          if 32 * i ≤ j ∧ j < 32 * i + 32 then v.getLsbD (j - 32 * i) else (s.b[k]).getLsbD j) ∧
        KeepsRegistersBut [k] s t ∧ t = { s with b := t.b, bus := ⟨0#32, false⟩ }) ∧
    (∀ off : Nat, off % 4 = 0 → ((0x4000 ≤ off ∧ off < 0x6000) ∨ (0x10000 ≤ off ∧ off < 0x20000)) →
      ∃ t, hostAccess (w32 off v) s = t ∧
        (∀ j < 4, readByte t.mem (off + j) = v.extractLsb' (8 * j) 8) ∧
        (∀ a, ¬ (off ≤ a ∧ a < off + 4) → readByte t.mem a = readByte s.mem a) ∧
        t = { s with mem := t.mem, bus := ⟨0#32, false⟩ })

/-- R65, R66, R67, R219: an access of another width (a burst counting as one access, assumption 21), at an offset that is
not a multiple of 4, or unmapped, changes nothing of RSAE; the host receives a bus error and, for a read, 0. R24 to R26,
R30, R38 to R40, R68: writes of read-only and reserved offsets of the CSR page are ignored without error, and reserved ones
read 0. The data 0 of a write's response is the model's choice (assumption 7). -/
def Obligations.RefusedAndReadOnlyAccessesChangeNothing : Prop :=
  ∀ (s : State) (off : Nat) (v : Word),
    (∀ w : Width, (w ≠ .w32 ∨ off % 4 ≠ 0 ∨ ¬ mapped off) →
      hostAccess (.read w off) s = { s with bus := ⟨0#32, true⟩ } ∧
      hostAccess (.write w off v) s = { s with bus := ⟨0#32, true⟩ }) ∧
    (off < 0x100 → off % 4 = 0 → (off ∈ [0x000, 0x004, 0x008, 0x018, 0x038, 0x03C] ∨ 0x040 ≤ off) →
      hostAccess (w32 off v) s = { s with bus := ⟨0#32, false⟩ }) ∧
    (0x040 ≤ off → off < 0x100 → off % 4 = 0 → hostAccess (r32 off) s = { s with bus := ⟨0#32, false⟩ })

/-- R68: reads have no side effect anywhere: only the host's response and the model's free-value counter change, and a
mapped aligned 32-bit read is never refused (R40, R64). In every phase a read of the CSR page answers the register's value
and changes nothing else (R69): ID, CAPS and CAPS2 their constants (R24 to R26), CTRL and RNGDATA 0 (R27, R37), CMD the last
accepted word (R28), RNGLEVEL the bytes in the host FIFO (R38), RNGCOUNT (R39), IE and CFG by their bits (R31, R32), and
ROUNDS, BITLEN, MSGLEN and NBLOCKS zero-extended (R33 to R36). -/
def Obligations.ReadsAnswerTheValueAndHaveNoSideEffects : Prop :=
  ∀ s : State,
    (∀ (w : Width) (off : Nat), ∃ (r : BusReply) (f : Nat),
      hostAccess (.read w off) s = { s with bus := r, free := f } ∧
      (w = .w32 → off % 4 = 0 → mapped off → r.error = false)) ∧
    (∀ off : Nat, off < 0x100 → off % 4 = 0 → hostAccess (r32 off) s = { s with bus := ⟨csrRead off s, false⟩ }) ∧
    csrRead 0x000 s = 0x52534145#32 ∧ csrRead 0x004 s = 0x20800080#32 ∧ csrRead 0x008 s = 0x00014010#32 ∧
    csrRead 0x00C s = 0#32 ∧ csrRead 0x010 s = s.cmd ∧ csrRead 0x034 s = 0#32 ∧
    csrRead 0x038 s = BitVec.ofNat 32 s.fifo.length ∧ csrRead 0x03C s = s.rngcount ∧
    (csrRead 0x01C s).getLsbD 0 = s.doneie ∧ (csrRead 0x01C s).getLsbD 1 = s.rngie ∧
    (csrRead 0x01C s).extractLsb' 2 30 = 0#30 ∧
    (csrRead 0x020 s).getLsbD 0 = s.rngsrc ∧ (csrRead 0x020 s).getLsbD 1 = s.aschk ∧
    (csrRead 0x020 s).extractLsb' 2 30 = 0#30 ∧
    csrRead 0x024 s = s.rounds.setWidth 32 ∧ csrRead 0x028 s = s.bitlen.setWidth 32 ∧
    csrRead 0x02C s = s.msglen.setWidth 32 ∧ csrRead 0x030 s = s.nblocks.setWidth 32

/-- R69: while BUSY = 1 a write of a busy-locked location is ignored but for HAZ, and a read of the B-file or a buffer
gives a free value (assumption 1); the response data 0 of the write is assumption 7. -/
def Obligations.TheBusyLock : Prop :=
  ∀ (s : State) (off : Nat) (v : Word), busy s = true →
    (lockedOffset off → hostAccess (w32 off v) s = { s with haz := true, bus := ⟨0#32, false⟩ }) ∧
    (hiddenOffset off →
      hostAccess (r32 off) s = { s with bus := ⟨Config.unspecWord s.free, false⟩, free := s.free + 1 })

/-- R31 to R36: the read-write CSRs read back the written value with reserved bits 0: IE at any time, the others while
idle; each write changes only its register (the response data 0: assumption 7). -/
def Obligations.ConfigurationRegistersReadBack : Prop :=
  ∀ (s : State) (v : Word),
    (∃ t, hostAccess (w32 0x01C v) s = t ∧ csrRead 0x01C t = v &&& 3#32 ∧
      t = { s with doneie := t.doneie, rngie := t.rngie, bus := ⟨0#32, false⟩ }) ∧
    (busy s = false →
      (∃ t, hostAccess (w32 0x020 v) s = t ∧ csrRead 0x020 t = v &&& 3#32 ∧
        t = { s with rngsrc := t.rngsrc, aschk := t.aschk, bus := ⟨0#32, false⟩ }) ∧
      (∃ t, hostAccess (w32 0x024 v) s = t ∧ csrRead 0x024 t = v &&& 0xFFFF#32 ∧
        t = { s with rounds := t.rounds, bus := ⟨0#32, false⟩ }) ∧
      (∃ t, hostAccess (w32 0x028 v) s = t ∧ csrRead 0x028 t = v &&& 0xFFFF#32 ∧
        t = { s with bitlen := t.bitlen, bus := ⟨0#32, false⟩ }) ∧
      (∃ t, hostAccess (w32 0x02C v) s = t ∧ csrRead 0x02C t = v &&& 0xFFFF#32 ∧
        t = { s with msglen := t.msglen, bus := ⟨0#32, false⟩ }) ∧
      (∃ t, hostAccess (w32 0x030 v) s = t ∧ csrRead 0x030 t = v &&& 0xFFFF#32 ∧
        t = { s with nblocks := t.nblocks, bus := ⟨0#32, false⟩ }))

/-- R29, R30, R203, R208: the layout of STATUS and of FLAGS as the host reads them in any phase, reserved bits 0, the codes 0
to 9 in ERRCODE with their numbers, ERR equal to ERRCODE ≠ 0; a write of STATUS clears DONE, HAZ and RNGOVF where its bits 1, 4 and 5 are 1, at any time, and changes nothing
else, so ERRCODE stays. The data 0 of a write's response is the model's choice (assumption 7). -/
def Obligations.StatusAndFlagsLayoutsAndStatusClearsOnOnes : Prop :=
  ∀ s : State,
    hostAccess (r32 0x014) s = { s with bus := ⟨statusWord s, false⟩ } ∧ csrRead 0x014 s = statusWord s ∧
    (statusWord s).getLsbD 0 = busy s ∧ (statusWord s).getLsbD 1 = s.done ∧
    (statusWord s).getLsbD 2 = decide (s.errcode ≠ .ok) ∧ (statusWord s).getLsbD 3 = rngwait s ∧
    (statusWord s).getLsbD 4 = s.haz ∧ (statusWord s).getLsbD 5 = s.rngovf ∧
    (statusWord s).extractLsb' 6 2 = 0#2 ∧ (statusWord s).extractLsb' 8 4 = errorNumber s.errcode ∧
    (statusWord s).extractLsb' 12 20 = 0#20 ∧
    (errorNumber .ok = 0#4 ∧ errorNumber .illegal = 1#4 ∧ errorNumber .modzero = 2#4 ∧ errorNumber .modeven = 3#4 ∧
      errorNumber .smallmod = 4#4 ∧ errorNumber .capacity = 5#4 ∧ errorNumber .rng = 6#4 ∧
      errorNumber .nocoprime = 7#4 ∧ errorNumber .decwide = 8#4 ∧ errorNumber .decode = 9#4) ∧
    hostAccess (r32 0x018) s = { s with bus := ⟨csrRead 0x018 s, false⟩ } ∧
    (csrRead 0x018 s).getLsbD 0 = s.flags.z ∧ (csrRead 0x018 s).getLsbD 1 = s.flags.c ∧
    (csrRead 0x018 s).getLsbD 2 = s.flags.v ∧ (csrRead 0x018 s).getLsbD 3 = s.flags.res ∧
    (csrRead 0x018 s).extractLsb' 4 28 = 0#28 ∧
    ∀ v : Word, ∃ t, hostAccess (w32 0x014 v) s = t ∧
      t.done = (if v.getLsbD 1 then false else s.done) ∧ t.haz = (if v.getLsbD 4 then false else s.haz) ∧
      t.rngovf = (if v.getLsbD 5 then false else s.rngovf) ∧
      t = { s with done := t.done, haz := t.haz, rngovf := t.rngovf, bus := ⟨0#32, false⟩ }

/-- R37: a RNGDATA write pushes its low byte at the tail; at 64 bytes the byte is dropped and RNGOVF set. It is accepted at
any time; RNGDATA reads 0. A push answers a draw that waits for the host FIFO: the phase is RUN at once, and the engine's
next turn takes the byte (assumption 10); the response data 0 is assumption 7. -/
def Obligations.RngdataPushesOrOverflows : Prop :=
  ∀ (s : State) (v : Word), csrRead 0x034 s = 0#32 ∧
    (s.fifo.length < 64 → (∀ w, s.phase = .wait w → s.rngsrc = true →
      hostAccess (w32 0x034 v) s = { s with fifo := s.fifo ++ [v.setWidth 8], phase := .run w, bus := ⟨0#32, false⟩ }) ∧
      ((rngwait s = false ∨ s.rngsrc = false) →
        hostAccess (w32 0x034 v) s = { s with fifo := s.fifo ++ [v.setWidth 8], bus := ⟨0#32, false⟩ })) ∧
    (64 ≤ s.fifo.length → hostAccess (w32 0x034 v) s = { s with rngovf := true, bus := ⟨0#32, false⟩ })

/-- R46, R211: irq is 1 exactly when DONE and DONEIE are 1 or RNGWAIT and RNGIE are 1, in the bits the host reads and
writes; enabling a pending source raises it at once. -/
def Obligations.IrqIsTheMaskedLevel : Prop :=
  ∀ s : State,
    (irq s = true ↔ ((statusWord s).getLsbD 1 = true ∧ (csrRead 0x01C s).getLsbD 0 = true) ∨
      ((statusWord s).getLsbD 3 = true ∧ (csrRead 0x01C s).getLsbD 1 = true)) ∧
    (∀ v : Word, irq (hostAccess (w32 0x01C v) s) = ((s.done && v.getLsbD 0) || (rngwait s && v.getLsbD 1)))

/-! ### Reset (spec/70_reset_and_hazards.md) -/

/-- R47, R231, R234: State.reset and the state after a power-on reset have the values of R47, whatever was running. That the
reset is one input (assumption 15) and that the buffers' UNSPEC bytes are those of an empty list of cells (assumption 2) are
the model's choices. An entropy request outstanding is abandoned: a reset raises the number that answers to later requests carry, and no
step lowers it, so that an answer from before the reset stays one (assumption 5). -/
def Obligations.PowerOnGivesTheResetValues : Prop :=
  ResetValues State.reset ∧
  (∀ (s : State) (rest : List Event), s.inputs = .powerOn :: rest →
    ∃ t, step s = .next t ∧ ResetValues t ∧ t.inputs = rest ∧ t.mem.cells = [] ∧ t.resets = s.resets + 1) ∧
  ∀ s t : State, step s = .next t → t.resets = s.resets ∨ (t.resets = s.resets + 1 ∧ ResetValues t)

/-- R27, R232, R233: a CTRL write with bit 0 set gives the values of R47 at once, while BUSY = 1 too; the buffers keep
their contents, but the whole of BLKBUF becomes UNSPEC if an ENC was aborted and the whole of MSGBUF if a DEC was (that it
is the whole is the model's reading, assumption 9). With bit 0 clear it does nothing (the response data 0: assumption 7). -/
def Obligations.SoftResetKeepsTheBuffersWhenItMay : Prop :=
  ∀ (s : State) (v : Word), ∃ t, hostAccess (w32 0x00C v) s = t ∧
    (v.getLsbD 0 = false → t = { s with bus := ⟨0#32, false⟩ }) ∧
    (v.getLsbD 0 = true → ResetValues t ∧ t.resets = s.resets + 1 ∧
      (busy s = false → ∀ a, readByte t.mem a = readByte s.mem a) ∧
      (busy s = true →
        (∀ ra rn, decode s.cmd = .ok (.enc ra rn) →
          (∀ a, a < 0x10000 → readByte t.mem a = readByte s.mem a) ∧
          ∀ a, 0x10000 ≤ a → readByte t.mem a = Config.unspecByte s.free a) ∧
        (∀ ra rn, decode s.cmd = .ok (.dec ra rn) →
          (∀ a, 0x10000 ≤ a → readByte t.mem a = readByte s.mem a) ∧
          ∀ a, a < 0x10000 → readByte t.mem a = Config.unspecByte s.free a) ∧
        ((∀ ra rn, decode s.cmd ≠ .ok (.enc ra rn)) → (∀ ra rn, decode s.cmd ≠ .ok (.dec ra rn)) →
          ∀ a, readByte t.mem a = readByte s.mem a)))
end

