-- ==== Sys2Proof/Laws/Memory.lean ====
section
/-! SUPPORT. What the operations over the buffers do, said once: the byte each offset reads as after a store, and that
every operation keeps the canonical form `Memory.wf`. -/

namespace Sys2Proof.Machine

theorem cellAt_append (l m : List Host.Cell) (a : Nat) :
    cellAt (l ++ m) a = (cellAt l a).or (cellAt m a) := by
  induction l with
  | nil => simp [cellAt]
  | cons c l ih => simp only [List.cons_append, cellAt]; split <;> simp [ih]

theorem cellAt_filter (l : List Host.Cell) (p : Nat → Bool) (a : Nat) :
    cellAt (l.filter fun c => p c.1) a = if p a then cellAt l a else none := by
  induction l with
  | nil => simp [cellAt]
  | cons c l ih =>
    rw [List.filter_cons]
    by_cases hc : c.1 = a
    · subst hc; by_cases hp : p c.1 = true <;> simp_all [cellAt]
    · by_cases hp : p c.1 = true <;> simp [cellAt, hc, hp, ih]

theorem cellAt_cellsFrom (bs : List Byte) (a x : Nat) :
    cellAt (cellsFrom a bs) x = if a ≤ x then bs[x - a]? else none := by
  induction bs generalizing a with
  | nil => simp [cellsFrom, cellAt]
  | cons b bs ih =>
    rw [cellsFrom, cellAt, ih]
    rcases Nat.lt_trichotomy a x with h | h | h
    · rw [if_neg (by omega), if_pos (by omega), if_pos (by omega), show x - a = (x - (a + 1)) + 1 by omega,
        List.getElem?_cons_succ]
    · subst h; simp
    · rw [if_neg (by omega), if_neg (by omega), if_neg (by omega)]

/-- The listed byte at an offset after a store. -/
theorem cellAt_writeBytes (m : Memory) (a x : Nat) (bs : List Byte) :
    cellAt (writeBytes m a bs).cells x = if a ≤ x ∧ x < a + bs.length then bs[x - a]? else cellAt m.cells x := by
  rw [writeBytes, cellAt_append, cellAt_append, cellAt_filter _ (fun y => decide (y < a)),
    cellAt_filter _ (fun y => decide (a + bs.length ≤ y)), cellAt_cellsFrom]
  by_cases h1 : a ≤ x
  · by_cases h2 : x < a + bs.length
    · have h3 : x - a < bs.length := by omega
      simp [h1, h2, Nat.not_lt.mpr h1, Nat.not_le.mpr h2, List.getElem?_eq_getElem h3]
    · have h3 : bs.length ≤ x - a := by omega
      simp [h1, h2, Nat.not_lt.mpr h1, Nat.not_lt.mp h2, List.getElem?_eq_none h3]
  · have h2 : ¬ a + bs.length ≤ x := by omega
    simp [h1, h2, Nat.lt_of_not_le h1]

@[simp] theorem writeBytes_msgGen (m : Memory) (a : Nat) (bs : List Byte) : (writeBytes m a bs).msgGen = m.msgGen := rfl
@[simp] theorem writeBytes_blkGen (m : Memory) (a : Nat) (bs : List Byte) : (writeBytes m a bs).blkGen = m.blkGen := rfl

/-- A store changes the bytes stored to and no other. -/
theorem readByte_writeBytes_out (m : Memory) (a x : Nat) (bs : List Byte) (h : ¬ (a ≤ x ∧ x < a + bs.length)) :
    readByte (writeBytes m a bs) x = readByte m x := by
  rw [readByte, cellAt_writeBytes, if_neg h]; rfl

/-- A stored byte reads back. -/
theorem readByte_writeBytes_in (m : Memory) (a i : Nat) (bs : List Byte) (h : i < bs.length) :
    readByte (writeBytes m a bs) (a + i) = bs[i] := by
  rw [readByte, cellAt_writeBytes, if_pos ⟨Nat.le_add_right a i, by omega⟩, Nat.add_sub_cancel_left,
    List.getElem?_eq_getElem h, Option.getD_some]

@[simp] theorem readBytes_length (m : Memory) (a len : Nat) : (readBytes m a len).length = len := by
  simp [readBytes]

theorem readBytes_getElem (m : Memory) (a len i : Nat) (h : i < (readBytes m a len).length) :
    (readBytes m a len)[i] = readByte m (a + i) := by simp [readBytes]

/-- A stored byte sequence, or any part of it, reads back. -/
theorem readBytes_writeBytes_in (m : Memory) (a i len : Nat) (bs : List Byte) (h : i + len ≤ bs.length) :
    readBytes (writeBytes m a bs) (a + i) len = (bs.drop i).take len := by
  apply List.ext_getElem
  · simp; omega
  · intro n h1 h2
    rw [readBytes_length] at h1
    rw [readBytes_getElem, Nat.add_assoc, readByte_writeBytes_in _ _ _ _ (by omega)]
    simp

theorem readBytes_congr (m m' : Memory) (a len : Nat) (h : ∀ x, a ≤ x → x < a + len → readByte m' x = readByte m x) :
    readBytes m' a len = readBytes m a len := by
  apply List.map_congr_left
  intro i hi
  rw [List.mem_range] at hi
  exact h _ (by omega) (by omega)

theorem readBytes_writeBytes_out (m : Memory) (a b len : Nat) (bs : List Byte)
    (h : b + len ≤ a ∨ a + bs.length ≤ b) : readBytes (writeBytes m a bs) b len = readBytes m b len :=
  readBytes_congr _ _ _ _ fun x h1 h2 => readByte_writeBytes_out _ _ _ _ (by omega)

/-! ### The canonical form -/

theorem mem_cellsFrom (bs : List Byte) (a : Nat) (c : Host.Cell) (h : c ∈ cellsFrom a bs) :
    a ≤ c.1 ∧ c.1 < a + bs.length := by
  induction bs generalizing a with
  | nil => cases h
  | cons b bs ih =>
    rw [cellsFrom, List.mem_cons] at h
    rcases h with h | h
    · subst h; simp
    · have := ih _ h; simp only [List.length_cons]; omega

theorem cellsFrom_rising (bs : List Byte) (a : Nat) : (cellsFrom a bs).Pairwise fun c d => c.1 < d.1 := by
  induction bs generalizing a with
  | nil => exact List.Pairwise.nil
  | cons b bs ih =>
    exact List.pairwise_cons.mpr ⟨fun c hc => (mem_cellsFrom _ _ _ hc).1, ih _⟩

/-- A store inside the buffers keeps the canonical form. -/
theorem writeBytes_wf (m : Memory) (a : Nat) (bs : List Byte) (h : m.wf)
    (hin : ∀ x, a ≤ x → x < a + bs.length → inBuffers x) : (writeBytes m a bs).wf := by
  obtain ⟨hs, hb⟩ := h
  refine ⟨?_, ?_⟩
  · rw [writeBytes, List.pairwise_append, List.pairwise_append]
    refine ⟨⟨hs.filter _, cellsFrom_rising bs a, ?_⟩, hs.filter _, ?_⟩
    · intro c hc d hd
      rw [List.mem_filter, decide_eq_true_eq] at hc
      have := mem_cellsFrom _ _ _ hd; omega
    · intro c hc d hd
      rw [List.mem_filter, decide_eq_true_eq] at hd
      rw [List.mem_append, List.mem_filter, decide_eq_true_eq] at hc
      rcases hc with hc | hc
      · omega
      · have := mem_cellsFrom _ _ _ hc; omega
  · intro c hc
    rw [writeBytes, List.mem_append, List.mem_append, List.mem_filter, List.mem_filter] at hc
    rcases hc with (hc | hc) | hc
    · exact hb c hc.1
    · have := mem_cellsFrom _ _ _ hc; exact hin _ this.1 this.2
    · exact hb c hc.1

theorem forgetMsg_wf (gen : Nat) (m : Memory) (h : m.wf) : (forgetMsg gen m).wf :=
  ⟨h.1.filter _, fun c hc => h.2 c (List.mem_filter.mp hc).1⟩

theorem forgetBlk_wf (gen : Nat) (m : Memory) (h : m.wf) : (forgetBlk gen m).wf :=
  ⟨h.1.filter _, fun c hc => h.2 c (List.mem_filter.mp hc).1⟩

theorem scrambleMsg_wf (gen len : Nat) (m : Memory) (h : m.wf) (hl : len ≤ Config.msgBytes) :
    (scrambleMsg gen len m).wf := by
  apply writeBytes_wf _ _ _ h
  simp only [List.length_map, List.length_range]
  intro x h1 h2
  exact .inl ⟨h1, by simp only [Config.msgBytes, Config.msgBase, Config.msgTop] at *; omega⟩

theorem empty_wf (g k : Nat) : Memory.wf ⟨[], g, k⟩ := ⟨List.Pairwise.nil, by simp⟩

/-! ### Buffers that become UNSPEC -/

theorem readByte_forgetMsg_msg (gen : Nat) (m : Memory) (a : Nat) (h : a < Config.blkBase) :
    readByte (forgetMsg gen m) a = Config.unspecByte gen a := by
  rw [readByte, forgetMsg, cellAt_filter _ (fun y => decide (Config.blkBase ≤ y)), if_neg (by simpa using h)]
  simp [unlistedByte, h]

theorem readByte_forgetMsg_blk (gen : Nat) (m : Memory) (a : Nat) (h : Config.blkBase ≤ a) :
    readByte (forgetMsg gen m) a = readByte m a := by
  rw [readByte, forgetMsg, cellAt_filter _ (fun y => decide (Config.blkBase ≤ y)), if_pos (by simpa using h)]
  simp [readByte, unlistedByte, Nat.not_lt.mpr h]

theorem readByte_forgetBlk_blk (gen : Nat) (m : Memory) (a : Nat) (h : Config.blkBase ≤ a) :
    readByte (forgetBlk gen m) a = Config.unspecByte gen a := by
  rw [readByte, forgetBlk, cellAt_filter _ (fun y => decide (y < Config.blkBase)), if_neg (by simpa using h)]
  simp [unlistedByte, Nat.not_lt.mpr h]

theorem readByte_forgetBlk_msg (gen : Nat) (m : Memory) (a : Nat) (h : a < Config.blkBase) :
    readByte (forgetBlk gen m) a = readByte m a := by
  rw [readByte, forgetBlk, cellAt_filter _ (fun y => decide (y < Config.blkBase)), if_pos (by simpa using h)]
  simp [readByte, unlistedByte, h]

theorem readByte_scrambleMsg_out (gen len : Nat) (m : Memory) (a : Nat)
    (h : ¬ (Config.msgBase ≤ a ∧ a < Config.msgBase + len)) : readByte (scrambleMsg gen len m) a = readByte m a :=
  readByte_writeBytes_out _ _ _ _ (by simpa using h)

end Sys2Proof.Machine
end

