-- ==== Sys2Proof/Laws/State.lean ====
section
/-! SUPPORT. One lemma per field of State for each named update: what the update writes there, or that it keeps the
field. No later proof unfolds a record update. -/

namespace Sys2Proof.Machine

@[simp] theorem finish_eq (s : State) : finish s = complete .ok s := rfl
@[simp] theorem raise_eq (c : ErrorCode) (s : State) : raise c s = complete c s := rfl
@[simp] theorem replyDone_eq (s : State) : replyDone s = replyData 0#32 s := rfl

/-! #### `writeB` -/

@[simp] theorem writeB_b (r : BReg) (v : Nat) (s : State) :
    (writeB r v s).b = s.b.set r (BitVec.ofNat 4096 v) := rfl
@[simp] theorem writeB_cmd (r : BReg) (v : Nat) (s : State) :
    (writeB r v s).cmd = s.cmd := rfl
@[simp] theorem writeB_done (r : BReg) (v : Nat) (s : State) :
    (writeB r v s).done = s.done := rfl
@[simp] theorem writeB_haz (r : BReg) (v : Nat) (s : State) :
    (writeB r v s).haz = s.haz := rfl
@[simp] theorem writeB_rngovf (r : BReg) (v : Nat) (s : State) :
    (writeB r v s).rngovf = s.rngovf := rfl
@[simp] theorem writeB_errcode (r : BReg) (v : Nat) (s : State) :
    (writeB r v s).errcode = s.errcode := rfl
@[simp] theorem writeB_flags (r : BReg) (v : Nat) (s : State) :
    (writeB r v s).flags = s.flags := rfl
@[simp] theorem writeB_doneie (r : BReg) (v : Nat) (s : State) :
    (writeB r v s).doneie = s.doneie := rfl
@[simp] theorem writeB_rngie (r : BReg) (v : Nat) (s : State) :
    (writeB r v s).rngie = s.rngie := rfl
@[simp] theorem writeB_rngsrc (r : BReg) (v : Nat) (s : State) :
    (writeB r v s).rngsrc = s.rngsrc := rfl
@[simp] theorem writeB_aschk (r : BReg) (v : Nat) (s : State) :
    (writeB r v s).aschk = s.aschk := rfl
@[simp] theorem writeB_rounds (r : BReg) (v : Nat) (s : State) :
    (writeB r v s).rounds = s.rounds := rfl
@[simp] theorem writeB_bitlen (r : BReg) (v : Nat) (s : State) :
    (writeB r v s).bitlen = s.bitlen := rfl
@[simp] theorem writeB_msglen (r : BReg) (v : Nat) (s : State) :
    (writeB r v s).msglen = s.msglen := rfl
@[simp] theorem writeB_nblocks (r : BReg) (v : Nat) (s : State) :
    (writeB r v s).nblocks = s.nblocks := rfl
@[simp] theorem writeB_rngcount (r : BReg) (v : Nat) (s : State) :
    (writeB r v s).rngcount = s.rngcount := rfl
@[simp] theorem writeB_fifo (r : BReg) (v : Nat) (s : State) :
    (writeB r v s).fifo = s.fifo := rfl
@[simp] theorem writeB_mem (r : BReg) (v : Nat) (s : State) :
    (writeB r v s).mem = s.mem := rfl
@[simp] theorem writeB_phase (r : BReg) (v : Nat) (s : State) :
    (writeB r v s).phase = s.phase := rfl
@[simp] theorem writeB_free (r : BReg) (v : Nat) (s : State) :
    (writeB r v s).free = s.free := rfl
@[simp] theorem writeB_pace (r : BReg) (v : Nat) (s : State) :
    (writeB r v s).pace = s.pace := rfl
@[simp] theorem writeB_bus (r : BReg) (v : Nat) (s : State) :
    (writeB r v s).bus = s.bus := rfl
@[simp] theorem writeB_source (r : BReg) (v : Nat) (s : State) :
    (writeB r v s).source = s.source := rfl
@[simp] theorem writeB_resets (r : BReg) (v : Nat) (s : State) :
    (writeB r v s).resets = s.resets := rfl
@[simp] theorem writeB_inputs (r : BReg) (v : Nat) (s : State) :
    (writeB r v s).inputs = s.inputs := rfl

/-! #### `writeFlags` -/

@[simp] theorem writeFlags_b (f : Flags) (s : State) :
    (writeFlags f s).b = s.b := rfl
@[simp] theorem writeFlags_cmd (f : Flags) (s : State) :
    (writeFlags f s).cmd = s.cmd := rfl
@[simp] theorem writeFlags_done (f : Flags) (s : State) :
    (writeFlags f s).done = s.done := rfl
@[simp] theorem writeFlags_haz (f : Flags) (s : State) :
    (writeFlags f s).haz = s.haz := rfl
@[simp] theorem writeFlags_rngovf (f : Flags) (s : State) :
    (writeFlags f s).rngovf = s.rngovf := rfl
@[simp] theorem writeFlags_errcode (f : Flags) (s : State) :
    (writeFlags f s).errcode = s.errcode := rfl
@[simp] theorem writeFlags_flags (f : Flags) (s : State) :
    (writeFlags f s).flags = f := rfl
@[simp] theorem writeFlags_doneie (f : Flags) (s : State) :
    (writeFlags f s).doneie = s.doneie := rfl
@[simp] theorem writeFlags_rngie (f : Flags) (s : State) :
    (writeFlags f s).rngie = s.rngie := rfl
@[simp] theorem writeFlags_rngsrc (f : Flags) (s : State) :
    (writeFlags f s).rngsrc = s.rngsrc := rfl
@[simp] theorem writeFlags_aschk (f : Flags) (s : State) :
    (writeFlags f s).aschk = s.aschk := rfl
@[simp] theorem writeFlags_rounds (f : Flags) (s : State) :
    (writeFlags f s).rounds = s.rounds := rfl
@[simp] theorem writeFlags_bitlen (f : Flags) (s : State) :
    (writeFlags f s).bitlen = s.bitlen := rfl
@[simp] theorem writeFlags_msglen (f : Flags) (s : State) :
    (writeFlags f s).msglen = s.msglen := rfl
@[simp] theorem writeFlags_nblocks (f : Flags) (s : State) :
    (writeFlags f s).nblocks = s.nblocks := rfl
@[simp] theorem writeFlags_rngcount (f : Flags) (s : State) :
    (writeFlags f s).rngcount = s.rngcount := rfl
@[simp] theorem writeFlags_fifo (f : Flags) (s : State) :
    (writeFlags f s).fifo = s.fifo := rfl
@[simp] theorem writeFlags_mem (f : Flags) (s : State) :
    (writeFlags f s).mem = s.mem := rfl
@[simp] theorem writeFlags_phase (f : Flags) (s : State) :
    (writeFlags f s).phase = s.phase := rfl
@[simp] theorem writeFlags_free (f : Flags) (s : State) :
    (writeFlags f s).free = s.free := rfl
@[simp] theorem writeFlags_pace (f : Flags) (s : State) :
    (writeFlags f s).pace = s.pace := rfl
@[simp] theorem writeFlags_bus (f : Flags) (s : State) :
    (writeFlags f s).bus = s.bus := rfl
@[simp] theorem writeFlags_source (f : Flags) (s : State) :
    (writeFlags f s).source = s.source := rfl
@[simp] theorem writeFlags_resets (f : Flags) (s : State) :
    (writeFlags f s).resets = s.resets := rfl
@[simp] theorem writeFlags_inputs (f : Flags) (s : State) :
    (writeFlags f s).inputs = s.inputs := rfl

/-! #### `accept` -/

@[simp] theorem accept_b (w : Word) (s : State) :
    (accept w s).b = s.b := rfl
@[simp] theorem accept_cmd (w : Word) (s : State) :
    (accept w s).cmd = w := rfl
@[simp] theorem accept_done (w : Word) (s : State) :
    (accept w s).done = false := rfl
@[simp] theorem accept_haz (w : Word) (s : State) :
    (accept w s).haz = s.haz := rfl
@[simp] theorem accept_rngovf (w : Word) (s : State) :
    (accept w s).rngovf = s.rngovf := rfl
@[simp] theorem accept_errcode (w : Word) (s : State) :
    (accept w s).errcode = .ok := rfl
@[simp] theorem accept_flags (w : Word) (s : State) :
    (accept w s).flags = s.flags := rfl
@[simp] theorem accept_doneie (w : Word) (s : State) :
    (accept w s).doneie = s.doneie := rfl
@[simp] theorem accept_rngie (w : Word) (s : State) :
    (accept w s).rngie = s.rngie := rfl
@[simp] theorem accept_rngsrc (w : Word) (s : State) :
    (accept w s).rngsrc = s.rngsrc := rfl
@[simp] theorem accept_aschk (w : Word) (s : State) :
    (accept w s).aschk = s.aschk := rfl
@[simp] theorem accept_rounds (w : Word) (s : State) :
    (accept w s).rounds = s.rounds := rfl
@[simp] theorem accept_bitlen (w : Word) (s : State) :
    (accept w s).bitlen = s.bitlen := rfl
@[simp] theorem accept_msglen (w : Word) (s : State) :
    (accept w s).msglen = s.msglen := rfl
@[simp] theorem accept_nblocks (w : Word) (s : State) :
    (accept w s).nblocks = s.nblocks := rfl
@[simp] theorem accept_rngcount (w : Word) (s : State) :
    (accept w s).rngcount = 0#32 := rfl
@[simp] theorem accept_fifo (w : Word) (s : State) :
    (accept w s).fifo = s.fifo := rfl
@[simp] theorem accept_mem (w : Word) (s : State) :
    (accept w s).mem = s.mem := rfl
@[simp] theorem accept_phase (w : Word) (s : State) :
    (accept w s).phase = .run .fetch := rfl
@[simp] theorem accept_free (w : Word) (s : State) :
    (accept w s).free = s.free := rfl
@[simp] theorem accept_pace (w : Word) (s : State) :
    (accept w s).pace = s.pace := rfl
@[simp] theorem accept_bus (w : Word) (s : State) :
    (accept w s).bus = s.bus := rfl
@[simp] theorem accept_source (w : Word) (s : State) :
    (accept w s).source = s.source := rfl
@[simp] theorem accept_resets (w : Word) (s : State) :
    (accept w s).resets = s.resets := rfl
@[simp] theorem accept_inputs (w : Word) (s : State) :
    (accept w s).inputs = s.inputs := rfl

/-! #### `complete` -/

@[simp] theorem complete_b (c : ErrorCode) (s : State) :
    (complete c s).b = s.b := rfl
@[simp] theorem complete_cmd (c : ErrorCode) (s : State) :
    (complete c s).cmd = s.cmd := rfl
@[simp] theorem complete_done (c : ErrorCode) (s : State) :
    (complete c s).done = true := rfl
@[simp] theorem complete_haz (c : ErrorCode) (s : State) :
    (complete c s).haz = s.haz := rfl
@[simp] theorem complete_rngovf (c : ErrorCode) (s : State) :
    (complete c s).rngovf = s.rngovf := rfl
@[simp] theorem complete_errcode (c : ErrorCode) (s : State) :
    (complete c s).errcode = c := rfl
@[simp] theorem complete_flags (c : ErrorCode) (s : State) :
    (complete c s).flags = s.flags := rfl
@[simp] theorem complete_doneie (c : ErrorCode) (s : State) :
    (complete c s).doneie = s.doneie := rfl
@[simp] theorem complete_rngie (c : ErrorCode) (s : State) :
    (complete c s).rngie = s.rngie := rfl
@[simp] theorem complete_rngsrc (c : ErrorCode) (s : State) :
    (complete c s).rngsrc = s.rngsrc := rfl
@[simp] theorem complete_aschk (c : ErrorCode) (s : State) :
    (complete c s).aschk = s.aschk := rfl
@[simp] theorem complete_rounds (c : ErrorCode) (s : State) :
    (complete c s).rounds = s.rounds := rfl
@[simp] theorem complete_bitlen (c : ErrorCode) (s : State) :
    (complete c s).bitlen = s.bitlen := rfl
@[simp] theorem complete_msglen (c : ErrorCode) (s : State) :
    (complete c s).msglen = s.msglen := rfl
@[simp] theorem complete_nblocks (c : ErrorCode) (s : State) :
    (complete c s).nblocks = s.nblocks := rfl
@[simp] theorem complete_rngcount (c : ErrorCode) (s : State) :
    (complete c s).rngcount = s.rngcount := rfl
@[simp] theorem complete_fifo (c : ErrorCode) (s : State) :
    (complete c s).fifo = s.fifo := rfl
@[simp] theorem complete_mem (c : ErrorCode) (s : State) :
    (complete c s).mem = s.mem := rfl
@[simp] theorem complete_phase (c : ErrorCode) (s : State) :
    (complete c s).phase = .idle := rfl
@[simp] theorem complete_free (c : ErrorCode) (s : State) :
    (complete c s).free = s.free := rfl
@[simp] theorem complete_pace (c : ErrorCode) (s : State) :
    (complete c s).pace = s.pace := rfl
@[simp] theorem complete_bus (c : ErrorCode) (s : State) :
    (complete c s).bus = s.bus := rfl
@[simp] theorem complete_source (c : ErrorCode) (s : State) :
    (complete c s).source = s.source := rfl
@[simp] theorem complete_resets (c : ErrorCode) (s : State) :
    (complete c s).resets = s.resets := rfl
@[simp] theorem complete_inputs (c : ErrorCode) (s : State) :
    (complete c s).inputs = s.inputs := rfl

/-! #### `acknowledge` -/

@[simp] theorem acknowledge_b (v : Word) (s : State) :
    (acknowledge v s).b = s.b := rfl
@[simp] theorem acknowledge_cmd (v : Word) (s : State) :
    (acknowledge v s).cmd = s.cmd := rfl
@[simp] theorem acknowledge_done (v : Word) (s : State) :
    (acknowledge v s).done = (s.done && !v.getLsbD 1) := rfl
@[simp] theorem acknowledge_haz (v : Word) (s : State) :
    (acknowledge v s).haz = (s.haz && !v.getLsbD 4) := rfl
@[simp] theorem acknowledge_rngovf (v : Word) (s : State) :
    (acknowledge v s).rngovf = (s.rngovf && !v.getLsbD 5) := rfl
@[simp] theorem acknowledge_errcode (v : Word) (s : State) :
    (acknowledge v s).errcode = s.errcode := rfl
@[simp] theorem acknowledge_flags (v : Word) (s : State) :
    (acknowledge v s).flags = s.flags := rfl
@[simp] theorem acknowledge_doneie (v : Word) (s : State) :
    (acknowledge v s).doneie = s.doneie := rfl
@[simp] theorem acknowledge_rngie (v : Word) (s : State) :
    (acknowledge v s).rngie = s.rngie := rfl
@[simp] theorem acknowledge_rngsrc (v : Word) (s : State) :
    (acknowledge v s).rngsrc = s.rngsrc := rfl
@[simp] theorem acknowledge_aschk (v : Word) (s : State) :
    (acknowledge v s).aschk = s.aschk := rfl
@[simp] theorem acknowledge_rounds (v : Word) (s : State) :
    (acknowledge v s).rounds = s.rounds := rfl
@[simp] theorem acknowledge_bitlen (v : Word) (s : State) :
    (acknowledge v s).bitlen = s.bitlen := rfl
@[simp] theorem acknowledge_msglen (v : Word) (s : State) :
    (acknowledge v s).msglen = s.msglen := rfl
@[simp] theorem acknowledge_nblocks (v : Word) (s : State) :
    (acknowledge v s).nblocks = s.nblocks := rfl
@[simp] theorem acknowledge_rngcount (v : Word) (s : State) :
    (acknowledge v s).rngcount = s.rngcount := rfl
@[simp] theorem acknowledge_fifo (v : Word) (s : State) :
    (acknowledge v s).fifo = s.fifo := rfl
@[simp] theorem acknowledge_mem (v : Word) (s : State) :
    (acknowledge v s).mem = s.mem := rfl
@[simp] theorem acknowledge_phase (v : Word) (s : State) :
    (acknowledge v s).phase = s.phase := rfl
@[simp] theorem acknowledge_free (v : Word) (s : State) :
    (acknowledge v s).free = s.free := rfl
@[simp] theorem acknowledge_pace (v : Word) (s : State) :
    (acknowledge v s).pace = s.pace := rfl
@[simp] theorem acknowledge_bus (v : Word) (s : State) :
    (acknowledge v s).bus = s.bus := rfl
@[simp] theorem acknowledge_source (v : Word) (s : State) :
    (acknowledge v s).source = s.source := rfl
@[simp] theorem acknowledge_resets (v : Word) (s : State) :
    (acknowledge v s).resets = s.resets := rfl
@[simp] theorem acknowledge_inputs (v : Word) (s : State) :
    (acknowledge v s).inputs = s.inputs := rfl

/-! #### `countByte` -/

@[simp] theorem countByte_b (s : State) :
    (countByte s).b = s.b := rfl
@[simp] theorem countByte_cmd (s : State) :
    (countByte s).cmd = s.cmd := rfl
@[simp] theorem countByte_done (s : State) :
    (countByte s).done = s.done := rfl
@[simp] theorem countByte_haz (s : State) :
    (countByte s).haz = s.haz := rfl
@[simp] theorem countByte_rngovf (s : State) :
    (countByte s).rngovf = s.rngovf := rfl
@[simp] theorem countByte_errcode (s : State) :
    (countByte s).errcode = s.errcode := rfl
@[simp] theorem countByte_flags (s : State) :
    (countByte s).flags = s.flags := rfl
@[simp] theorem countByte_doneie (s : State) :
    (countByte s).doneie = s.doneie := rfl
@[simp] theorem countByte_rngie (s : State) :
    (countByte s).rngie = s.rngie := rfl
@[simp] theorem countByte_rngsrc (s : State) :
    (countByte s).rngsrc = s.rngsrc := rfl
@[simp] theorem countByte_aschk (s : State) :
    (countByte s).aschk = s.aschk := rfl
@[simp] theorem countByte_rounds (s : State) :
    (countByte s).rounds = s.rounds := rfl
@[simp] theorem countByte_bitlen (s : State) :
    (countByte s).bitlen = s.bitlen := rfl
@[simp] theorem countByte_msglen (s : State) :
    (countByte s).msglen = s.msglen := rfl
@[simp] theorem countByte_nblocks (s : State) :
    (countByte s).nblocks = s.nblocks := rfl
@[simp] theorem countByte_rngcount (s : State) :
    (countByte s).rngcount = s.rngcount + 1#32 := rfl
@[simp] theorem countByte_fifo (s : State) :
    (countByte s).fifo = s.fifo := rfl
@[simp] theorem countByte_mem (s : State) :
    (countByte s).mem = s.mem := rfl
@[simp] theorem countByte_phase (s : State) :
    (countByte s).phase = s.phase := rfl
@[simp] theorem countByte_free (s : State) :
    (countByte s).free = s.free := rfl
@[simp] theorem countByte_pace (s : State) :
    (countByte s).pace = s.pace := rfl
@[simp] theorem countByte_bus (s : State) :
    (countByte s).bus = s.bus := rfl
@[simp] theorem countByte_source (s : State) :
    (countByte s).source = s.source := rfl
@[simp] theorem countByte_resets (s : State) :
    (countByte s).resets = s.resets := rfl
@[simp] theorem countByte_inputs (s : State) :
    (countByte s).inputs = s.inputs := rfl

/-! #### `resetWith` -/

@[simp] theorem resetWith_b (m : Memory) (s : State) :
    (resetWith m s).b = State.reset.b := rfl
@[simp] theorem resetWith_cmd (m : Memory) (s : State) :
    (resetWith m s).cmd = State.reset.cmd := rfl
@[simp] theorem resetWith_done (m : Memory) (s : State) :
    (resetWith m s).done = State.reset.done := rfl
@[simp] theorem resetWith_haz (m : Memory) (s : State) :
    (resetWith m s).haz = State.reset.haz := rfl
@[simp] theorem resetWith_rngovf (m : Memory) (s : State) :
    (resetWith m s).rngovf = State.reset.rngovf := rfl
@[simp] theorem resetWith_errcode (m : Memory) (s : State) :
    (resetWith m s).errcode = State.reset.errcode := rfl
@[simp] theorem resetWith_flags (m : Memory) (s : State) :
    (resetWith m s).flags = State.reset.flags := rfl
@[simp] theorem resetWith_doneie (m : Memory) (s : State) :
    (resetWith m s).doneie = State.reset.doneie := rfl
@[simp] theorem resetWith_rngie (m : Memory) (s : State) :
    (resetWith m s).rngie = State.reset.rngie := rfl
@[simp] theorem resetWith_rngsrc (m : Memory) (s : State) :
    (resetWith m s).rngsrc = State.reset.rngsrc := rfl
@[simp] theorem resetWith_aschk (m : Memory) (s : State) :
    (resetWith m s).aschk = State.reset.aschk := rfl
@[simp] theorem resetWith_rounds (m : Memory) (s : State) :
    (resetWith m s).rounds = State.reset.rounds := rfl
@[simp] theorem resetWith_bitlen (m : Memory) (s : State) :
    (resetWith m s).bitlen = State.reset.bitlen := rfl
@[simp] theorem resetWith_msglen (m : Memory) (s : State) :
    (resetWith m s).msglen = State.reset.msglen := rfl
@[simp] theorem resetWith_nblocks (m : Memory) (s : State) :
    (resetWith m s).nblocks = State.reset.nblocks := rfl
@[simp] theorem resetWith_rngcount (m : Memory) (s : State) :
    (resetWith m s).rngcount = State.reset.rngcount := rfl
@[simp] theorem resetWith_fifo (m : Memory) (s : State) :
    (resetWith m s).fifo = State.reset.fifo := rfl
@[simp] theorem resetWith_mem (m : Memory) (s : State) :
    (resetWith m s).mem = m := rfl
@[simp] theorem resetWith_phase (m : Memory) (s : State) :
    (resetWith m s).phase = State.reset.phase := rfl
@[simp] theorem resetWith_free (m : Memory) (s : State) :
    (resetWith m s).free = s.free + 1 := rfl
@[simp] theorem resetWith_pace (m : Memory) (s : State) :
    (resetWith m s).pace = s.pace := rfl
@[simp] theorem resetWith_bus (m : Memory) (s : State) :
    (resetWith m s).bus = s.bus := rfl
@[simp] theorem resetWith_source (m : Memory) (s : State) :
    (resetWith m s).source = s.source := rfl
@[simp] theorem resetWith_resets (m : Memory) (s : State) :
    (resetWith m s).resets = s.resets + 1 := rfl
@[simp] theorem resetWith_inputs (m : Memory) (s : State) :
    (resetWith m s).inputs = s.inputs := rfl

/-! #### `replyData` -/

@[simp] theorem replyData_b (v : Word) (s : State) :
    (replyData v s).b = s.b := rfl
@[simp] theorem replyData_cmd (v : Word) (s : State) :
    (replyData v s).cmd = s.cmd := rfl
@[simp] theorem replyData_done (v : Word) (s : State) :
    (replyData v s).done = s.done := rfl
@[simp] theorem replyData_haz (v : Word) (s : State) :
    (replyData v s).haz = s.haz := rfl
@[simp] theorem replyData_rngovf (v : Word) (s : State) :
    (replyData v s).rngovf = s.rngovf := rfl
@[simp] theorem replyData_errcode (v : Word) (s : State) :
    (replyData v s).errcode = s.errcode := rfl
@[simp] theorem replyData_flags (v : Word) (s : State) :
    (replyData v s).flags = s.flags := rfl
@[simp] theorem replyData_doneie (v : Word) (s : State) :
    (replyData v s).doneie = s.doneie := rfl
@[simp] theorem replyData_rngie (v : Word) (s : State) :
    (replyData v s).rngie = s.rngie := rfl
@[simp] theorem replyData_rngsrc (v : Word) (s : State) :
    (replyData v s).rngsrc = s.rngsrc := rfl
@[simp] theorem replyData_aschk (v : Word) (s : State) :
    (replyData v s).aschk = s.aschk := rfl
@[simp] theorem replyData_rounds (v : Word) (s : State) :
    (replyData v s).rounds = s.rounds := rfl
@[simp] theorem replyData_bitlen (v : Word) (s : State) :
    (replyData v s).bitlen = s.bitlen := rfl
@[simp] theorem replyData_msglen (v : Word) (s : State) :
    (replyData v s).msglen = s.msglen := rfl
@[simp] theorem replyData_nblocks (v : Word) (s : State) :
    (replyData v s).nblocks = s.nblocks := rfl
@[simp] theorem replyData_rngcount (v : Word) (s : State) :
    (replyData v s).rngcount = s.rngcount := rfl
@[simp] theorem replyData_fifo (v : Word) (s : State) :
    (replyData v s).fifo = s.fifo := rfl
@[simp] theorem replyData_mem (v : Word) (s : State) :
    (replyData v s).mem = s.mem := rfl
@[simp] theorem replyData_phase (v : Word) (s : State) :
    (replyData v s).phase = s.phase := rfl
@[simp] theorem replyData_free (v : Word) (s : State) :
    (replyData v s).free = s.free := rfl
@[simp] theorem replyData_pace (v : Word) (s : State) :
    (replyData v s).pace = s.pace := rfl
@[simp] theorem replyData_bus (v : Word) (s : State) :
    (replyData v s).bus = ⟨v, false⟩ := rfl
@[simp] theorem replyData_source (v : Word) (s : State) :
    (replyData v s).source = s.source := rfl
@[simp] theorem replyData_resets (v : Word) (s : State) :
    (replyData v s).resets = s.resets := rfl
@[simp] theorem replyData_inputs (v : Word) (s : State) :
    (replyData v s).inputs = s.inputs := rfl

/-! #### `replyError` -/

@[simp] theorem replyError_b (s : State) :
    (replyError s).b = s.b := rfl
@[simp] theorem replyError_cmd (s : State) :
    (replyError s).cmd = s.cmd := rfl
@[simp] theorem replyError_done (s : State) :
    (replyError s).done = s.done := rfl
@[simp] theorem replyError_haz (s : State) :
    (replyError s).haz = s.haz := rfl
@[simp] theorem replyError_rngovf (s : State) :
    (replyError s).rngovf = s.rngovf := rfl
@[simp] theorem replyError_errcode (s : State) :
    (replyError s).errcode = s.errcode := rfl
@[simp] theorem replyError_flags (s : State) :
    (replyError s).flags = s.flags := rfl
@[simp] theorem replyError_doneie (s : State) :
    (replyError s).doneie = s.doneie := rfl
@[simp] theorem replyError_rngie (s : State) :
    (replyError s).rngie = s.rngie := rfl
@[simp] theorem replyError_rngsrc (s : State) :
    (replyError s).rngsrc = s.rngsrc := rfl
@[simp] theorem replyError_aschk (s : State) :
    (replyError s).aschk = s.aschk := rfl
@[simp] theorem replyError_rounds (s : State) :
    (replyError s).rounds = s.rounds := rfl
@[simp] theorem replyError_bitlen (s : State) :
    (replyError s).bitlen = s.bitlen := rfl
@[simp] theorem replyError_msglen (s : State) :
    (replyError s).msglen = s.msglen := rfl
@[simp] theorem replyError_nblocks (s : State) :
    (replyError s).nblocks = s.nblocks := rfl
@[simp] theorem replyError_rngcount (s : State) :
    (replyError s).rngcount = s.rngcount := rfl
@[simp] theorem replyError_fifo (s : State) :
    (replyError s).fifo = s.fifo := rfl
@[simp] theorem replyError_mem (s : State) :
    (replyError s).mem = s.mem := rfl
@[simp] theorem replyError_phase (s : State) :
    (replyError s).phase = s.phase := rfl
@[simp] theorem replyError_free (s : State) :
    (replyError s).free = s.free := rfl
@[simp] theorem replyError_pace (s : State) :
    (replyError s).pace = s.pace := rfl
@[simp] theorem replyError_bus (s : State) :
    (replyError s).bus = ⟨0#32, true⟩ := rfl
@[simp] theorem replyError_source (s : State) :
    (replyError s).source = s.source := rfl
@[simp] theorem replyError_resets (s : State) :
    (replyError s).resets = s.resets := rfl
@[simp] theorem replyError_inputs (s : State) :
    (replyError s).inputs = s.inputs := rfl

/-! #### `writeBWord` -/

@[simp] theorem writeBWord_b (k : BReg) (i : Nat) (v : Word) (s : State) :
    (writeBWord k i v s).b = s.b.set k (setBigWord s.b[k] i v) := rfl
@[simp] theorem writeBWord_cmd (k : BReg) (i : Nat) (v : Word) (s : State) :
    (writeBWord k i v s).cmd = s.cmd := rfl
@[simp] theorem writeBWord_done (k : BReg) (i : Nat) (v : Word) (s : State) :
    (writeBWord k i v s).done = s.done := rfl
@[simp] theorem writeBWord_haz (k : BReg) (i : Nat) (v : Word) (s : State) :
    (writeBWord k i v s).haz = s.haz := rfl
@[simp] theorem writeBWord_rngovf (k : BReg) (i : Nat) (v : Word) (s : State) :
    (writeBWord k i v s).rngovf = s.rngovf := rfl
@[simp] theorem writeBWord_errcode (k : BReg) (i : Nat) (v : Word) (s : State) :
    (writeBWord k i v s).errcode = s.errcode := rfl
@[simp] theorem writeBWord_flags (k : BReg) (i : Nat) (v : Word) (s : State) :
    (writeBWord k i v s).flags = s.flags := rfl
@[simp] theorem writeBWord_doneie (k : BReg) (i : Nat) (v : Word) (s : State) :
    (writeBWord k i v s).doneie = s.doneie := rfl
@[simp] theorem writeBWord_rngie (k : BReg) (i : Nat) (v : Word) (s : State) :
    (writeBWord k i v s).rngie = s.rngie := rfl
@[simp] theorem writeBWord_rngsrc (k : BReg) (i : Nat) (v : Word) (s : State) :
    (writeBWord k i v s).rngsrc = s.rngsrc := rfl
@[simp] theorem writeBWord_aschk (k : BReg) (i : Nat) (v : Word) (s : State) :
    (writeBWord k i v s).aschk = s.aschk := rfl
@[simp] theorem writeBWord_rounds (k : BReg) (i : Nat) (v : Word) (s : State) :
    (writeBWord k i v s).rounds = s.rounds := rfl
@[simp] theorem writeBWord_bitlen (k : BReg) (i : Nat) (v : Word) (s : State) :
    (writeBWord k i v s).bitlen = s.bitlen := rfl
@[simp] theorem writeBWord_msglen (k : BReg) (i : Nat) (v : Word) (s : State) :
    (writeBWord k i v s).msglen = s.msglen := rfl
@[simp] theorem writeBWord_nblocks (k : BReg) (i : Nat) (v : Word) (s : State) :
    (writeBWord k i v s).nblocks = s.nblocks := rfl
@[simp] theorem writeBWord_rngcount (k : BReg) (i : Nat) (v : Word) (s : State) :
    (writeBWord k i v s).rngcount = s.rngcount := rfl
@[simp] theorem writeBWord_fifo (k : BReg) (i : Nat) (v : Word) (s : State) :
    (writeBWord k i v s).fifo = s.fifo := rfl
@[simp] theorem writeBWord_mem (k : BReg) (i : Nat) (v : Word) (s : State) :
    (writeBWord k i v s).mem = s.mem := rfl
@[simp] theorem writeBWord_phase (k : BReg) (i : Nat) (v : Word) (s : State) :
    (writeBWord k i v s).phase = s.phase := rfl
@[simp] theorem writeBWord_free (k : BReg) (i : Nat) (v : Word) (s : State) :
    (writeBWord k i v s).free = s.free := rfl
@[simp] theorem writeBWord_pace (k : BReg) (i : Nat) (v : Word) (s : State) :
    (writeBWord k i v s).pace = s.pace := rfl
@[simp] theorem writeBWord_bus (k : BReg) (i : Nat) (v : Word) (s : State) :
    (writeBWord k i v s).bus = s.bus := rfl
@[simp] theorem writeBWord_source (k : BReg) (i : Nat) (v : Word) (s : State) :
    (writeBWord k i v s).source = s.source := rfl
@[simp] theorem writeBWord_resets (k : BReg) (i : Nat) (v : Word) (s : State) :
    (writeBWord k i v s).resets = s.resets := rfl
@[simp] theorem writeBWord_inputs (k : BReg) (i : Nat) (v : Word) (s : State) :
    (writeBWord k i v s).inputs = s.inputs := rfl

/-! #### `writeBufferWord` -/

@[simp] theorem writeBufferWord_b (off : Nat) (v : Word) (s : State) :
    (writeBufferWord off v s).b = s.b := rfl
@[simp] theorem writeBufferWord_cmd (off : Nat) (v : Word) (s : State) :
    (writeBufferWord off v s).cmd = s.cmd := rfl
@[simp] theorem writeBufferWord_done (off : Nat) (v : Word) (s : State) :
    (writeBufferWord off v s).done = s.done := rfl
@[simp] theorem writeBufferWord_haz (off : Nat) (v : Word) (s : State) :
    (writeBufferWord off v s).haz = s.haz := rfl
@[simp] theorem writeBufferWord_rngovf (off : Nat) (v : Word) (s : State) :
    (writeBufferWord off v s).rngovf = s.rngovf := rfl
@[simp] theorem writeBufferWord_errcode (off : Nat) (v : Word) (s : State) :
    (writeBufferWord off v s).errcode = s.errcode := rfl
@[simp] theorem writeBufferWord_flags (off : Nat) (v : Word) (s : State) :
    (writeBufferWord off v s).flags = s.flags := rfl
@[simp] theorem writeBufferWord_doneie (off : Nat) (v : Word) (s : State) :
    (writeBufferWord off v s).doneie = s.doneie := rfl
@[simp] theorem writeBufferWord_rngie (off : Nat) (v : Word) (s : State) :
    (writeBufferWord off v s).rngie = s.rngie := rfl
@[simp] theorem writeBufferWord_rngsrc (off : Nat) (v : Word) (s : State) :
    (writeBufferWord off v s).rngsrc = s.rngsrc := rfl
@[simp] theorem writeBufferWord_aschk (off : Nat) (v : Word) (s : State) :
    (writeBufferWord off v s).aschk = s.aschk := rfl
@[simp] theorem writeBufferWord_rounds (off : Nat) (v : Word) (s : State) :
    (writeBufferWord off v s).rounds = s.rounds := rfl
@[simp] theorem writeBufferWord_bitlen (off : Nat) (v : Word) (s : State) :
    (writeBufferWord off v s).bitlen = s.bitlen := rfl
@[simp] theorem writeBufferWord_msglen (off : Nat) (v : Word) (s : State) :
    (writeBufferWord off v s).msglen = s.msglen := rfl
@[simp] theorem writeBufferWord_nblocks (off : Nat) (v : Word) (s : State) :
    (writeBufferWord off v s).nblocks = s.nblocks := rfl
@[simp] theorem writeBufferWord_rngcount (off : Nat) (v : Word) (s : State) :
    (writeBufferWord off v s).rngcount = s.rngcount := rfl
@[simp] theorem writeBufferWord_fifo (off : Nat) (v : Word) (s : State) :
    (writeBufferWord off v s).fifo = s.fifo := rfl
@[simp] theorem writeBufferWord_mem (off : Nat) (v : Word) (s : State) :
    (writeBufferWord off v s).mem = writeBytes s.mem off (wordToBytes v) := rfl
@[simp] theorem writeBufferWord_phase (off : Nat) (v : Word) (s : State) :
    (writeBufferWord off v s).phase = s.phase := rfl
@[simp] theorem writeBufferWord_free (off : Nat) (v : Word) (s : State) :
    (writeBufferWord off v s).free = s.free := rfl
@[simp] theorem writeBufferWord_pace (off : Nat) (v : Word) (s : State) :
    (writeBufferWord off v s).pace = s.pace := rfl
@[simp] theorem writeBufferWord_bus (off : Nat) (v : Word) (s : State) :
    (writeBufferWord off v s).bus = s.bus := rfl
@[simp] theorem writeBufferWord_source (off : Nat) (v : Word) (s : State) :
    (writeBufferWord off v s).source = s.source := rfl
@[simp] theorem writeBufferWord_resets (off : Nat) (v : Word) (s : State) :
    (writeBufferWord off v s).resets = s.resets := rfl
@[simp] theorem writeBufferWord_inputs (off : Nat) (v : Word) (s : State) :
    (writeBufferWord off v s).inputs = s.inputs := rfl

/-! #### Registers -/

theorem toNat_ofNat_of_pow (w v n : Nat) (h : n = 2 ^ w) : (BitVec.ofNat w v).toNat = v % n := by
  subst h; exact BitVec.toNat_ofNat v w

theorem toNat_lt_of_pow (w n : Nat) (v : BitVec w) (h : n = 2 ^ w) : v.toNat < n := by
  subst h; exact v.isLt

theorem bigMod_eq : bigMod = 2 ^ Config.bigw := by rw [bigMod]

theorem bigMod_pos : 0 < bigMod := by rw [bigMod_eq]; exact Nat.two_pow_pos _

theorem toNat_lt_bigMod (v : Big) : v.toNat < bigMod := toNat_lt_of_pow Config.bigw _ v bigMod_eq

theorem toNat_ofNat_big (v : Nat) : (BitVec.ofNat 4096 v).toNat = v % bigMod :=
  toNat_ofNat_of_pow Config.bigw v _ bigMod_eq

theorem readB_lt (r : BReg) (s : State) : readB r s < bigMod := toNat_lt_bigMod _

theorem writeB_getElem_self (r : BReg) (v : Nat) (s : State) :
    (writeB r v s).b[r] = BitVec.ofNat 4096 v := Vector.getElem_set_self r.isLt

theorem writeB_getElem_ne (r q : BReg) (v : Nat) (s : State) (h : q ≠ r) : (writeB r v s).b[q] = s.b[q] := by
  have h' : r.val ≠ q.val := fun e => h (Fin.ext e.symm)
  exact Vector.getElem_set_ne r.isLt q.isLt h'

@[simp] theorem readB_writeB_self (r : BReg) (v : Nat) (s : State) : readB r (writeB r v s) = v % bigMod :=
  (congrArg BitVec.toNat (writeB_getElem_self r v s)).trans (toNat_ofNat_big v)

theorem readB_writeB_ne (r q : BReg) (v : Nat) (s : State) (h : q ≠ r) : readB q (writeB r v s) = readB q s := by
  rw [readB, writeB_getElem_ne r q v s h, readB]

theorem readB_congr {s t : State} (h : t.b = s.b) (r : BReg) : readB r t = readB r s := by rw [readB, readB, h]

end Sys2Proof.Machine
end

