-- ==== Sys2Proof/Laws/Numbers.lean ====
section
/-! SUPPORT. The evaluating functions of Machine/Numbers.lean compute the mathematics of the rules: modular power,
modular inverse, the coprime scan, the odd part, and the byte sequences of R11 and R62. -/

namespace Sys2Proof.Laws

open Sys2Proof.Machine

/-! ### Modular power (R126, R132) -/

theorem powModFuel_eq (n a fuel e : Nat) (h : e ≤ fuel) : powModFuel n a fuel e = a ^ e % n := by
  induction fuel generalizing e with
  | zero => rw [Nat.le_zero.mp h, powModFuel, Nat.pow_zero]
  | succ fuel ih =>
    rw [powModFuel]
    by_cases he : e = 0
    · rw [if_pos he, he, Nat.pow_zero]
    · rw [if_neg he]
      simp only [ih (e / 2) (by omega)]
      have hsq : a ^ (e / 2) % n * (a ^ (e / 2) % n) % n = a ^ (2 * (e / 2)) % n := by
        rw [← Nat.mul_mod, ← Nat.pow_add, Nat.two_mul]
      split
      · rw [hsq, Nat.mod_mul_mod, ← Nat.pow_succ]; congr 2; omega
      · rw [hsq]; congr 2; omega

/-- `powMod` is the exact residue of the power. -/
theorem powMod_eq (a e n : Nat) : powMod a e n = a ^ e % n := powModFuel_eq n a e e (Nat.le_refl e)

/-! ### Modular inverse (R134) -/

theorem inverseLoop_spec (a m fuel r0 r1 t0 t1 : Nat) (hm : 0 < m) (hf : r1 ≤ fuel) (hg : Nat.gcd r0 r1 = 1)
    (ht : t0 < m) (ht1 : t1 < m) (h0 : a * t0 ≡ r0 [MOD m]) (h1 : a * t1 ≡ r1 [MOD m]) :
    inverseLoop m fuel r0 r1 t0 t1 < m ∧ a * inverseLoop m fuel r0 r1 t0 t1 ≡ 1 [MOD m] := by
  have base : r1 = 0 → t0 < m ∧ a * t0 ≡ 1 [MOD m] := fun hz => by
    subst hz; rw [Nat.gcd_zero_right] at hg; exact ⟨ht, hg ▸ h0⟩
  induction fuel generalizing r0 r1 t0 t1 with
  | zero => rw [inverseLoop]; exact base (Nat.le_zero.mp hf)
  | succ fuel ih =>
    rw [inverseLoop]
    by_cases hz : r1 = 0
    · rw [if_pos hz]; exact base hz
    · rw [if_neg hz]
      have hlt := Nat.mod_lt r0 (Nat.pos_of_ne_zero hz)
      have hg' : Nat.gcd r1 (r0 % r1) = 1 := by rw [Nat.gcd_comm, ← Nat.gcd_rec, Nat.gcd_comm]; exact hg
      apply ih r1 (r0 % r1) t1 _ (by omega) hg' ht1 (Nat.mod_lt _ hm) h1
      · have hq : (r0 / r1 * t1) % m < m := Nat.mod_lt _ hm
        have key : a * (t0 + (m - r0 / r1 * t1 % m)) + r0 / r1 * r1 ≡ r0 % r1 + r0 / r1 * r1 [MOD m] := by
          have e1 : r0 % r1 + r0 / r1 * r1 = r0 := by rw [Nat.mul_comm]; exact Nat.mod_add_div r0 r1
          have e2 : r0 / r1 * r1 ≡ a * (r0 / r1 * t1 % m) [MOD m] := by
            calc r0 / r1 * r1 ≡ r0 / r1 * (a * t1) [MOD m] := (h1.mul_left _).symm
              _ = a * (r0 / r1 * t1) := by ring
              _ ≡ a * (r0 / r1 * t1 % m) [MOD m] := (Nat.mod_modEq _ _).symm.mul_left a
          calc a * (t0 + (m - r0 / r1 * t1 % m)) + r0 / r1 * r1
              ≡ a * (t0 + (m - r0 / r1 * t1 % m)) + a * (r0 / r1 * t1 % m) [MOD m] := e2.add_left _
            _ = a * t0 + a * m := by
              rw [← Nat.mul_add, ← Nat.mul_add]; congr 1; omega
            _ ≡ r0 + 0 [MOD m] := h0.add (Nat.modEq_zero_iff_dvd.mpr ⟨a, Nat.mul_comm _ _⟩)
            _ = r0 % r1 + r0 / r1 * r1 := by rw [e1, Nat.add_zero]
        exact ((Nat.mod_modEq _ _).mul_left a).trans (Nat.ModEq.add_right_cancel' _ key)
      · intro hz'; rw [hz', Nat.gcd_zero_right] at hg'
        exact ⟨ht1, hg' ▸ h1⟩

/-- For coprime operands and m ≥ 2 (or m = 1), `modInverse a m` is the inverse in [0, m). -/
theorem modInverse_spec (a m : Nat) (hm : 0 < m) (hg : Nat.gcd (a % m) m = 1) :
    modInverse a m < m ∧ a * modInverse a m % m = 1 % m := by
  apply inverseLoop_spec a m m m (a % m) 0 (1 % m) hm (Nat.mod_lt _ hm).le (by rw [Nat.gcd_comm]; exact hg)
    hm (Nat.mod_lt _ hm)
  · rw [Nat.mul_zero]; exact (Nat.modEq_zero_iff_dvd.mpr (dvd_refl m)).symm
  · calc a * (1 % m) ≡ a * 1 [MOD m] := (Nat.mod_modEq 1 m).mul_left a
      _ = a := Nat.mul_one a
      _ ≡ a % m [MOD m] := (Nat.mod_modEq a m).symm

/-- An inverse in [0, m) is the only one. -/
theorem inverse_unique (a m x y : Nat) (hx : x < m) (hy : y < m) (h : a * x % m = 1 % m) (h' : a * y % m = 1 % m) :
    x = y := by
  have hxy : a * x ≡ a * y [MOD m] := h.trans h'.symm
  have hg : Nat.gcd m a = 1 := by
    have hc : Nat.Coprime (a * x) m := by
      have h1 : a * x ≡ 1 [MOD m] := h
      rw [Nat.Coprime, h1.gcd_eq, Nat.gcd_one_left]
    rw [Nat.gcd_comm]; exact Nat.Coprime.coprime_mul_right hc
  have := Nat.ModEq.cancel_left_of_coprime hg hxy
  rwa [Nat.ModEq, Nat.mod_eq_of_lt hx, Nat.mod_eq_of_lt hy] at this

/-! ### The coprime scan (R154) -/

theorem coprimeLoop_spec (x fuel k : Nat) (hf : x ≤ fuel + k) :
    (∀ j, coprimeLoop x fuel k = some j → k ≤ j ∧ j < x ∧ Nat.gcd j x = 1 ∧ ∀ i, k ≤ i → i < j → Nat.gcd i x ≠ 1)
    ∧ (coprimeLoop x fuel k = none → ∀ i, k ≤ i → i < x → Nat.gcd i x ≠ 1) := by
  induction fuel generalizing k with
  | zero => refine ⟨fun j h => (by cases h), fun _ i h1 h2 => by omega⟩
  | succ fuel ih =>
    obtain ⟨ih1, ih2⟩ := ih (k + 1) (by omega)
    rw [coprimeLoop]
    by_cases hk : k < x
    · rw [if_pos hk]
      by_cases hg : Nat.gcd k x = 1
      · rw [if_pos hg]
        refine ⟨fun j h => ?_, fun h => (by cases h)⟩
        cases h; exact ⟨Nat.le_refl k, hk, hg, fun i h1 h2 => by omega⟩
      · rw [if_neg hg]
        refine ⟨fun j h => ?_, fun h i h1 h2 => ?_⟩
        · obtain ⟨h1, h2, h3, h4⟩ := ih1 j h
          refine ⟨by omega, h2, h3, fun i hi hj => ?_⟩
          rcases Nat.eq_or_lt_of_le hi with e | l
          · exact e ▸ hg
          · exact h4 i l hj
        · rcases Nat.eq_or_lt_of_le h1 with e | l
          · exact e ▸ hg
          · exact ih2 h i l h2
    · rw [if_neg hk]; exact ⟨fun j h => (by cases h), fun _ i h1 h2 => by omega⟩

/-- What selectCoprime answers: the smallest qualifying value. -/
theorem selectCoprime_some (x k : Nat) (h : selectCoprime x = some k) :
    2 ≤ k ∧ k < x ∧ Nat.gcd k x = 1 ∧ ∀ i, 2 ≤ i → i < k → Nat.gcd i x ≠ 1 :=
  (coprimeLoop_spec x x 2 (by omega)).1 k h

/-- When selectCoprime answers nothing: exactly for x ≤ 2. -/
theorem selectCoprime_none (x : Nat) : selectCoprime x = none ↔ x ≤ 2 := by
  constructor
  · intro h
    by_contra hx
    have hg : Nat.gcd (x - 1) x = 1 := by
      have : Nat.Coprime (x - 1) (x - 1 + 1) := by simp
      rwa [Nat.sub_add_cancel (by omega)] at this
    exact (coprimeLoop_spec x x 2 (by omega)).2 h (x - 1) (by omega) (by omega) hg
  · intro h
    cases hs : selectCoprime x with
    | none => rfl
    | some k => have := selectCoprime_some x k hs; omega

/-! ### The odd part (R152) -/

theorem oddPartLoop_spec (fuel r s : Nat) (hr : 0 < r) (hf : r ≤ fuel) :
    2 ^ s * r = 2 ^ (oddPartLoop fuel r s).2 * (oddPartLoop fuel r s).1 ∧ (oddPartLoop fuel r s).1 % 2 = 1
      ∧ s ≤ (oddPartLoop fuel r s).2 ∧ (r % 2 = 0 → s < (oddPartLoop fuel r s).2) := by
  induction fuel generalizing r s with
  | zero => omega
  | succ fuel ih =>
    rw [oddPartLoop]
    by_cases h : r % 2 = 0
    · rw [if_pos h]
      obtain ⟨h1, h2, h3, -⟩ := ih (r / 2) (s + 1) (by omega) (by omega)
      refine ⟨?_, h2, by omega, fun _ => by omega⟩
      rw [← h1, Nat.pow_succ, Nat.mul_assoc]; congr 1; omega
    · rw [if_neg h]; exact ⟨rfl, by omega, Nat.le_refl s, fun h' => absurd h' h⟩

/-- x = 2^s · r with r odd, and s ≥ 1 for even x. -/
theorem oddPart_spec (x : Nat) (hx : 0 < x) :
    x = 2 ^ (oddPart x).2 * (oddPart x).1 ∧ (oddPart x).1 % 2 = 1 ∧ (x % 2 = 0 → 1 ≤ (oddPart x).2) := by
  obtain ⟨h1, h2, -, h4⟩ := oddPartLoop_spec x x 0 hx (Nat.le_refl x)
  rw [Nat.pow_zero, Nat.one_mul] at h1
  exact ⟨h1, h2, h4⟩

/-! ### Lengths and byte sequences (R10, R11, R62) -/

theorem bitLength_le (x k : Nat) : bitLength x ≤ k ↔ x < 2 ^ k := by
  rw [bitLength]
  split
  · next h => subst h; simp
  · next h => rw [Nat.succ_le_iff, Nat.log2_lt h]

theorem byteLength_le (x k : Nat) : byteLength x ≤ k ↔ x < 256 ^ k := by
  rw [show (256 : Nat) = 2 ^ 8 by norm_num, ← Nat.pow_mul, ← bitLength_le, byteLength]; omega

theorem lt_pow_byteLength (x : Nat) : x < 256 ^ byteLength x := (byteLength_le x _).mp (Nat.le_refl _)

theorem beInt_lt (bs : List Byte) : beInt bs < 256 ^ bs.length := by
  induction bs with
  | nil => simp [beInt]
  | cons b bs ih =>
    rw [beInt, List.length_cons, Nat.pow_succ]
    have := b.isLt
    have h2 : (b.toNat + 1) * 256 ^ bs.length ≤ 256 * 256 ^ bs.length := Nat.mul_le_mul_right _ (by omega)
    rw [Nat.add_mul, Nat.one_mul] at h2; omega

theorem beInt_append (xs ys : List Byte) : beInt (xs ++ ys) = beInt xs * 256 ^ ys.length + beInt ys := by
  induction xs with
  | nil => simp [beInt]
  | cons x xs ih => rw [List.cons_append, beInt, beInt, ih, List.length_append, Nat.pow_add]; ring

@[simp] theorem beBytes_length (x : Nat) : (beBytes x).length = byteLength x := by simp [beBytes]

/-- The first `n` base-256 digits of x, most significant first. -/
theorem beInt_digits (x n : Nat) :
    beInt ((List.range n).map fun j => BitVec.ofNat 8 (x >>> (8 * (n - 1 - j)))) = x % 256 ^ n := by
  induction n generalizing x with
  | zero => simp [beInt, Nat.mod_one]
  | succ n ih =>
    rw [List.range_succ, List.map_append, beInt_append]
    have e : (List.range n).map (fun j => BitVec.ofNat 8 (x >>> (8 * (n + 1 - 1 - j))))
        = (List.range n).map fun j => BitVec.ofNat 8 ((x / 256) >>> (8 * (n - 1 - j))) := by
      apply List.map_congr_left
      intro j hj
      rw [List.mem_range] at hj
      rw [show 8 * (n + 1 - 1 - j) = 8 + 8 * (n - 1 - j) by omega, Nat.shiftRight_add, Nat.shiftRight_eq_div_pow x 8]
    rw [e, ih]
    simp only [List.map_cons, List.map_nil, beInt, List.length_cons, List.length_nil, BitVec.toNat_ofNat]
    rw [show n + 1 - 1 - n = 0 by omega, Nat.mul_zero, Nat.shiftRight_zero, Nat.pow_zero, Nat.pow_one, Nat.mul_one,
      Nat.add_zero, Nat.pow_succ, Nat.mul_comm (256 ^ n) 256, Nat.mod_mul (x := x)]
    ring

/-- beBytes is a right inverse of beInt (R11). -/
theorem beInt_beBytes (x : Nat) : beInt (beBytes x) = x := by
  rw [beBytes, beInt_digits, Nat.mod_eq_of_lt (lt_pow_byteLength x)]

theorem leInt_map_digits (x n : Nat) :
    leInt ((List.range n).map fun t => BitVec.ofNat 8 (x / 256 ^ t)) = x % 256 ^ n := by
  induction n generalizing x with
  | zero => simp [leInt, Nat.mod_one]
  | succ n ih =>
    rw [List.range_succ_eq_map, List.map_cons, leInt, List.map_map]
    have e : ((fun t => BitVec.ofNat 8 (x / 256 ^ t)) ∘ Nat.succ) = fun t => BitVec.ofNat 8 (x / 256 / 256 ^ t) := by
      funext t; simp only [Function.comp, Nat.pow_succ']; rw [Nat.div_div_eq_div_mul]
    rw [e, ih, Nat.pow_succ', Nat.mod_mul (x := x), Nat.pow_zero, Nat.div_one, BitVec.toNat_ofNat]

theorem toNat_lt_pow_bytes (w n : Nat) (v : BitVec w) (h : w = 8 * n) : v.toNat < 256 ^ n := by
  subst h; rw [show (256 : Nat) = 2 ^ 8 by norm_num, ← Nat.pow_mul]; exact v.isLt

/-- A big value is the little-endian integer of its window image (R62). -/
theorem leInt_bigToBytes (v : Big) : leInt (bigToBytes v) = v.toNat := by
  have e : bigToBytes v = (List.range 512).map fun t => BitVec.ofNat 8 (v.toNat / 256 ^ t) := by
    apply List.map_congr_left
    intro t _
    apply BitVec.eq_of_toNat_eq
    rw [BitVec.extractLsb'_toNat, BitVec.toNat_ofNat, Nat.shiftRight_eq_div_pow,
      show (256 : Nat) ^ t = 2 ^ (8 * t) by rw [Nat.pow_mul]]
  rw [e, leInt_map_digits, Nat.mod_eq_of_lt (toNat_lt_pow_bytes _ 512 v rfl)]

@[simp] theorem bigToBytes_length (v : Big) : (bigToBytes v).length = 512 := by simp [bigToBytes]

@[simp] theorem wordToBytes_length (v : Word) : (wordToBytes v).length = 4 := rfl

end Sys2Proof.Laws
end

