-- ==== Sys2Proof/Laws/Codec.lean ====
section
/-! SUPPORT. What the pieces of ENC and DEC are, byte by byte: the padded message and its chunks, the image ENC writes,
the output DEC writes, and the length up to the last byte that is not a space. -/

namespace Sys2Proof.Machine

open Sys2Proof.Laws

/-! ### Sequences built slot by slot -/

theorem flatMap_length_eq (f : Nat → List Byte) (k n : Nat) (h : ∀ i, i < n → (f i).length = k) :
    ((List.range n).flatMap f).length = n * k := by
  induction n with
  | zero => simp
  | succ n ih =>
    rw [List.range_succ, List.flatMap_append, List.length_append, ih fun i hi => h i (by omega)]
    simp [h n (by omega), Nat.succ_mul]

theorem flatMap_slot (f : Nat → List Byte) (k n i : Nat) (h : ∀ j, j < n → (f j).length = k) (hi : i < n) :
    (((List.range n).flatMap f).drop (i * k)).take k = f i := by
  induction n with
  | zero => omega
  | succ n ih =>
    have hl := flatMap_length_eq f k n fun j hj => h j (by omega)
    rw [List.range_succ, List.flatMap_append, List.drop_append, List.take_append]
    by_cases hin : i < n
    · have hk : i * k + k ≤ n * k := by
        have := Nat.mul_le_mul_right k (show i + 1 ≤ n from hin); rw [Nat.succ_mul] at this; exact this
      have h0 : k - (List.drop (i * k) ((List.range n).flatMap f)).length = 0 := by
        rw [List.length_drop, hl]; omega
      rw [ih (fun j hj => h j (by omega)) hin, h0]; simp
    · have hin : i = n := by omega
      subst hin
      rw [List.drop_eq_nil_of_le (by omega), hl, Nat.sub_self]
      simp [List.take_of_length_le, h i (by omega)]

theorem flatMap_getElem (f : Nat → List Byte) (k n i j : Nat) (h : ∀ x, x < n → (f x).length = k) (hi : i < n)
    (hj : j < k) : ((List.range n).flatMap f)[i * k + j]? = (f i)[j]? := by
  rw [← flatMap_slot f k n i h hi, List.getElem?_take_of_lt hj, List.getElem?_drop]

/-! ### ENC -/

theorem paddedMessage_length (m : Memory) (len total : Nat) (h : len ≤ total) :
    (paddedMessage m len total).length = total := by
  simp [paddedMessage]; omega

/-- A byte of the padded message: the message's below its length, a space from there on (R183). -/
theorem paddedMessage_getElem (m : Memory) (len total j : Nat) (h : len ≤ total) (hj : j < total) :
    (paddedMessage m len total)[j]? = some (if j < len then msgRead m j else 0x20#8) := by
  unfold paddedMessage
  by_cases hl : j < len
  · rw [List.getElem?_append_left (by simpa using hl)]; simp [hl]
  · rw [List.getElem?_append_right (by simpa using hl), List.getElem?_replicate, if_neg hl,
      if_pos (by simp only [List.length_map, List.length_range]; omega)]

/-- The chunks of a padded message as R182 indexes them. -/
theorem chunk_eq (m : Memory) (len k nb i : Nat) (h : len ≤ nb * k) (hi : i < nb) :
    ((paddedMessage m len (nb * k)).drop (i * k)).take k =
      (List.range k).map fun j => if i * k + j < len then msgRead m (i * k + j) else 0x20#8 := by
  have hk : i * k + k ≤ nb * k := by
    have := Nat.mul_le_mul_right k (show i + 1 ≤ nb from hi); rw [Nat.succ_mul] at this; exact this
  apply List.ext_getElem?
  intro j
  by_cases hj : j < k
  · rw [List.getElem?_take_of_lt hj, List.getElem?_drop, paddedMessage_getElem _ _ _ _ h (by omega)]
    simp [hj]
  · rw [List.getElem?_eq_none (by simp [paddedMessage_length _ _ _ h]; omega),
      List.getElem?_eq_none (by simp; omega)]

theorem le_blockCount (len k : Nat) (hk : 1 ≤ k) : len ≤ blockCount len k * k := by
  have h := Nat.lt_div_mul_add (a := len + k - 1) (b := k) hk
  have h2 : (len + k - 1) / k * k ≤ blockCount len k * k := Nat.mul_le_mul_right k (Nat.le_max_right _ _)
  omega

theorem bigToBytes_length (v : Big) : (bigToBytes v).length = Config.bigBytes := by
  rw [bigToBytes, List.length_map, List.length_range]

theorem encImage_length (e n k nb : Nat) (p : List Byte) : (encImage e n k nb p).length = nb * Config.bigBytes :=
  flatMap_length_eq _ _ _ fun _ _ => bigToBytes_length _

/-- What ENC writes to a slot reads back as the block's value. -/
theorem blkRead_encImage (m : Memory) (e n k nb i : Nat) (p : List Byte) (hi : i < nb) :
    blkRead (writeBytes m Config.blkBase (encImage e n k nb p)) i = (BitVec.ofNat 4096 (encSlot e n k p i)).toNat := by
  have hl : i * Config.bigBytes + Config.bigBytes ≤ (encImage e n k nb p).length := by
    rw [encImage_length]
    have := Nat.mul_le_mul_right Config.bigBytes (show i + 1 ≤ nb from hi); rw [Nat.succ_mul] at this; exact this
  rw [blkRead, slotOffset, Nat.mul_comm, readBytes_writeBytes_in _ _ _ _ _ hl, encImage,
    flatMap_slot _ _ _ _ (fun _ _ => bigToBytes_length _) hi, leInt_bigToBytes]

/-- Slots stored in order from slot 0 read back. -/
theorem blkRead_slots (m : Memory) (vs : List Big) (i : Nat) (hi : i < vs.length) :
    blkRead (writeBytes m Config.blkBase (vs.flatMap bigToBytes)) i = vs[i].toNat := by
  have hf : vs.flatMap bigToBytes = (List.range vs.length).flatMap fun j => bigToBytes (vs.getD j 0#4096) := by
    have hv : vs = (List.range vs.length).map fun j => vs.getD j 0#4096 := by
      apply List.ext_getElem
      · simp
      · intro j h1 h2; simp [h1]
    conv_lhs => rw [hv]
    rw [List.flatMap_map]
  have hl : i * Config.bigBytes + Config.bigBytes ≤ (vs.flatMap bigToBytes).length := by
    rw [hf, flatMap_length_eq _ _ _ fun _ _ => bigToBytes_length _]
    have := Nat.mul_le_mul_right Config.bigBytes (show i + 1 ≤ vs.length from hi); rw [Nat.succ_mul] at this; exact this
  rw [blkRead, slotOffset, Nat.mul_comm, readBytes_writeBytes_in _ _ _ _ _ hl, hf,
    flatMap_slot _ _ _ _ (fun _ _ => bigToBytes_length _) hi, leInt_bigToBytes]
  simp [hi]

/-! ### DEC -/

theorem decSlot_length (k v : Nat) (h : (beBytes v).length ≤ k) : (decSlot k v).length = k := by
  rw [decSlot, List.length_append, List.length_replicate]; omega

theorem beBytes_length (x : Nat) : (beBytes x).length = byteLength x := by
  rw [beBytes, List.length_map, List.length_range]

/-- Slot bytes (R185): the shortest big-endian bytes, then zeros. -/
theorem decSlot_getElem (k v j : Nat) (h : byteLength v ≤ k) (hj : j < k) :
    (decSlot k v)[j]? = some (if j < byteLength v then BitVec.ofNat 8 (v >>> (8 * (byteLength v - 1 - j))) else 0#8) := by
  rw [decSlot]
  by_cases hl : j < byteLength v
  · rw [List.getElem?_append_left (by rw [beBytes_length]; exact hl), beBytes, List.getElem?_map,
      List.getElem?_range hl, if_pos hl]; rfl
  · rw [List.getElem?_append_right (by rw [beBytes_length]; omega), beBytes_length, List.getElem?_replicate,
      if_pos (by omega), if_neg hl]

/-- No block is too wide exactly when every value fits its slot. -/
theorem tooWide_false (d n k nb : Nat) (m : Memory) :
    tooWide d n k nb m = false ↔ ∀ i, i < nb → byteLength (decValue d n m i) ≤ k := by
  simp only [tooWide, List.any_eq_false, List.mem_range, decide_eq_true_eq, Nat.not_lt, beBytes_length]

theorem decOutput_length (d n k nb : Nat) (m : Memory) (h : ∀ i, i < nb → byteLength (decValue d n m i) ≤ k) :
    (decOutput d n k nb m).length = nb * k :=
  flatMap_length_eq _ _ _ fun i hi => decSlot_length _ _ (by rw [beBytes_length]; exact h i hi)

theorem decOutput_getElem (d n k nb i j : Nat) (m : Memory) (h : ∀ x, x < nb → byteLength (decValue d n m x) ≤ k)
    (hi : i < nb) (hj : j < k) : (decOutput d n k nb m)[i * k + j]? = (decSlot k (decValue d n m i))[j]? :=
  flatMap_getElem _ _ _ _ _ (fun x hx => decSlot_length _ _ (by rw [beBytes_length]; exact h x hx)) hi hj

/-! ### The stripped length (R186) -/

theorem strippedLength_le (out : List Byte) : strippedLength out ≤ out.length := by
  rw [strippedLength, ← List.length_reverse (as := out)]
  exact (List.dropWhile_sublist _).length_le

/-- A sequence that ends in spaces has the stripped length of what stands before them. -/
theorem strippedLength_append_spaces (xs : List Byte) (n : Nat) :
    strippedLength (xs ++ List.replicate n 0x20#8) = strippedLength xs := by
  unfold strippedLength
  rw [List.reverse_append, List.reverse_replicate, List.dropWhile_append]
  simp

/-- A sequence that does not end in a space keeps its length. -/
theorem strippedLength_of_last (xs : List Byte) (b : Byte) (h : b ≠ 0x20#8) :
    strippedLength (xs ++ [b]) = xs.length + 1 := by
  unfold strippedLength
  simp [h]

/-- A sequence is its stripped part and spaces, and the stripped part does not end in one. -/
theorem strippedLength_spec (out : List Byte) :
    out = out.take (strippedLength out) ++ List.replicate (out.length - strippedLength out) 0x20#8 ∧
    (strippedLength out = 0 ∨ out[strippedLength out - 1]? ≠ some 0x20#8) := by
  induction out using List.reverseRecOn with
  | nil => simp [strippedLength]
  | append_singleton xs b ih =>
    by_cases hb : b = 0x20#8
    · subst hb
      have h := strippedLength_append_spaces xs 1
      rw [List.replicate_one] at h
      have hl := strippedLength_le xs
      rw [h, List.length_append, List.length_singleton, List.take_append_of_le_length hl]
      refine ⟨?_, ?_⟩
      · rw [Nat.sub_add_comm hl, List.replicate_succ', ← List.append_assoc, ← ih.1]
      · rcases ih.2 with h0 | h0
        · exact .inl h0
        · by_cases hz : strippedLength xs = 0
          · exact .inl hz
          · rw [List.getElem?_append_left (by omega)]; exact .inr h0
    · rw [strippedLength_of_last xs b hb]
      simp [hb]

end Sys2Proof.Machine
end

