-- ==== Sys2Proof/Laws/Encoding.lean ====
section
/-! SUPPORT. What each field of a command word is as a number, and that each field of `layout` reads back. -/

namespace Sys2Proof

theorem layout_toNat (imm : Byte) (rn rb ra rd : BReg) (opc : BitVec 8) :
    (layout imm rn rb ra rd opc).toNat = opc.toNat + rd.val * 2 ^ 8 + ra.val * 2 ^ 12 + rb.val * 2 ^ 16
      + rn.val * 2 ^ 20 + imm.toNat * 2 ^ 24 := by
  have h1 := opc.isLt
  have h2 := imm.isLt
  rw [layout, BitVec.toNat_ofNat, Nat.mod_eq_of_lt]
  omega

theorem field_toNat (w : Word) (lo n : Nat) : (w.extractLsb' lo n).toNat = w.toNat / 2 ^ lo % 2 ^ n := by
  rw [BitVec.extractLsb'_toNat, Nat.shiftRight_eq_div_pow]

theorem opcField_toNat (w : Word) : (opcField w).toNat = w.toNat % 256 := by
  rw [opcField, field_toNat]; omega
theorem rdField_val (w : Word) : (rdField w).val = w.toNat / 2 ^ 8 % 16 := field_toNat w 8 4
theorem raField_val (w : Word) : (raField w).val = w.toNat / 2 ^ 12 % 16 := field_toNat w 12 4
theorem rbField_val (w : Word) : (rbField w).val = w.toNat / 2 ^ 16 % 16 := field_toNat w 16 4
theorem rnField_val (w : Word) : (rnField w).val = w.toNat / 2 ^ 20 % 16 := field_toNat w 20 4
theorem immField_toNat (w : Word) : (immField w).toNat = w.toNat / 2 ^ 24 := by
  have := w.isLt
  rw [immField, field_toNat]; omega

@[simp] theorem opcField_layout (imm : Byte) (rn rb ra rd : BReg) (opc : BitVec 8) :
    opcField (layout imm rn rb ra rd opc) = opc := by
  apply BitVec.eq_of_toNat_eq
  rw [opcField_toNat, layout_toNat]; omega

@[simp] theorem rdField_layout (imm : Byte) (rn rb ra rd : BReg) (opc : BitVec 8) :
    rdField (layout imm rn rb ra rd opc) = rd := by
  apply Fin.ext
  rw [rdField_val, layout_toNat]; omega

@[simp] theorem raField_layout (imm : Byte) (rn rb ra rd : BReg) (opc : BitVec 8) :
    raField (layout imm rn rb ra rd opc) = ra := by
  apply Fin.ext
  rw [raField_val, layout_toNat]; omega

@[simp] theorem rbField_layout (imm : Byte) (rn rb ra rd : BReg) (opc : BitVec 8) :
    rbField (layout imm rn rb ra rd opc) = rb := by
  apply Fin.ext
  rw [rbField_val, layout_toNat]; omega

@[simp] theorem rnField_layout (imm : Byte) (rn rb ra rd : BReg) (opc : BitVec 8) :
    rnField (layout imm rn rb ra rd opc) = rn := by
  apply Fin.ext
  rw [rnField_val, layout_toNat]; omega

@[simp] theorem immField_layout (imm : Byte) (rn rb ra rd : BReg) (opc : BitVec 8) :
    immField (layout imm rn rb ra rd opc) = imm := by
  have := opc.isLt
  apply BitVec.eq_of_toNat_eq
  rw [immField_toNat, layout_toNat]; omega

/-- A word is the layout of its six fields. -/
theorem layout_fields (w : Word) :
    layout (immField w) (rnField w) (rbField w) (raField w) (rdField w) (opcField w) = w := by
  apply BitVec.eq_of_toNat_eq
  have := w.isLt
  rw [layout_toNat, immField_toNat, rnField_val, rbField_val, raField_val, rdField_val, opcField_toNat]
  omega

/-- The layout as the bit picture of R92 draws it. -/
theorem layout_append (imm : Byte) (rn rb ra rd : BReg) (opc : BitVec 8) :
    layout imm rn rb ra rd opc =
      imm ++ (BitVec.ofFin rn : BitVec 4) ++ (BitVec.ofFin rb : BitVec 4) ++ (BitVec.ofFin ra : BitVec 4)
        ++ (BitVec.ofFin rd : BitVec 4) ++ opc := by
  apply BitVec.eq_of_toNat_eq
  have h0 := opc.isLt
  have h1 := rd.isLt
  have h2 := ra.isLt
  have h3 := rb.isLt
  have h4 := rn.isLt
  rw [layout_toNat]
  simp only [BitVec.toNat_append, BitVec.toNat_ofFin]
  rw [← Nat.shiftLeft_add_eq_or_of_lt h0, ← Nat.shiftLeft_add_eq_or_of_lt (b := rd.val) h1, ← Nat.shiftLeft_add_eq_or_of_lt (b := ra.val) h2,
    ← Nat.shiftLeft_add_eq_or_of_lt (b := rb.val) h3, ← Nat.shiftLeft_add_eq_or_of_lt (b := rn.val) h4]
  simp only [Nat.shiftLeft_eq]
  omega

/-- A word with a mask that keeps or clears each field whole. -/
theorem and_mask (w : Word) (m : Word) (n b a d : Bool)
    (hm : m = 0xFF#8 ++ (if n then 0xF#4 else 0#4) ++ (if b then 0xF#4 else 0#4) ++ (if a then 0xF#4 else 0#4)
      ++ (if d then 0xF#4 else 0#4) ++ 0xFF#8) :
    w &&& m = layout (immField w) (if n then rnField w else 0) (if b then rbField w else 0)
      (if a then raField w else 0) (if d then rdField w else 0) (opcField w) := by
  have e : ∀ (c : Bool) (x : BitVec 4), BitVec.ofFin (if c then (x.toFin : BReg) else 0) = x &&& if c then 0xF#4 else 0#4 := by
    decide
  rw [layout_append, hm, rnField, rbField, raField, rdField, e, e, e, e]
  apply BitVec.eq_of_getLsbD_eq
  intro i hi
  simp only [BitVec.getLsbD_and, BitVec.getLsbD_append, immField, opcField]
  interval_cases i <;> simp

/-- A format N or R word decodes to its command exactly when bits 31:24 are 0. -/
theorem plainFormat_ok (w : Word) (i j : Instr) : plainFormat w i = .ok j ↔ immField w = 0#8 ∧ i = j := by
  unfold plainFormat; split <;> simp_all

end Sys2Proof
end

