-- ==== Sys2Proof/Laws/Engine.lean ====
section
/-! SUPPORT. The engine's held-and-resumed procedures against the nested loops of spec/42_prime.md: a run of moves takes
the answers that are ready exactly as the pseudocode does. `Agrees` says it for one procedure; `Agrees.bind` chains. -/

namespace Sys2Proof.Laws

open Sys2Proof.Machine Sys2Proof.Safety

/-! ### Draws -/

@[simp] theorem afterDraws_zero (s : State) : afterDraws 0 0 s = s := by simp [afterDraws]

@[simp] theorem afterDraws_afterDraws (a b c d : Nat) (s : State) :
    afterDraws a b (afterDraws c d s) = afterDraws (c + a) (d + b) s := by
  cases h : s.rngsrc <;>
    simp [afterDraws, h, List.drop_drop, BitVec.add_assoc, ← BitVec.ofNat_add]

@[simp] theorem afterDraws_phase_update (a b : Nat) (s : State) (p : Phase) :
    afterDraws a b { s with phase := p } = { afterDraws a b s with phase := p } := rfl

@[simp] theorem available_phase_update (s : State) (p : Phase) : available { s with phase := p } = available s := rfl

theorem atOnce_drop (l : List (Option Answer)) (n : Nat) (h : n ≤ (atOnce l).length) :
    atOnce (l.drop n) = (atOnce l).drop n := by
  induction l generalizing n with
  | nil => simp [atOnce]
  | cons x l ih =>
    cases x with
    | none => simp only [atOnce, List.length_nil, Nat.le_zero] at h; subst h; rfl
    | some a =>
      cases n with
      | zero => rfl
      | succ n => simp only [atOnce, List.length_cons] at h ⊢; exact ih n (by omega)

@[simp] theorem roundsOf_afterDraws (a b : Nat) (s : State) : roundsOf (afterDraws a b s) = roundsOf s := rfl

@[simp] theorem primeBytes_afterDraws (a b : Nat) (s : State) : primeBytes (afterDraws a b s) = primeBytes s := rfl

theorem available_afterDraws (s : State) (n b : Nat) (h : n ≤ (available s).length) :
    available (afterDraws n b s) = (available s).drop n := by
  cases hr : s.rngsrc
  · simp only [available, afterDraws, hr] at *; exact atOnce_drop _ _ (by simpa using h)
  · simp [available, afterDraws, hr]

/-- nextByte() with a byte ready. -/
theorem nextByte_byte (s : State) (b : Byte) (l : List Answer) (h : available s = .byte b :: l) :
    nextByte s = .byte b (afterDraws 1 1 s) := by
  cases hr : s.rngsrc
  · simp only [available, hr, Bool.false_eq_true, if_false] at h
    rcases hs : s.source with _ | ⟨_ | a, rest⟩ <;> rw [hs] at h <;> simp only [atOnce, reduceCtorEq, List.cons.injEq] at h
    rw [h.1] at hs
    simp [nextByte, hr, hs, countByte, afterDraws]
  · simp only [available, hr, if_true] at h
    rcases hs : s.fifo with _ | ⟨a, rest⟩ <;> rw [hs] at h <;> simp at h
    simp [nextByte, hr, hs, countByte, afterDraws, h.1]

/-- nextByte() with a failure ready. -/
theorem nextByte_failure (s : State) (l : List Answer) (h : available s = .failure :: l) :
    nextByte s = .failed (afterDraws 1 0 s) := by
  cases hr : s.rngsrc
  · simp only [available, hr, Bool.false_eq_true, if_false] at h
    rcases hs : s.source with _ | ⟨_ | a, rest⟩ <;> rw [hs] at h <;> simp only [atOnce, reduceCtorEq, List.cons.injEq] at h
    rw [h.1] at hs
    simp [nextByte, hr, hs, afterDraws]
  · simp only [available, hr, if_true] at h
    rcases hs : s.fifo with _ | ⟨a, rest⟩ <;> rw [hs] at h <;> simp at h

/-- nextByte() with no answer ready: the engine is held, and at most one entry of the source is used up. -/
theorem nextByte_held (s : State) (h : available s = []) :
    ∃ l, nextByte s = .held { s with source := l } := by
  by_cases hr : s.rngsrc = true
  · simp only [available, hr, if_true, List.map_eq_nil_iff] at h
    exact ⟨s.source, show nextByte s = Draw.held s by simp [nextByte, hr, h]⟩
  · simp only [available, hr] at h
    rcases hs : s.source with _ | ⟨_ | a, rest⟩ <;> rw [hs] at h <;> simp [atOnce] at h
    · exact ⟨s.source, show nextByte s = Draw.held s by simp [nextByte, hr, hs]⟩
    · exact ⟨rest, by simp [nextByte, hr, hs]⟩

/-! ### Moves -/

theorem runMoves_idle (m : Nat) (s : State) (h : s.phase = .idle) : runMoves m s = s := by
  cases m <;> simp [runMoves, h]

theorem runMoves_wait (m : Nat) (s : State) (w : Work) (h : s.phase = .wait w) : runMoves m s = s := by
  cases m <;> simp [runMoves, h]

@[simp] theorem runMoves_complete (m : Nat) (c : ErrorCode) (s : State) : runMoves m (complete c s) = complete c s :=
  runMoves_idle m _ rfl

theorem runMoves_run (m : Nat) (s : State) (w : Work) (hw : w ≠ .fetch) (h : s.phase = .run w) :
    runMoves (m + 1) s = runMoves m (engineMove w s) := by
  cases w <;> simp_all [runMoves]

/-- From `x`, whose fields other than the phase are those of `s`, some number of moves (at most `a` a byte and `c` more)
takes the answers the procedure takes and goes on as `k` does with its result, or ends in error RNG. -/
def Agrees {α : Type} (a c : Nat) (x s : State) (r : Run α) (k : α → State → State) : Prop :=
  match r with
  | .done v rest => ∃ n q, n ≤ (available s).length ∧ rest = (available s).drop n ∧ q ≤ a * n + c ∧
      ∀ m, runMoves (q + m) x = runMoves m (k v (afterDraws n n s))
  | .failed rest => ∃ n q, n < (available s).length ∧ rest = (available s).drop (n + 1) ∧ q ≤ a * (n + 1) + c ∧
      ∀ m, runMoves (q + m) x = complete .rng (afterDraws (n + 1) n s)
  | .starved => True

theorem Agrees.done {α : Type} (a : Nat) {x s : State} {v : α} {k : α → State → State} (h : x = k v s) :
    Agrees a 0 x s (.done v (available s)) k :=
  ⟨0, 0, Nat.zero_le _, by simp, Nat.zero_le _, fun m => by simp [h]⟩

/-- One move that draws nothing before a procedure. -/
theorem Agrees.quiet {α : Type} {a c : Nat} {x y s : State} {r : Run α} {k : α → State → State}
    (h : Agrees a c y s r k) (hxy : ∀ m, runMoves (1 + m) x = runMoves m y) : Agrees a (c + 1) x s r k := by
  cases r with
  | starved => trivial
  | done v rest =>
    obtain ⟨n, q, h1, h2, h3, h4⟩ := h
    exact ⟨n, 1 + q, h1, h2, by omega, fun m => by rw [Nat.add_assoc, hxy, h4]⟩
  | failed rest =>
    obtain ⟨n, q, h1, h2, h3, h4⟩ := h
    exact ⟨n, 1 + q, h1, h2, by omega, fun m => by rw [Nat.add_assoc, hxy, h4]⟩

/-- A first procedure, then a second one on the answers left. The second may use up the moves (`A - a` a byte) that the
first has left over. -/
theorem Agrees.bind {α β : Type} {a A c C : Nat} {x s : State} {r : Run α} {f : α → List Answer → Run β}
    {k : α → State → State} {k' : β → State → State} (h : Agrees a c x s r k) (ha : a ≤ A) (hc : a + c ≤ A + C)
    (h' : ∀ v n, n ≤ (available s).length → r = .done v ((available s).drop n) →
      ∃ d, a * n + c + d ≤ A * n + C ∧
        Agrees A d (k v (afterDraws n n s)) (afterDraws n n s) (f v (available (afterDraws n n s))) k') :
    Agrees A C x s (r.bind f) k' := by
  cases r with
  | starved => trivial
  | failed rest =>
    obtain ⟨n, q, h1, h2, h3, h4⟩ := h
    refine ⟨n, q, h1, h2, ?_, h4⟩
    have := Nat.mul_le_mul_right n ha
    rw [Nat.mul_succ] at h3 ⊢; omega
  | done v rest =>
    obtain ⟨n, q, hn, hrest, hq, hm⟩ := h
    subst hrest
    obtain ⟨d, hd, h2⟩ := h' v n hn rfl
    have hav := available_afterDraws s n n hn
    simp only [Run.bind]
    rw [hav] at h2
    cases hf : f v ((available s).drop n) with
    | starved => trivial
    | done b rest =>
      rw [hf] at h2
      obtain ⟨n', q', hn', hrest', hq', hm'⟩ := h2
      rw [hav, List.length_drop] at hn'
      rw [hav, List.drop_drop] at hrest'
      refine ⟨n + n', q + q', by omega, hrest', by rw [Nat.mul_add]; omega, fun m => ?_⟩
      rw [Nat.add_assoc, hm, hm', afterDraws_afterDraws]
    | failed rest =>
      rw [hf] at h2
      obtain ⟨n', q', hn', hrest', hq', hm'⟩ := h2
      rw [hav, List.length_drop] at hn'
      rw [hav, List.drop_drop] at hrest'
      refine ⟨n + n', q + q', by omega, hrest', by rw [Nat.add_assoc, Nat.mul_add]; omega, fun m => ?_⟩
      rw [Nat.add_assoc, hm, hm', afterDraws_afterDraws]; rfl

/-! ### isPrime -/

/-- A command that holds an isPrime call as `wk w` and goes on with its verdict by `k`. -/
structure TestContext (wk : Witness → Work) (k : Verdict → State → State) : Prop where
  notFetch : ∀ w, wk w ≠ .fetch
  ask : ∀ w s, k (.ask w) s = { s with phase := .run (wk w) }
  feed : ∀ b w s, workFeed b (wk w) s = k (testFeed w b) s
  wants : ∀ j w, workWants j (wk w) = true
  phase : ∀ v s p, k v { s with phase := p } = k v s

/-- One byte request of an isPrime call. -/
theorem TestContext.move {wk : Witness → Work} {k : Verdict → State → State} (hc : TestContext wk k) (w : Witness)
    (s : State) (m : Nat) :
    (∀ b l, available s = .byte b :: l →
      runMoves (1 + m) (k (.ask w) s) = runMoves m (k (testFeed w b) (afterDraws 1 1 s))) ∧
    (∀ l, available s = .failure :: l →
      runMoves (1 + m) (k (.ask w) s) = complete .rng (afterDraws 1 0 s)) := by
  have hrun : runMoves (1 + m) (k (.ask w) s) = runMoves m (workDraw (wk w) { s with phase := .run (wk w) }) := by
    rw [hc.ask, Nat.add_comm, runMoves_run m _ (wk w) (hc.notFetch w) rfl, engineMove, if_pos (hc.wants _ _)]
  refine ⟨fun b l h => ?_, fun l h => ?_⟩
  · rw [hrun, workDraw, nextByte_byte _ b l (by simpa using h)]
    simp only [afterDraws_phase_update, hc.feed, hc.phase]
  · rw [hrun, workDraw, nextByte_failure _ l (by simpa using h)]
    simp only [afterDraws_phase_update, raise_eq, runMoves_complete]; rfl

/-- The bytes of one witness draw, from `got` on. -/
theorem TestContext.gather {wk : Witness → Work} {k : Verdict → State → State} (hc : TestContext wk k) (n left : Nat)
    (need : Nat) (got : List Byte) (s : State) (hneed : got.length + need + 1 = byteLength n) :
    Agrees 1 0 (k (.ask ⟨n, left, got⟩) s) s (nextBytes (need + 1) (available s))
      fun bs s => k (testWitness ⟨n, left, got⟩ (beInt (got ++ bs))) s := by
  induction need generalizing got s with
  | zero =>
    rcases hav : available s with _ | ⟨_ | _, l⟩
    · trivial
    · next b =>
      refine ⟨1, 1, by simp [hav], by simp [hav], by omega, fun m => ?_⟩
      rw [(hc.move _ s m).1 b l hav, testFeed, if_neg (by simp; omega)]
    · exact ⟨0, 1, by simp [hav], by simp [hav], by omega, fun m => (hc.move _ s m).2 l hav⟩
  | succ need ih =>
    rcases hav : available s with _ | ⟨_ | _, l⟩
    · trivial
    · next b =>
      have h1 : Agrees 1 0 (k (.ask ⟨n, left, got⟩) s) s (.done b l)
          fun b s => k (.ask ⟨n, left, got ++ [b]⟩) s := by
        refine ⟨1, 1, by simp [hav], by simp [hav], by omega, fun m => ?_⟩
        rw [(hc.move _ s m).1 b l hav, testFeed, if_pos (by simp; omega)]
      refine h1.bind (f := fun b l => (nextBytes (need + 1) l).bind fun bs rest => .done (b :: bs) rest) (le_refl 1)
        (le_refl _) fun b n' _ _ => ⟨0, le_refl _, ?_⟩
      refine (ih (got ++ [b]) (afterDraws n' n' s) (by simp; omega)).bind (le_refl 1) (le_refl _)
        fun bs j _ _ => ⟨0, le_refl _, ?_⟩
      exact Agrees.done 1 (by simp [testWitness])
    · exact ⟨0, 1, by simp [hav], by simp [hav], by omega, fun m => (hc.move _ s m).2 l hav⟩

/-- A witness draw with its rejections (R151). -/
theorem TestContext.witness {wk : Witness → Work} {k : Verdict → State → State} (hc : TestContext wk k) (n left : Nat)
    (fuel : Nat) (s : State) (hn : 1 ≤ byteLength n) :
    Agrees 1 0 (k (.ask ⟨n, left, []⟩) s) s (drawWitness n fuel (available s)) fun a s =>
      k (if roundPasses n a then (if left ≤ 1 then .yes else .ask ⟨n, left - 1, []⟩) else .no) s := by
  induction fuel generalizing s with
  | zero => trivial
  | succ fuel ih =>
    obtain ⟨need, hneed⟩ : ∃ need, byteLength n = need + 1 := ⟨byteLength n - 1, by omega⟩
    rw [drawWitness, hneed]
    refine (hc.gather n left need [] s (by simp; omega)).bind (le_refl 1) (le_refl _) fun bs j _ _ => ⟨0, le_refl _, ?_⟩
    rw [testWitness, List.nil_append]
    by_cases hb : 2 ≤ beInt bs ∧ beInt bs ≤ n - 2
    · rw [if_pos hb, if_pos hb]; exact Agrees.done 1 rfl
    · rw [if_neg hb, if_neg hb]; exact ih _

/-- The rounds of a test (R152). -/
theorem TestContext.rounds {wk : Witness → Work} {k : Verdict → State → State} (hc : TestContext wk k) (n r : Nat)
    (s : State) (hn : 1 ≤ byteLength n) :
    Agrees 1 0 (k (.ask ⟨n, r + 1, []⟩) s) s (primeRounds n (r + 1) (available s)) fun b s =>
      k (if b then .yes else .no) s := by
  induction r generalizing s with
  | zero =>
    rw [primeRounds]
    refine (hc.witness n 1 _ s hn).bind (le_refl 1) (le_refl _) fun a j _ _ => ⟨0, le_refl _, ?_⟩
    by_cases ha : roundPasses n a = true
    · rw [if_pos ha, if_pos ha, primeRounds]; exact Agrees.done 1 (by simp)
    · rw [if_neg ha, if_neg ha]; exact Agrees.done 1 (by simp)
  | succ r ih =>
    rw [primeRounds]
    refine (hc.witness n (r + 1 + 1) _ s hn).bind (le_refl 1) (le_refl _) fun a j _ _ => ⟨0, le_refl _, ?_⟩
    by_cases ha : roundPasses n a = true
    · rw [if_pos ha, if_pos ha, if_neg (by omega)]; exact ih _
    · rw [if_neg ha, if_neg ha]; exact Agrees.done 1 (by simp)

theorem one_le_byteLength (n : Nat) (h : 0 < n) : 1 ≤ byteLength n := by
  by_contra hl
  have := (byteLength_le n 0).mp (by omega)
  omega

/-- An isPrime call inside a command goes as the pseudocode does (R152). -/
theorem TestContext.isPrime {wk : Witness → Work} {k : Verdict → State → State} (hc : TestContext wk k) (n r : Nat)
    (s : State) :
    Agrees 1 0 (k (testStart n r) s) s (isPrime n r (available s)) fun b s => k (if b then .yes else .no) s := by
  rw [testStart, Safety.isPrime]
  by_cases h1 : n = 2 ∨ n = 3
  · rw [if_pos h1, if_pos h1]; exact Agrees.done 1 (by simp)
  · rw [if_neg h1, if_neg h1]
    by_cases h2 : n ≤ 1 ∨ n % 2 = 0
    · rw [if_pos h2, if_pos h2]; exact Agrees.done 1 (by simp)
    · rw [if_neg h2, if_neg h2]
      cases r with
      | zero => rw [if_pos rfl, primeRounds]; exact Agrees.done 1 (by simp)
      | succ r => rw [if_neg (by omega)]; exact hc.rounds n r s (one_le_byteLength n (by omega))

/-! ### generatePrime -/

/-- A command that holds a generatePrime call as `wk g` and goes on from its moves by `k`. -/
structure GenContext (wk : Gen → Work) (k : GenStep → State → State) : Prop where
  notFetch : ∀ g, wk g ≠ .fetch
  more : ∀ g s, k (.more g) s = { s with phase := .run (wk g) }
  feed : ∀ b g s, workFeed b (wk g) s = k (genFeed b g) s
  quiet : ∀ g s, workQuiet (wk g) s = k (genQuiet (roundsOf s) g) s
  wants : ∀ j g, workWants j (wk g) = genWants j g
  phase : ∀ v s p, k v { s with phase := p } = k v s

theorem GenContext.searching {wk : Gen → Work} {k : GenStep → State → State} (hc : GenContext wk k) (c : Nat) :
    TestContext (fun w => wk (.searching c w)) fun v s => k (searchVerdict c v) s where
  notFetch _ := hc.notFetch _
  ask _ _ := hc.more _ _
  feed _ _ _ := hc.feed _ _ _
  wants _ _ := hc.wants _ _
  phase _ _ _ := hc.phase _ _ _

theorem GenContext.rechecking {wk : Gen → Work} {k : GenStep → State → State} (hc : GenContext wk k) (c : Nat) :
    TestContext (fun w => wk (.rechecking c w)) fun v s => k (recheckVerdict c v) s where
  notFetch _ := hc.notFetch _
  ask _ _ := hc.more _ _
  feed _ _ _ := hc.feed _ _ _
  wants _ _ := hc.wants _ _
  phase _ _ _ := hc.phase _ _ _

/-- A move that draws nothing. -/
theorem GenContext.quietMove {wk : Gen → Work} {k : GenStep → State → State} (hc : GenContext wk k) (g : Gen) (s : State)
    (hg : genWants (primeBytes s) g = false) (m : Nat) :
    runMoves (1 + m) (k (.more g) s) = runMoves m (k (genQuiet (roundsOf s) g) s) := by
  rw [hc.more, Nat.add_comm, runMoves_run m _ (wk g) (hc.notFetch g) rfl, engineMove]
  have : workWants (primeBytes { s with phase := Phase.run (wk g) }) (wk g) = false := (hc.wants _ _).trans hg
  rw [this, if_neg (by simp), hc.quiet, hc.phase]; rfl

/-- nextBytes(k) takes k answers and gives k bytes. -/
theorem nextBytes_done (k : Nat) (l rest : List Answer) (bs : List Byte) (h : nextBytes k l = .done bs rest) :
    rest.length + k = l.length ∧ bs.length = k := by
  induction k generalizing l bs with
  | zero => simp only [nextBytes, Run.done.injEq] at h; simp [← h.1, h.2]
  | succ k ih =>
    rcases l with _ | ⟨_ | _, l⟩
    · simp [nextBytes] at h
    · rw [nextBytes] at h
      cases hn : nextBytes k l with
      | done bs' rest' =>
        rw [hn] at h; simp only [Run.bind, Run.done.injEq] at h
        have := ih l bs' (by rw [hn, h.2])
        simp [← h.1]; omega
      | failed _ => rw [hn] at h; simp [Run.bind] at h
      | starved => rw [hn] at h; simp [Run.bind] at h
    · simp [nextBytes] at h

/-- An odd number above 1 whose test fails has drawn a byte. -/
theorem isPrime_false_draws (c r : Nat) (l rest : List Answer) (h3 : 3 ≤ c) (hodd : c % 2 = 1)
    (h : isPrime c r l = .done false rest) : rest.length < l.length := by
  have hb := one_le_byteLength c (by omega)
  obtain ⟨j, hj⟩ : ∃ j, byteLength c = j + 1 := ⟨byteLength c - 1, by omega⟩
  have hw : ∀ fuel l a rest, drawWitness c fuel l = .done a rest → rest.length < l.length := by
    intro fuel
    induction fuel with
    | zero => intro l a rest h; simp [drawWitness] at h
    | succ fuel ih =>
      intro l a rest h
      rw [drawWitness, hj] at h
      cases hn : nextBytes (j + 1) l with
      | done bs rest' =>
        rw [hn] at h; simp only [Run.bind] at h
        have := (nextBytes_done _ _ _ _ hn).1
        split at h
        · simp at h; simp [← h.2]; omega
        · have := ih _ _ _ h; omega
      | failed _ => rw [hn] at h; simp [Run.bind] at h
      | starved => rw [hn] at h; simp [Run.bind] at h
  have hr : ∀ r l rest, primeRounds c r l = .done false rest → rest.length < l.length := by
    intro r
    induction r with
    | zero => intro l rest h; simp [primeRounds] at h
    | succ r ih =>
      intro l rest h
      rw [primeRounds] at h
      cases hn : drawWitness c (l.length + 1) l with
      | done a rest' =>
        rw [hn] at h; simp only [Run.bind] at h
        have := hw _ _ _ _ hn
        split at h
        · have := ih _ _ h; omega
        · simp at h; simp [← h]; omega
      | failed _ => rw [hn] at h; simp [Run.bind] at h
      | starved => rw [hn] at h; simp [Run.bind] at h
  rw [Safety.isPrime] at h
  by_cases h1 : c = 2 ∨ c = 3
  · rw [if_pos h1] at h; simp at h
  · rw [if_neg h1, if_neg (by omega)] at h; exact hr _ _ _ h

/-- What the search loop accepts is odd and at least 3. -/
theorem searchPrime_done (r fuel c d : Nat) (l rest : List Answer) (hodd : c % 2 = 1)
    (h : searchPrime r fuel c l = .done d rest) : d % 2 = 1 ∧ 3 ≤ d := by
  induction fuel generalizing c l with
  | zero => simp [searchPrime] at h
  | succ fuel ih =>
    rw [searchPrime] at h
    cases hn : Safety.isPrime c r l with
    | done b rest' =>
      rw [hn] at h; simp only [Run.bind] at h
      cases b with
      | true =>
        simp only [if_true, Run.done.injEq] at h
        rw [← h.1]
        refine ⟨hodd, ?_⟩
        by_contra hlt
        rw [Safety.isPrime, if_neg (by omega), if_pos (by omega)] at hn
        simp at hn
      | false => exact ih (c + 2) rest' (by omega) (by simpa using h)
    | failed _ => rw [hn] at h; simp [Run.bind] at h
    | starved => rw [hn] at h; simp [Run.bind] at h

/-- The search loop (R153). -/
theorem GenContext.search {wk : Gen → Work} {k : GenStep → State → State} (hc : GenContext wk k) (fuel c : Nat)
    (s : State) (hodd : c % 2 = 1) :
    Agrees 2 (if c = 1 then 2 else 1) (k (.more (.search c)) s) s (searchPrime (roundsOf s) fuel c (available s))
      fun c s => k (.more (.recheck c)) s := by
  induction fuel generalizing c s with
  | zero => trivial
  | succ fuel ih =>
    rw [searchPrime]
    have ht := Agrees.quiet ((hc.searching c).isPrime c (roundsOf s) s)
      (x := k (.more (.search c)) s) fun m => hc.quietMove (.search c) s rfl m
    refine ht.bind (by omega) (by split <;> omega) fun b n hn hb => ?_
    cases b with
    | true => exact ⟨0, by split <;> omega, Agrees.done 2 (by simp [searchVerdict])⟩
    | false =>
      refine ⟨1, ?_, ?_⟩
      · by_cases h1 : c = 1
        · rw [if_pos h1]; omega
        · rw [if_neg h1]
          have := isPrime_false_draws c _ _ _ (by omega) hodd hb
          rw [List.length_drop] at this; omega
      · have := ih (c + 2) (afterDraws n n s) (by omega)
        rw [if_neg (by omega)] at this
        exact this

/-- The draw of a candidate's bytes (R153). -/
theorem GenContext.draw {wk : Gen → Work} {k : GenStep → State → State} (hc : GenContext wk k) (need : Nat)
    (got : List Byte) (s : State) (hneed : got.length + need = primeBytes s) :
    Agrees 1 0 (k (.more (.draw got)) s) s (nextBytes need (available s))
      fun bs s => k (.more (.draw (got ++ bs))) s := by
  induction need generalizing got s with
  | zero => rw [nextBytes]; exact Agrees.done 1 (by simp)
  | succ need ih =>
    have hrun : ∀ m, runMoves (1 + m) (k (.more (.draw got)) s)
        = runMoves m (workDraw (wk (.draw got)) { s with phase := .run (wk (.draw got)) }) := by
      intro m
      rw [hc.more, Nat.add_comm, runMoves_run m _ _ (hc.notFetch _) rfl, engineMove, if_pos]
      rw [hc.wants]; simp only [genWants, decide_eq_true_eq]; show got.length < primeBytes s; omega
    rcases hav : available s with _ | ⟨_ | _, l⟩
    · trivial
    · next b =>
      have h1 : Agrees 1 0 (k (.more (.draw got)) s) s (.done b l)
          fun b s => k (.more (.draw (got ++ [b]))) s := by
        refine ⟨1, 1, by simp [hav], by simp [hav], by omega, fun m => ?_⟩
        rw [hrun, workDraw, nextByte_byte _ b l (by simpa using hav)]
        simp only [afterDraws_phase_update, hc.feed, hc.phase, genFeed]
      refine h1.bind (f := fun b l => (nextBytes need l).bind fun bs rest => .done (b :: bs) rest) (le_refl 1)
        (le_refl _) fun b n' _ _ => ⟨0, le_refl _, ?_⟩
      have hk : primeBytes (afterDraws n' n' s) = primeBytes s := rfl
      refine (ih (got ++ [b]) (afterDraws n' n' s) (by rw [hk]; simp; omega)).bind (le_refl 1) (le_refl _)
        fun bs j _ _ => ⟨0, le_refl _, ?_⟩
      exact Agrees.done 1 (by simp)
    · refine ⟨0, 1, by simp [hav], by simp [hav], by omega, fun m => ?_⟩
      rw [hrun, workDraw, nextByte_failure _ l (by simpa using hav)]
      simp only [afterDraws_phase_update, raise_eq, runMoves_complete]; rfl

theorem candidate_odd (bs : List Byte) : candidate bs % 2 = 1 := by
  unfold candidate; dsimp only; split <;> split <;> omega

/-- A generatePrime call inside a command goes as the pseudocode does (R153). -/
theorem GenContext.generate {wk : Gen → Work} {k : GenStep → State → State} (hc : GenContext wk k) (fuel : Nat)
    (s : State) :
    Agrees 6 4 (k (.more (.draw [])) s) s (generatePrime (primeBytes s) (roundsOf s) fuel (available s))
      fun c s => k (.found c) s := by
  induction fuel generalizing s with
  | zero => trivial
  | succ fuel ih =>
    rw [generatePrime]
    refine (hc.draw (primeBytes s) [] s (by simp)).bind (by omega) (by omega) fun bs n hn hbs => ⟨4 + 5 * n, by omega, ?_⟩
    have hlen : bs.length = primeBytes s := (nextBytes_done _ _ _ _ hbs).2
    have hsearch := Agrees.quiet (hc.search ((available (afterDraws n n s)).length + 3) (candidate bs)
      (afterDraws n n s) (candidate_odd bs)) (x := k (.more (.draw ([] ++ bs))) (afterDraws n n s))
      fun m => hc.quietMove (.draw bs) (afterDraws n n s) (by simp [genWants, hlen]) m
    refine hsearch.bind (by omega) (by split <;> omega) fun c n1 _ hc1 => ⟨1 + 4 * n1 + 5 * n, by split <;> omega, ?_⟩
    obtain ⟨hodd, h3⟩ := searchPrime_done _ _ _ _ _ _ (candidate_odd bs) hc1
    have htest := Agrees.quiet ((hc.rechecking c).isPrime c (roundsOf s) (afterDraws n1 n1 (afterDraws n n s)))
      (x := k (.more (.recheck c)) (afterDraws n1 n1 (afterDraws n n s)))
      fun m => hc.quietMove (.recheck c) _ rfl m
    refine htest.bind (by omega) (by omega) fun b n2 hn2 hb => ?_
    cases b with
    | true => exact ⟨0, by omega, Agrees.done 6 (by simp [recheckVerdict])⟩
    | false =>
      have := isPrime_false_draws c _ _ _ h3 hodd hb
      rw [List.length_drop] at this
      exact ⟨4, by omega, ih _⟩

/-! ### The commands that draw -/

theorem primeqContext : TestContext .primeq primeqVerdict where
  notFetch _ := by simp
  ask _ _ := rfl
  feed _ _ _ := rfl
  wants _ _ := rfl
  phase v s p := by cases v <;> rfl

theorem genprimeContext (rd : BReg) : GenContext (.genprime rd) (genprimeStep rd) where
  notFetch _ := by simp
  more _ _ := rfl
  feed _ _ _ := rfl
  quiet _ _ := rfl
  wants _ _ := rfl
  phase v s p := by cases v <;> rfl

theorem keygenPContext (rd ra rn : BReg) : GenContext (.keygenP rd ra rn) (keygenPStep rd ra rn) where
  notFetch _ := by simp
  more _ _ := rfl
  feed _ _ _ := rfl
  quiet _ _ := rfl
  wants _ _ := rfl
  phase v s p := by cases v <;> rfl

theorem keygenQContext (rd ra rn : BReg) (p : Nat) : GenContext (.keygenQ rd ra rn p) (keygenQStep rd ra rn p) where
  notFetch _ := by simp
  more _ _ := rfl
  feed _ _ _ := rfl
  quiet _ _ := rfl
  wants _ _ := rfl
  phase v s p := by
    cases v with
    | more g => rfl
    | found q => simp only [keygenQStep, keygenFinish]; split <;> rfl

end Sys2Proof.Laws
end

