-- ==== Sys2Proof/Laws/Frames.lean ====
section
/-! SUPPORT. What each shared operation of the engine can do, said once: the modulus check, the completions, and the
moves of the entropy-drawing commands with everything they leave alone. -/

namespace Sys2Proof.Machine

open Sys2Proof.Safety

/-! ### Completions and the modulus check -/

theorem complete_completed (c : ErrorCode) (s : State) : Completed c (complete c s) := ⟨rfl, rfl, rfl, rfl, rfl⟩

theorem withModulus_zero (rn : BReg) (k : Nat → State → State) (s : State) (h : readB rn s = 0) :
    withModulus rn k s = complete .modzero s := if_pos h

theorem withModulus_pos (rn : BReg) (k : Nat → State → State) (s : State) (h : readB rn s ≠ 0) :
    withModulus rn k s = k (readB rn s) s := if_neg h

theorem keepsControl_refl (s : State) : KeepsControl s s := ⟨rfl, rfl, rfl, rfl, rfl, rfl, rfl, rfl, rfl, rfl, rfl, rfl, rfl⟩
theorem keepsEntropy_refl (s : State) : KeepsEntropy s s := ⟨rfl, rfl, rfl⟩
theorem keepsBuffers_refl (s : State) : KeepsBuffers s s := ⟨rfl, rfl, fun _ => rfl⟩

theorem keepsControl_trans {s t u : State} (h : KeepsControl s t) (k : KeepsControl t u) : KeepsControl s u :=
  ⟨k.cmd.trans h.cmd, k.haz.trans h.haz, k.rngovf.trans h.rngovf, k.doneie.trans h.doneie, k.rngie.trans h.rngie,
    k.rngsrc.trans h.rngsrc, k.aschk.trans h.aschk, k.rounds.trans h.rounds, k.bitlen.trans h.bitlen,
    k.pace.trans h.pace, k.bus.trans h.bus, k.resets.trans h.resets, k.inputs.trans h.inputs⟩

/-- A completion alone writes nothing. -/
theorem complete_writesNothing (c : ErrorCode) (s : State) : WritesNothing c s.flags s (complete c s) :=
  ⟨complete_completed c s, rfl, rfl, ⟨rfl, rfl, rfl, rfl, rfl, rfl, rfl, rfl, rfl, rfl, rfl, rfl, rfl⟩, ⟨rfl, rfl, rfl⟩,
    ⟨rfl, rfl, fun _ => rfl⟩⟩

/-- The completion of a command that writes one register. -/
theorem complete_writesRegister (rd : BReg) (v : Nat) (s : State) (h : v < bigMod) :
    WritesRegister rd v s.flags s (complete .ok (writeB rd v s)) where
  completed := complete_completed _ _
  value := by
    have hv : readB rd (complete .ok (writeB rd v s)) = readB rd (writeB rd v s) := rfl
    rw [hv, readB_writeB_self, Nat.mod_eq_of_lt h]
  registers := fun r hr => by
    rw [complete_b]
    exact writeB_getElem_ne rd r v s (by simpa using hr)
  flags := rfl
  control := ⟨rfl, rfl, rfl, rfl, rfl, rfl, rfl, rfl, rfl, rfl, rfl, rfl, rfl⟩
  entropy := ⟨rfl, rfl, rfl⟩
  buffers := ⟨rfl, rfl, fun _ => rfl⟩

/-! ### The moves of PRIMEQ, GENPRIME and KEYGEN -/

/-- What a move leaves alone, whatever it does. -/
structure MoveKeeps (s t : State) : Prop where
  control : KeepsControl s t
  msglen : t.msglen = s.msglen
  nblocks : t.nblocks = s.nblocks
  mem : t.mem = s.mem
  free : t.free = s.free

theorem MoveKeeps.refl (s : State) : MoveKeeps s s := ⟨keepsControl_refl s, rfl, rfl, rfl, rfl⟩

theorem MoveKeeps.trans {s t u : State} (h : MoveKeeps s t) (k : MoveKeeps t u) : MoveKeeps s u :=
  ⟨keepsControl_trans h.control k.control, k.msglen.trans h.msglen, k.nblocks.trans h.nblocks, k.mem.trans h.mem,
    k.free.trans h.free⟩

/-- A move either completes the command normally or has written no register and no flag. -/
def MoveWrites (s t : State) : Prop :=
  (t.b = s.b ∧ t.flags = s.flags) ∨ (t.phase = .idle ∧ t.errcode = .ok ∧ t.done = true)

theorem keepsControl_of_eq {s t : State} (h1 : t.cmd = s.cmd) (h2 : t.haz = s.haz) (h3 : t.rngovf = s.rngovf)
    (h4 : t.doneie = s.doneie) (h5 : t.rngie = s.rngie) (h6 : t.rngsrc = s.rngsrc) (h7 : t.aschk = s.aschk)
    (h8 : t.rounds = s.rounds) (h9 : t.bitlen = s.bitlen) (h10 : t.pace = s.pace) (h11 : t.bus = s.bus)
    (h12 : t.resets = s.resets) (h13 : t.inputs = s.inputs) : KeepsControl s t :=
  ⟨h1, h2, h3, h4, h5, h6, h7, h8, h9, h10, h11, h12, h13⟩

theorem primeqVerdict_keeps (v : Verdict) (s : State) :
    MoveKeeps s (primeqVerdict v s) ∧ MoveWrites s (primeqVerdict v s) := by
  cases v with
  | yes => exact ⟨⟨by constructor <;> rfl, rfl, rfl, rfl, rfl⟩, .inr ⟨rfl, rfl, rfl⟩⟩
  | no => exact ⟨⟨by constructor <;> rfl, rfl, rfl, rfl, rfl⟩, .inr ⟨rfl, rfl, rfl⟩⟩
  | ask w => exact ⟨⟨by constructor <;> rfl, rfl, rfl, rfl, rfl⟩, .inl ⟨rfl, rfl⟩⟩

theorem genprimeStep_keeps (rd : BReg) (g : GenStep) (s : State) :
    MoveKeeps s (genprimeStep rd g s) ∧ MoveWrites s (genprimeStep rd g s) := by
  cases g with
  | found c => exact ⟨⟨by constructor <;> rfl, rfl, rfl, rfl, rfl⟩, .inr ⟨rfl, rfl, rfl⟩⟩
  | more g => exact ⟨⟨by constructor <;> rfl, rfl, rfl, rfl, rfl⟩, .inl ⟨rfl, rfl⟩⟩

theorem keygenFinish_keeps (rd ra rn : BReg) (p q : Nat) (s : State) :
    MoveKeeps s (keygenFinish rd ra rn p q s) ∧ MoveWrites s (keygenFinish rd ra rn p q s) := by
  unfold keygenFinish
  split
  · exact ⟨⟨by constructor <;> rfl, rfl, rfl, rfl, rfl⟩, .inl ⟨rfl, rfl⟩⟩
  · exact ⟨⟨by constructor <;> rfl, rfl, rfl, rfl, rfl⟩, .inr ⟨rfl, rfl, rfl⟩⟩

theorem keygenPStep_keeps (rd ra rn : BReg) (g : GenStep) (s : State) :
    MoveKeeps s (keygenPStep rd ra rn g s) ∧ MoveWrites s (keygenPStep rd ra rn g s) := by
  cases g <;> exact ⟨⟨by constructor <;> rfl, rfl, rfl, rfl, rfl⟩, .inl ⟨rfl, rfl⟩⟩

theorem keygenQStep_keeps (rd ra rn : BReg) (p : Nat) (g : GenStep) (s : State) :
    MoveKeeps s (keygenQStep rd ra rn p g s) ∧ MoveWrites s (keygenQStep rd ra rn p g s) := by
  cases g with
  | found q => exact keygenFinish_keeps rd ra rn p q s
  | more g => exact ⟨⟨by constructor <;> rfl, rfl, rfl, rfl, rfl⟩, .inl ⟨rfl, rfl⟩⟩

theorem workFeed_keeps (b : Byte) (w : Work) (s : State) :
    MoveKeeps s (workFeed b w s) ∧ MoveWrites s (workFeed b w s) := by
  cases w with
  | fetch => exact ⟨.refl s, .inl ⟨rfl, rfl⟩⟩
  | primeq w => exact primeqVerdict_keeps _ s
  | genprime rd g => exact genprimeStep_keeps rd _ s
  | keygenP rd ra rn g => exact keygenPStep_keeps rd ra rn _ s
  | keygenQ rd ra rn p g => exact keygenQStep_keeps rd ra rn p _ s

theorem workQuiet_keeps (w : Work) (s : State) : MoveKeeps s (workQuiet w s) ∧ MoveWrites s (workQuiet w s) := by
  cases w with
  | fetch => exact ⟨.refl s, .inl ⟨rfl, rfl⟩⟩
  | primeq w => exact ⟨.refl s, .inl ⟨rfl, rfl⟩⟩
  | genprime rd g => exact genprimeStep_keeps rd _ s
  | keygenP rd ra rn g => exact keygenPStep_keeps rd ra rn _ s
  | keygenQ rd ra rn p g => exact keygenQStep_keeps rd ra rn p _ s

/-- The state a draw leaves, in its three outcomes. -/
inductive DrawFrom (s : State) : Draw → Prop where
  | byte (b : Byte) (t : State) (k : MoveKeeps s t) (hb : t.b = s.b) (hf : t.flags = s.flags) : DrawFrom s (.byte b t)
  | failed (t : State) (k : MoveKeeps s t) (hb : t.b = s.b) (hf : t.flags = s.flags) : DrawFrom s (.failed t)
  | held (t : State) (k : MoveKeeps s t) (hb : t.b = s.b) (hf : t.flags = s.flags) : DrawFrom s (.held t)

theorem nextByte_keeps (s : State) : DrawFrom s (nextByte s) := by
  unfold nextByte
  split
  · split
    · exact .held _ (.refl s) rfl rfl
    · exact .byte _ _ ⟨by constructor <;> rfl, rfl, rfl, rfl, rfl⟩ rfl rfl
  · split
    · exact .held _ (.refl s) rfl rfl
    · exact .held _ ⟨by constructor <;> rfl, rfl, rfl, rfl, rfl⟩ rfl rfl
    · exact .failed _ ⟨by constructor <;> rfl, rfl, rfl, rfl, rfl⟩ rfl rfl
    · exact .byte _ _ ⟨by constructor <;> rfl, rfl, rfl, rfl, rfl⟩ rfl rfl

theorem workDraw_keeps (w : Work) (s : State) : MoveKeeps s (workDraw w s) ∧ MoveWrites s (workDraw w s) := by
  have h := nextByte_keeps s
  unfold workDraw
  generalize nextByte s = d at h
  cases h with
  | byte b t k hb hf =>
    obtain ⟨k', h'⟩ := workFeed_keeps b w t
    exact ⟨k.trans k', h'.imp (fun h => ⟨h.1.trans hb, h.2.trans hf⟩) id⟩
  | failed t k hb hf =>
    exact ⟨k.trans ⟨by constructor <;> rfl, rfl, rfl, rfl, rfl⟩, .inl ⟨hb, hf⟩⟩
  | held t k hb hf =>
    exact ⟨k.trans ⟨by constructor <;> rfl, rfl, rfl, rfl, rfl⟩, .inl ⟨hb, hf⟩⟩

theorem engineMove_keeps (w : Work) (s : State) : MoveKeeps s (engineMove w s) ∧ MoveWrites s (engineMove w s) := by
  unfold engineMove
  split
  · exact workDraw_keeps w s
  · exact workQuiet_keeps w s

/-- One unit of a turn: a move of a command in progress, or, with none in progress, nothing for the whole turn. -/
theorem runMoves_cases (s : State) :
    (∃ w, w ≠ .fetch ∧ s.phase = .run w ∧ ∀ n, runMoves (n + 1) s = runMoves n (engineMove w s)) ∨
    ((∀ w, s.phase = .run w → w = .fetch) ∧ ∀ n, runMoves n s = s) := by
  cases h : s.phase with
  | idle => exact .inr ⟨by simp, fun n => by cases n <;> simp [runMoves, h]⟩
  | wait w => exact .inr ⟨by simp, fun n => by cases n <;> simp [runMoves, h]⟩
  | run w =>
    cases w with
    | fetch => exact .inr ⟨by simp, fun n => by cases n <;> simp [runMoves, h]⟩
    | primeq w => exact .inl ⟨_, by simp, rfl, fun n => by simp [runMoves, h]⟩
    | genprime rd g => exact .inl ⟨_, by simp, rfl, fun n => by simp [runMoves, h]⟩
    | keygenP rd ra rn g => exact .inl ⟨_, by simp, rfl, fun n => by simp [runMoves, h]⟩
    | keygenQ rd ra rn p g => exact .inl ⟨_, by simp, rfl, fun n => by simp [runMoves, h]⟩

/-- With no command in progress a turn does nothing. -/
theorem runMoves_stop (n : Nat) (s : State) (h : ∀ w, s.phase = .run w → w = .fetch) : runMoves n s = s := by
  rcases runMoves_cases s with ⟨w, hw, hp, -⟩ | ⟨-, hs⟩
  · exact absurd (h w hp) hw
  · exact hs n

theorem runMoves_keeps (n : Nat) (s : State) : MoveKeeps s (runMoves n s) ∧ MoveWrites s (runMoves n s) := by
  induction n generalizing s with
  | zero => exact ⟨.refl s, .inl ⟨rfl, rfl⟩⟩
  | succ n ih =>
    rcases runMoves_cases s with ⟨w, -, -, hr⟩ | ⟨-, hr⟩
    · rw [hr]
      obtain ⟨k, h⟩ := engineMove_keeps w s
      obtain ⟨k', h'⟩ := ih (engineMove w s)
      refine ⟨k.trans k', ?_⟩
      rcases h with ⟨hb, hf⟩ | ⟨hi, he, hd⟩
      · exact h'.imp (fun h => ⟨h.1.trans hb, h.2.trans hf⟩) id
      · rw [runMoves_stop n _ (by simp [hi])]
        exact .inr ⟨hi, he, hd⟩
    · rw [hr]; exact ⟨.refl s, .inl ⟨rfl, rfl⟩⟩

/-- A turn of m + n moves is a turn of m moves and then one of n. -/
theorem runMoves_add (m n : Nat) (s : State) : runMoves (m + n) s = runMoves n (runMoves m s) := by
  induction m generalizing s with
  | zero => rw [Nat.zero_add]; rfl
  | succ m ih =>
    rcases runMoves_cases s with ⟨w, -, -, hr⟩ | ⟨-, hr⟩
    · rw [Nat.succ_add, hr, hr, ih]
    · rw [hr, hr, hr]

end Sys2Proof.Machine
end

