-- ==== Sys2Proof/Laws/HostPort.lean ====
section
/-! SUPPORT. The window map at the offsets of R62, the words of big values and buffers, and what a host access does in
each of its cases. -/

namespace Sys2Proof.Machine

open Sys2Proof.Safety

/-! ### The map -/

theorem place_csr (off : Nat) (h : off < 0x100) : place off = .csr off := if_pos h

theorem place_bWord (k : BReg) (i : Nat) (hi : i < 128) : place (bWordOffset k i) = .bfile k i := by
  have hk := k.isLt
  have h1 : (bWordOffset k i - Config.bBase) / Config.bigBytes = k.val := by
    simp only [bWordOffset, Config.bBase, Config.bigBytes]; omega
  have h2 : (bWordOffset k i - Config.bBase) % Config.bigBytes / 4 = i := by
    simp only [bWordOffset, Config.bBase, Config.bigBytes]; omega
  rw [place, if_neg (by simp only [bWordOffset, Config.csrTop]; omega),
    if_pos (by simp only [bWordOffset, Config.bBase, Config.bTop]; omega), h1, h2]
  congr 1
  exact Fin.ext (by simp only [Fin.ofNat]; omega)

theorem place_buffer (off : Nat) (h : inBuffers off) : place off = .buffer off := by
  simp only [inBuffers, Config.msgBase, Config.msgTop, Config.blkBase, Config.window] at h
  rw [place, if_neg (by simp only [Config.csrTop]; omega), if_neg (by simp only [Config.bBase, Config.bTop]; omega),
    if_pos (by simpa only [inBuffers, Config.msgBase, Config.msgTop, Config.blkBase, Config.window] using h)]

theorem place_unmapped (off : Nat) (h : ¬ mapped off) : place off = .unmapped := by
  simp only [mapped] at h
  rw [place, if_neg (by simp only [Config.csrTop]; omega), if_neg (by simp only [Config.bBase, Config.bTop]; omega),
    if_neg (by simp only [inBuffers, Config.msgBase, Config.msgTop, Config.blkBase, Config.window]; omega)]

/-! ### Words -/

/-- Word i of a big value (R62). -/
theorem bigWord_eq (v : Big) (i : Nat) : bigWord v i = BitVec.ofNat 32 (v.toNat / 2 ^ (32 * i)) := by
  apply BitVec.eq_of_toNat_eq
  rw [bigWord, BitVec.extractLsb'_toNat, Nat.shiftRight_eq_div_pow, BitVec.toNat_ofNat]

/-- A buffer word by its four bytes (R62, R63). -/
theorem bufferWord_toNat (m : Memory) (off : Nat) :
    (bufferWord m off).toNat = (readByte m off).toNat + 2 ^ 8 * (readByte m (off + 1)).toNat
      + 2 ^ 16 * (readByte m (off + 2)).toNat + 2 ^ 24 * (readByte m (off + 3)).toNat := by
  have h0 := (readByte m off).isLt
  have h1 := (readByte m (off + 1)).isLt
  have h2 := (readByte m (off + 2)).isLt
  unfold bufferWord
  rw [BitVec.toNat_append, BitVec.toNat_append, BitVec.toNat_append, ← Nat.shiftLeft_add_eq_or_of_lt h0,
    ← Nat.shiftLeft_add_eq_or_of_lt h1, ← Nat.shiftLeft_add_eq_or_of_lt h2]
  simp only [Nat.shiftLeft_eq]
  omega

theorem wordToBytes_length (v : Word) : (wordToBytes v).length = 4 := rfl

theorem wordToBytes_getElem (v : Word) (t : Nat) (h : t < (wordToBytes v).length) :
    (wordToBytes v)[t] = v.extractLsb' (8 * t) 8 := by simp [wordToBytes]

/-! ### The cases of a host access -/

theorem hostAccess_refused_read (w : Width) (off : Nat) (s : State) (h : w ≠ .w32 ∨ off % 4 ≠ 0) :
    hostAccess (.read w off) s = replyError s := by
  rw [hostAccess, admitted, if_neg]
  rcases h with h | h <;> simp [h]

theorem hostAccess_refused_write (w : Width) (off : Nat) (v : Word) (s : State) (h : w ≠ .w32 ∨ off % 4 ≠ 0) :
    hostAccess (.write w off v) s = replyError s := by
  rw [hostAccess, admitted, if_neg]
  rcases h with h | h <;> simp [h]

theorem hostAccess_r32 (off : Nat) (s : State) (h : off % 4 = 0) : hostAccess (r32 off) s = hostRead off s := by
  rw [r32, hostAccess, admitted, if_pos (by simp [h])]

theorem hostAccess_w32 (off : Nat) (v : Word) (s : State) (h : off % 4 = 0) :
    hostAccess (w32 off v) s = hostWrite off v s := by
  rw [w32, hostAccess, admitted, if_pos (by simp [h])]

theorem lockedWrite_idle (f : State → State) (s : State) (h : busy s = false) : lockedWrite f s = f s := by
  rw [lockedWrite, h]; rfl

theorem lockedWrite_busy (f : State → State) (s : State) (h : busy s = true) :
    lockedWrite f s = { s with haz := true } := by
  rw [lockedWrite, h]; rfl

theorem hiddenRead_idle (v : Word) (s : State) (h : busy s = false) : hiddenRead v s = replyData v s := by
  rw [hiddenRead, h]; rfl

theorem hiddenRead_busy (v : Word) (s : State) (h : busy s = true) :
    hiddenRead v s = { s with bus := ⟨Config.unspecWord s.free, false⟩, free := s.free + 1 } := by
  rw [hiddenRead, h]; rfl

/-- A host access of the CSR page. -/
theorem hostAccess_r32_csr (off : Nat) (s : State) (h : off % 4 = 0) (hc : off < 0x100) :
    hostAccess (r32 off) s = replyData (csrRead off s) s := by
  rw [hostAccess_r32 _ _ h, hostRead, place_csr _ hc]

theorem hostAccess_w32_csr (off : Nat) (v : Word) (s : State) (h : off % 4 = 0) (hc : off < 0x100) :
    hostAccess (w32 off v) s = replyDone (csrWrite off v s) := by
  rw [hostAccess_w32 _ _ _ h, hostWrite, place_csr _ hc]

end Sys2Proof.Machine
end

