-- ==== Sys2Proof/Machine/HostProgram.lean ====
section
/-! DEFINITION. Host programs (spec/30_encoding.md R103, spec/70_reset_and_hazards.md R243): the lines, the accesses and
choices each stands for, the value RDBIG puts together, and the host's next move at a point of its program. A program is run beside the machine: the
host moves when the schedule says so, and every other move is an input of the machine (R8, R73). -/

namespace Sys2Proof.Machine

/-- The lines of R103. Labels are names of line numbers. -/
inductive HostLine where
  /-- A command of R101 or a one-word pseudo of R102. -/
  | command (i : Instr)
  /-- The two-command pseudo LDI (R102): the second word is issued after a wait. -/
  | ldi (bd : BReg) (imm : Byte)
  | wait
  | w32 (off : Nat) (v : Word)
  | r32 (off : Nat)
  | ldbig (k : BReg) (v : Big)
  | rdbig (k : BReg)
  | ldmsg (bytes : List Byte)
  | feed (bytes : List Byte)
  /-- Read `off`; go to line `target` if the value AND `mask` is `val`, else to the next line. -/
  | br (off : Nat) (mask val : Word) (target : Nat)
  deriving DecidableEq, Repr

/-- What the host does with one access, or with the answer to one. -/
inductive HostMove where
  | access (a : Access)
  /-- Read `off` and keep the word, as RDBIG does. -/
  | keep (off : Nat)
  /-- Read STATUS until BUSY = 0. -/
  | wait
  | branch (off : Nat) (mask val : Word) (target : Nat)
  deriving DecidableEq, Repr

/-- The moves a line stands for, in order (R103). -/
def HostLine.moves : HostLine → List HostMove
  | .command i => [.access (issue i)]
  | .ldi bd imm => [.access (issue (Instr.clr bd)), .wait, .access (issue (.addi bd bd imm))]
  | .wait => [.wait]
  | .w32 off v => [.access (Machine.w32 off v)]
  | .r32 off => [.access (Machine.r32 off)]
  | .ldbig k v => (Machine.ldbig k v).map .access
  | .rdbig k => (rdbigOffsets k).map .keep
  | .ldmsg bytes => (Machine.ldmsg bytes).map .access
  | .feed bytes => (Machine.feed bytes).map .access
  | .br off mask val target => [.branch off mask val target]

/-- The number whose words are given, word 0 (bits 31:0) first (R62). -/
def wordsValue : List Word → Nat
  | [] => 0
  | w :: rest => w.toNat + 2 ^ 32 * wordsValue rest

/-- The host at a point of its program: the line to come after the moves still to make, the last STATUS a WAIT kept, and
the words the last RDBIG has read, word 0 first. -/
structure HostPoint where
  line : Nat
  moves : List HostMove
  status : Word
  words : List Word
  deriving DecidableEq, Repr

/-- The value the last RDBIG has returned: its words reassembled by R62 (R103). Before any RDBIG, and while one is still
reading, it is what the words kept so far give (assumption 23). -/
def HostPoint.big (h : HostPoint) : Big := BitVec.ofNat 4096 (wordsValue h.words)

/-- The words kept at the start of a line: an RDBIG starts anew. -/
def wordsAtStart (line : HostLine) (words : List Word) : List Word :=
  match line with
  | .rdbig _ => []
  | .command _ | .ldi _ _ | .wait | .w32 _ _ | .r32 _ | .ldbig _ _ | .ldmsg _ | .feed _ | .br _ _ _ _ => words

/-- The host goes to line `n`. Past the last line there is nothing to do (R243). -/
def HostPoint.goto (program : List HostLine) (n : Nat) (h : HostPoint) : HostPoint :=
  match program[n]? with
  | some line => { h with line := n + 1, moves := line.moves, words := wordsAtStart line h.words }
  | none => { h with line := n, moves := [] }

/-- The host before the first line. DESIGN CHOICE (assumption 23): R103 gives no `status` before any WAIT and no value of
RDBIG before any RDBIG; the model starts with `status` 0 and no words, so that `HostPoint.big` is 0. -/
def HostPoint.start (program : List HostLine) : HostPoint := HostPoint.goto program 0 ⟨0, [], 0#32, []⟩

/-- One move of the host (R103). With no move left it goes on to its next line; after the last line nothing happens
(R243). DESIGN CHOICE (assumption 22): R103 gives BR the formula (v AND mask) = val and says beside it that mask 0 makes
it unconditional, which agree only for val = 0; for mask 0 and another val the formula is followed, and the host goes to
the next line. -/
def hostMove (program : List HostLine) (h : HostPoint) (s : State) : HostPoint × State :=
  match h.moves with
  | [] => (HostPoint.goto program h.line h, s)
  | .access a :: rest => ({ h with moves := rest }, hostAccess a s)
  | .keep off :: rest =>
    let t := hostAccess (r32 off) s
    ({ h with moves := rest, words := h.words ++ [t.bus.data] }, t)
  | .wait :: rest =>
    let t := hostAccess (r32 0x014) s
    (if t.bus.data.getLsbD 0 then h else { h with moves := rest, status := t.bus.data }, t)
  | .branch off mask val target :: rest =>
    let t := hostAccess (r32 off) s
    (if t.bus.data &&& mask = val then HostPoint.goto program target h else { h with moves := rest }, t)

/-- Who moves next beside a host program: the host, or the machine by an input. -/
inductive HostTurn where
  | host
  | event (e : Event)
  deriving DecidableEq, Repr

/-- A run of a host program beside the machine, by a schedule. -/
def runProgram (program : List HostLine) : List HostTurn → HostPoint → State →
    Host.Outcome (HostPoint × State) Fault Refusal
  | [], h, s => .next (h, s)
  | .host :: rest, h, s => runProgram program rest (hostMove program h s).1 (hostMove program h s).2
  | .event e :: rest, h, s =>
    match takeEvent e s with
    | .next t => runProgram program rest h t
    | .fault f => .fault f
    | .refused r => .refused r

end Sys2Proof.Machine
end

