-- ==== Sys2Proof/Laws/HostProgram.lean ====
section
/-! SUPPORT. RDBIG (spec/30_encoding.md R103): the words of a big value put together are the value (R62), and the 128
host moves of an RDBIG on an idle machine return the register and change nothing but the host's last response. -/

namespace Sys2Proof.Machine

open Sys2Proof.Safety

theorem wordsValue_append (xs ys : List Word) :
    wordsValue (xs ++ ys) = wordsValue xs + 2 ^ (32 * xs.length) * wordsValue ys := by
  induction xs with
  | nil => simp [wordsValue]
  | cons x xs ih =>
    rw [List.cons_append, wordsValue, wordsValue, ih, List.length_cons, Nat.mul_succ, Nat.pow_add]
    ring

/-- The first n words of a big value are its low 32n bits. -/
theorem wordsValue_bigWords (v : Big) (n : Nat) :
    wordsValue ((List.range n).map (bigWord v)) = v.toNat % 2 ^ (32 * n) := by
  induction n with
  | zero => simp [wordsValue, Nat.mod_one]
  | succ n ih =>
    rw [List.range_succ, List.map_append, wordsValue_append, ih, List.length_map, List.length_range, List.map_singleton,
      wordsValue, wordsValue, Nat.mul_zero, Nat.add_zero, bigWord, BitVec.extractLsb'_toNat, Nat.shiftRight_eq_div_pow,
      Nat.mul_succ, Nat.pow_add, Nat.mod_mul]

/-- All 128 words of a big value put together are the value. -/
theorem big_of_words (v : Big) (h : HostPoint) (hw : h.words = (List.range 128).map (bigWord v)) : h.big = v := by
  rw [HostPoint.big, hw, wordsValue_bigWords]
  apply BitVec.eq_of_toNat_eq
  rw [BitVec.toNat_ofNat, Nat.mod_mod, Nat.mod_eq_of_lt v.isLt]

/-- An idle read of word i of Bk. -/
theorem hostAccess_r32_bWord (k : BReg) (i : Nat) (s : State) (hi : i < 128) (hb : busy s = false) :
    hostAccess (r32 (bWordOffset k i)) s = replyData (bigWord s.b[k] i) s := by
  rw [hostAccess_r32 _ _ (by simp only [bWordOffset]; omega), hostRead, place_bWord k i hi]
  exact hiddenRead_idle _ _ hb

theorem runProgram_hosts (program : List HostLine) (n : Nat) (rest : List HostTurn) (h : HostPoint) (s : State) :
    runProgram program (List.replicate n .host ++ rest) h s =
      runProgram program rest ((fun p => hostMove program p.1 p.2)^[n] (h, s)).1
        ((fun p => hostMove program p.1 p.2)^[n] (h, s)).2 := by
  induction n generalizing h s with
  | zero => rfl
  | succ n ih => rw [List.replicate_succ, List.cons_append, runProgram, ih]; rfl

/-- The moves of an RDBIG keep the words from word i on. -/
theorem keep_moves (program : List HostLine) (k : BReg) (m i : Nat) (h : HostPoint) (s : State) (hb : busy s = false)
    (him : i + m = 128) (hm : h.moves = ((List.range' i m).map (bWordOffset k)).map .keep) :
    ∃ r : BusReply, (fun p => hostMove program p.1 p.2)^[m] (h, s) =
      ({ h with moves := [], words := h.words ++ (List.range' i m).map (bigWord s.b[k]) }, { s with bus := r }) := by
  induction m generalizing i h s with
  | zero => exact ⟨s.bus, by rw [List.range'_zero] at hm; simp only [List.map_nil] at hm; simp [← hm]⟩
  | succ m ih =>
    rw [List.range'_succ, List.map_cons, List.map_cons] at hm
    have hstep : hostMove program h s =
        ({ h with moves := ((List.range' (i + 1) m).map (bWordOffset k)).map .keep,
                  words := h.words ++ [bigWord s.b[k] i] }, replyData (bigWord s.b[k] i) s) := by
      rw [hostMove, hm]
      simp only [hostAccess_r32_bWord k i s (by omega) hb]
      rfl
    obtain ⟨r, hr⟩ := ih (i + 1)
      { h with moves := ((List.range' (i + 1) m).map (bWordOffset k)).map .keep, words := h.words ++ [bigWord s.b[k] i] }
      (replyData (bigWord s.b[k] i) s) (show busy (replyData (bigWord s.b[k] i) s) = false from hb) (by omega) rfl
    refine ⟨r, ?_⟩
    rw [Function.iterate_succ_apply, hstep, hr, List.range'_succ, List.map_cons]
    simp [replyData]

/-- RDBIG on an idle machine (R103): after its 128 moves the host holds the register's value. -/
theorem rdbig_returns (program : List HostLine) (n : Nat) (k : BReg) (h : HostPoint) (s : State) (hb : busy s = false)
    (hl : program[n]? = some (.rdbig k)) :
    ∃ (h' : HostPoint) (r : BusReply),
      runProgram program (List.replicate 128 .host) (HostPoint.goto program n h) s = .next (h', { s with bus := r }) ∧
      h'.big = s.b[k] ∧ h'.moves = [] ∧ h'.line = n + 1 ∧ h'.status = h.status := by
  have hg : HostPoint.goto program n h = { h with line := n + 1, moves := (HostLine.rdbig k).moves, words := [] } := by
    rw [HostPoint.goto, hl]; rfl
  obtain ⟨r, hr⟩ := keep_moves program k 128 0 (HostPoint.goto program n h) s hb rfl
    (by rw [hg, ← List.range_eq_range']; rfl)
  refine ⟨{ HostPoint.goto program n h with
      moves := [], words := (HostPoint.goto program n h).words ++ (List.range' 0 128).map (bigWord s.b[k]) },
    r, ?_, big_of_words s.b[k] _ ?_, ?_⟩
  · have hrun := runProgram_hosts program 128 [] (HostPoint.goto program n h) s
    rw [List.append_nil, hr] at hrun
    rw [hrun]; rfl
  · rw [hg, List.range_eq_range']; rfl
  · rw [hg]; exact ⟨rfl, rfl, rfl⟩

end Sys2Proof.Machine
end

