-- ==== Sys2Proof/Laws/PerInstr.lean ====
section
/-! SUPPORT. Statements made per instruction: one lemma per constructor of Instr for each family named in LAWS.json. -/

/-- The opcode field of a command's word is the command's opcode, an assigned one (R95), and bits 31:24 are 0 outside
format I (R92). -/
def Sys2Proof.Laws.EncodedFields.Statement (i : Sys2Proof.Instr) : Prop :=
  Sys2Proof.opcField (Sys2Proof.encode i) = i.opcode ∧ i.opcode.toNat ∈ Sys2Proof.Safety.assignedOpcodes ∧
  (i.opcode = 0x05#8 ∨ i.opcode = 0x06#8 ∨ Sys2Proof.immField (Sys2Proof.encode i) = 0#8)

theorem Sys2Proof.Laws.EncodedFields.nop :
    Sys2Proof.Laws.EncodedFields.Statement (.nop) :=
  ⟨Sys2Proof.opcField_layout .., by simp [Sys2Proof.Instr.opcode, Sys2Proof.Safety.assignedOpcodes], .inr (.inr (Sys2Proof.immField_layout ..))⟩

theorem Sys2Proof.Laws.EncodedFields.mov (rd ra : Sys2Proof.BReg) :
    Sys2Proof.Laws.EncodedFields.Statement (.mov rd ra) :=
  ⟨Sys2Proof.opcField_layout .., by simp [Sys2Proof.Instr.opcode, Sys2Proof.Safety.assignedOpcodes], .inr (.inr (Sys2Proof.immField_layout ..))⟩

theorem Sys2Proof.Laws.EncodedFields.add (rd ra rb : Sys2Proof.BReg) :
    Sys2Proof.Laws.EncodedFields.Statement (.add rd ra rb) :=
  ⟨Sys2Proof.opcField_layout .., by simp [Sys2Proof.Instr.opcode, Sys2Proof.Safety.assignedOpcodes], .inr (.inr (Sys2Proof.immField_layout ..))⟩

theorem Sys2Proof.Laws.EncodedFields.sub (rd ra rb : Sys2Proof.BReg) :
    Sys2Proof.Laws.EncodedFields.Statement (.sub rd ra rb) :=
  ⟨Sys2Proof.opcField_layout .., by simp [Sys2Proof.Instr.opcode, Sys2Proof.Safety.assignedOpcodes], .inr (.inr (Sys2Proof.immField_layout ..))⟩

theorem Sys2Proof.Laws.EncodedFields.mul (rd ra rb : Sys2Proof.BReg) :
    Sys2Proof.Laws.EncodedFields.Statement (.mul rd ra rb) :=
  ⟨Sys2Proof.opcField_layout .., by simp [Sys2Proof.Instr.opcode, Sys2Proof.Safety.assignedOpcodes], .inr (.inr (Sys2Proof.immField_layout ..))⟩

theorem Sys2Proof.Laws.EncodedFields.addi (rd ra : Sys2Proof.BReg) (imm : Sys2Proof.Byte) :
    Sys2Proof.Laws.EncodedFields.Statement (.addi rd ra imm) :=
  ⟨Sys2Proof.opcField_layout .., by simp [Sys2Proof.Instr.opcode, Sys2Proof.Safety.assignedOpcodes], .inl rfl⟩

theorem Sys2Proof.Laws.EncodedFields.subi (rd ra : Sys2Proof.BReg) (imm : Sys2Proof.Byte) :
    Sys2Proof.Laws.EncodedFields.Statement (.subi rd ra imm) :=
  ⟨Sys2Proof.opcField_layout .., by simp [Sys2Proof.Instr.opcode, Sys2Proof.Safety.assignedOpcodes], .inr (.inl rfl)⟩

theorem Sys2Proof.Laws.EncodedFields.cmp (ra rb : Sys2Proof.BReg) :
    Sys2Proof.Laws.EncodedFields.Statement (.cmp ra rb) :=
  ⟨Sys2Proof.opcField_layout .., by simp [Sys2Proof.Instr.opcode, Sys2Proof.Safety.assignedOpcodes], .inr (.inr (Sys2Proof.immField_layout ..))⟩

theorem Sys2Proof.Laws.EncodedFields.gcd (rd ra rb : Sys2Proof.BReg) :
    Sys2Proof.Laws.EncodedFields.Statement (.gcd rd ra rb) :=
  ⟨Sys2Proof.opcField_layout .., by simp [Sys2Proof.Instr.opcode, Sys2Proof.Safety.assignedOpcodes], .inr (.inr (Sys2Proof.immField_layout ..))⟩

theorem Sys2Proof.Laws.EncodedFields.modred (rd ra rn : Sys2Proof.BReg) :
    Sys2Proof.Laws.EncodedFields.Statement (.modred rd ra rn) :=
  ⟨Sys2Proof.opcField_layout .., by simp [Sys2Proof.Instr.opcode, Sys2Proof.Safety.assignedOpcodes], .inr (.inr (Sys2Proof.immField_layout ..))⟩

theorem Sys2Proof.Laws.EncodedFields.modmul (rd ra rb rn : Sys2Proof.BReg) :
    Sys2Proof.Laws.EncodedFields.Statement (.modmul rd ra rb rn) :=
  ⟨Sys2Proof.opcField_layout .., by simp [Sys2Proof.Instr.opcode, Sys2Proof.Safety.assignedOpcodes], .inr (.inr (Sys2Proof.immField_layout ..))⟩

theorem Sys2Proof.Laws.EncodedFields.modexp (rd ra rb rn : Sys2Proof.BReg) :
    Sys2Proof.Laws.EncodedFields.Statement (.modexp rd ra rb rn) :=
  ⟨Sys2Proof.opcField_layout .., by simp [Sys2Proof.Instr.opcode, Sys2Proof.Safety.assignedOpcodes], .inr (.inr (Sys2Proof.immField_layout ..))⟩

theorem Sys2Proof.Laws.EncodedFields.montmul (rd ra rb rn : Sys2Proof.BReg) :
    Sys2Proof.Laws.EncodedFields.Statement (.montmul rd ra rb rn) :=
  ⟨Sys2Proof.opcField_layout .., by simp [Sys2Proof.Instr.opcode, Sys2Proof.Safety.assignedOpcodes], .inr (.inr (Sys2Proof.immField_layout ..))⟩

theorem Sys2Proof.Laws.EncodedFields.modinv (rd ra rn : Sys2Proof.BReg) :
    Sys2Proof.Laws.EncodedFields.Statement (.modinv rd ra rn) :=
  ⟨Sys2Proof.opcField_layout .., by simp [Sys2Proof.Instr.opcode, Sys2Proof.Safety.assignedOpcodes], .inr (.inr (Sys2Proof.immField_layout ..))⟩

theorem Sys2Proof.Laws.EncodedFields.primeq (ra : Sys2Proof.BReg) :
    Sys2Proof.Laws.EncodedFields.Statement (.primeq ra) :=
  ⟨Sys2Proof.opcField_layout .., by simp [Sys2Proof.Instr.opcode, Sys2Proof.Safety.assignedOpcodes], .inr (.inr (Sys2Proof.immField_layout ..))⟩

theorem Sys2Proof.Laws.EncodedFields.genprime (rd : Sys2Proof.BReg) :
    Sys2Proof.Laws.EncodedFields.Statement (.genprime rd) :=
  ⟨Sys2Proof.opcField_layout .., by simp [Sys2Proof.Instr.opcode, Sys2Proof.Safety.assignedOpcodes], .inr (.inr (Sys2Proof.immField_layout ..))⟩

theorem Sys2Proof.Laws.EncodedFields.coprime (rd ra : Sys2Proof.BReg) :
    Sys2Proof.Laws.EncodedFields.Statement (.coprime rd ra) :=
  ⟨Sys2Proof.opcField_layout .., by simp [Sys2Proof.Instr.opcode, Sys2Proof.Safety.assignedOpcodes], .inr (.inr (Sys2Proof.immField_layout ..))⟩

theorem Sys2Proof.Laws.EncodedFields.keygen (rd ra rn : Sys2Proof.BReg) :
    Sys2Proof.Laws.EncodedFields.Statement (.keygen rd ra rn) :=
  ⟨Sys2Proof.opcField_layout .., by simp [Sys2Proof.Instr.opcode, Sys2Proof.Safety.assignedOpcodes], .inr (.inr (Sys2Proof.immField_layout ..))⟩

theorem Sys2Proof.Laws.EncodedFields.enc (ra rn : Sys2Proof.BReg) :
    Sys2Proof.Laws.EncodedFields.Statement (.enc ra rn) :=
  ⟨Sys2Proof.opcField_layout .., by simp [Sys2Proof.Instr.opcode, Sys2Proof.Safety.assignedOpcodes], .inr (.inr (Sys2Proof.immField_layout ..))⟩

theorem Sys2Proof.Laws.EncodedFields.dec (ra rn : Sys2Proof.BReg) :
    Sys2Proof.Laws.EncodedFields.Statement (.dec ra rn) :=
  ⟨Sys2Proof.opcField_layout .., by simp [Sys2Proof.Instr.opcode, Sys2Proof.Safety.assignedOpcodes], .inr (.inr (Sys2Proof.immField_layout ..))⟩
end

