-- ==== Sys2Proof/Tests/Slice0.lean ====
section
/-! SUPPORT. The model's own tests: words written out field by field (spec/30_encoding.md R92, R95, R101), ill-formed terms,
one step on small states with results from spec/95_test_vectors.md, and for every obligation with hypotheses a concrete
state and operands that meet them (witness_…). -/

namespace Sys2Proof.Tests

set_option Elab.async false

open Sys2Proof.Machine Sys2Proof.Safety

/-! ### Helpers -/

/-- The state after an outcome. -/
def after : Host.Outcome State Fault Refusal → State
  | .next s => s
  | .fault _ => State.reset
  | .refused _ => State.reset

/-- Big registers set to values. -/
def regs : List (BReg × Nat) → State → State
  | [], s => s
  | (r, v) :: rest, s => regs rest (writeB r v s)

/-- Host-FIFO mode with one round and the bytes in the FIFO, and a long turn. -/
def fed (bytes : List Byte) (s : State) : State :=
  { s with rngsrc := true, rounds := 1#16, fifo := bytes, pace := 1000 }

/-- Bytes at the start of MSGBUF, and their number in MSGLEN. -/
def message (bytes : List Byte) (s : State) : State :=
  { s with mem := writeBytes s.mem 0x4000 bytes, msglen := BitVec.ofNat 16 bytes.length }

/-- BLKBUF slots from slot 0 on, and their number in NBLOCKS. -/
def blocks (vs : List Nat) (s : State) : State :=
  { s with mem := writeBytes s.mem 0x10000 ((vs.map (BitVec.ofNat 4096)).flatMap bigToBytes),
           nblocks := BitVec.ofNat 16 vs.length }

/-- The key of spec/95 7.1: e in B1, n in B2, d in B3. -/
def key : State := regs [(1, 3), (2, 67591), (3, 44715)] State.reset

/-- The waiting PRIMEQ of spec/95 4.5, with a move of the engine at hand. -/
def waiting : State :=
  { regs [(0, 221)] State.reset with
    cmd := 0x00000020#32, rngsrc := true, rounds := 1#16, phase := .wait (.primeq ⟨221, 1, []⟩) }

/-! ### WellFormed: each check refuses an ill-formed term -/

theorem test_keygen_rd_ra_ill_formed : (Instr.keygen 1 1 2).wellFormed = false := by decide
theorem test_keygen_rd_rn_ill_formed : (Instr.keygen 1 3 1).wellFormed = false := by decide
theorem test_keygen_ra_rn_ill_formed : (Instr.keygen 1 3 3).wellFormed = false := by decide
theorem test_keygen_distinct_well_formed : (Instr.keygen 1 3 2).wellFormed = true := by decide

/-! ### Decoding: IMM8 ++ RN ++ RB ++ RA ++ RD ++ OPC as R92 draws them -/

theorem test_decode_nop : decode (0x00#8 ++ 0xF#4 ++ 0xE#4 ++ 0xD#4 ++ 0xC#4 ++ 0x00#8) = .ok .nop := by decide
theorem test_decode_mov : decode (0x00#8 ++ 0xF#4 ++ 0xE#4 ++ 0x0#4 ++ 0x5#4 ++ 0x01#8) = .ok (.mov 5 0) := by decide
theorem test_decode_add : decode (0x00#8 ++ 0xF#4 ++ 0x3#4 ++ 0x2#4 ++ 0x1#4 ++ 0x02#8) = .ok (.add 1 2 3) := by decide
theorem test_decode_sub : decode (0x00#8 ++ 0xF#4 ++ 0x3#4 ++ 0x2#4 ++ 0x1#4 ++ 0x03#8) = .ok (.sub 1 2 3) := by decide
theorem test_decode_mul : decode (0x00#8 ++ 0x0#4 ++ 0x5#4 ++ 0x4#4 ++ 0x2#4 ++ 0x04#8) = .ok (.mul 2 4 5) := by decide
theorem test_decode_addi : decode (0x0D#8 ++ 0xF#4 ++ 0xE#4 ++ 0x1#4 ++ 0x1#4 ++ 0x05#8) = .ok (.addi 1 1 13#8) := by decide
theorem test_decode_subi : decode (0x01#8 ++ 0x0#4 ++ 0x0#4 ++ 0x4#4 ++ 0x6#4 ++ 0x06#8) = .ok (.subi 6 4 1#8) := by decide
theorem test_decode_cmp : decode (0x00#8 ++ 0xF#4 ++ 0x6#4 ++ 0x5#4 ++ 0xF#4 ++ 0x07#8) = .ok (.cmp 5 6) := by decide
theorem test_decode_gcd : decode (0x00#8 ++ 0x0#4 ++ 0x1#4 ++ 0xA#4 ++ 0x2#4 ++ 0x08#8) = .ok (.gcd 2 10 1) := by decide
theorem test_decode_modred : decode (0x00#8 ++ 0x2#4 ++ 0xF#4 ++ 0x4#4 ++ 0x5#4 ++ 0x10#8) = .ok (.modred 5 4 2) := by decide
theorem test_decode_modmul :
    decode (0x00#8 ++ 0x8#4 ++ 0x3#4 ++ 0x1#4 ++ 0x9#4 ++ 0x11#8) = .ok (.modmul 9 1 3 8) := by decide
theorem test_decode_modexp :
    decode (0x00#8 ++ 0x2#4 ++ 0x1#4 ++ 0x0#4 ++ 0x3#4 ++ 0x12#8) = .ok (.modexp 3 0 1 2) := by decide
theorem test_decode_montmul :
    decode (0x00#8 ++ 0x8#4 ++ 0x3#4 ++ 0x1#4 ++ 0xA#4 ++ 0x13#8) = .ok (.montmul 10 1 3 8) := by decide
theorem test_decode_modinv : decode (0x00#8 ++ 0x8#4 ++ 0xF#4 ++ 0x1#4 ++ 0x3#4 ++ 0x14#8) = .ok (.modinv 3 1 8) := by decide
theorem test_decode_primeq : decode (0x00#8 ++ 0xF#4 ++ 0xF#4 ++ 0x4#4 ++ 0xF#4 ++ 0x20#8) = .ok (.primeq 4) := by decide
theorem test_decode_genprime : decode (0x00#8 ++ 0xF#4 ++ 0xF#4 ++ 0xF#4 ++ 0x7#4 ++ 0x21#8) = .ok (.genprime 7) := by decide
theorem test_decode_coprime : decode (0x00#8 ++ 0xF#4 ++ 0xF#4 ++ 0x8#4 ++ 0x1#4 ++ 0x22#8) = .ok (.coprime 1 8) := by decide
theorem test_decode_keygen : decode (0x00#8 ++ 0x2#4 ++ 0xF#4 ++ 0x3#4 ++ 0x1#4 ++ 0x23#8) = .ok (.keygen 1 3 2) := by decide
theorem test_decode_enc : decode (0x00#8 ++ 0x2#4 ++ 0xF#4 ++ 0x1#4 ++ 0xF#4 ++ 0x30#8) = .ok (.enc 1 2) := by decide
theorem test_decode_dec : decode (0x00#8 ++ 0x2#4 ++ 0x0#4 ++ 0x3#4 ++ 0x0#4 ++ 0x31#8) = .ok (.dec 3 2) := by decide

theorem test_encode_modexp : encode (.modexp 3 0 1 2) = 0x00210312#32 := by decide
theorem test_encode_keygen : encode (.keygen 1 3 2) = 0x00203123#32 := by decide

/-- spec/95 2.18 to 2.20, 6.3: a reserved opcode, bits 31:24 set, aliased destinations. -/
theorem test_decode_rejects :
    decode 0x00000009#32 = .error .reservedOpcode ∧ decode 0x01000002#32 = .error .reservedBits ∧
    decode 0xFF000000#32 = .error .reservedBits ∧ decode 0x00201123#32 = .error .aliasedDestinations := by decide

/-- R101, R102: the assembler spelling, and the two words of LDI b0, 4 (spec/95 P1). -/
theorem test_assembly : (Instr.modexp 3 0 1 2).assembly = "MODEXP b3, b0, b1, b2" := by decide
theorem test_ldi_words : (Instr.ldi 0 4#8).map encode = [0x00000003#32, 0x04000005#32] := by decide

/-! ### One command on a small state (spec/95 sections 2, 3 and 5) -/

/-- 2.17 -/
theorem test_nop : statusWord (after (exec .nop State.reset)) = 0x00000002#32 := by decide +kernel
/-- 2.16 -/
theorem test_mov : readB 5 (after (exec (.mov 5 0) (regs [(0, 7)] State.reset))) = 7 := by decide +kernel
/-- 2.21: the old value is read first. -/
theorem test_add :
    let t := after (exec (.add 1 1 1) (regs [(1, 2 ^ 4095)] State.reset))
    readB 1 t = 0 ∧ flagsWord t.flags = 0x00000003#32 := by decide +kernel
/-- 2.3 -/
theorem test_sub :
    let t := after (exec (.sub 2 0 1) (regs [(0, 3), (1, 5)] State.reset))
    readB 2 t + 2 = bigMod ∧ flagsWord t.flags = 0x00000002#32 := by decide +kernel
/-- 2.7 -/
theorem test_mul :
    let t := after (exec (.mul 2 0 0) (regs [(0, bigMod - 1)] State.reset))
    readB 2 t = 1 ∧ flagsWord t.flags = 0x00000004#32 := by decide +kernel
/-- 2.9 -/
theorem test_addi :
    let t := after (exec (.addi 2 0 5#8) (regs [(0, bigMod - 5)] State.reset))
    readB 2 t = 0 ∧ flagsWord t.flags = 0x00000003#32 := by decide +kernel
/-- 2.10 -/
theorem test_subi :
    let t := after (exec (.subi 2 0 1#8) State.reset)
    readB 2 t + 1 = bigMod ∧ flagsWord t.flags = 0x00000002#32 := by decide +kernel
/-- 2.13: first below second; RES stays. -/
theorem test_cmp :
    flagsWord (after (exec (.cmp 0 1) { regs [(0, 4), (1, 5)] State.reset with flags := ⟨true, false, true, true⟩ })).flags
      = 0x0000000A#32 := by decide +kernel
/-- 2.15 -/
theorem test_gcd : readB 2 (after (exec (.gcd 2 0 1) (regs [(0, 12), (1, 18)] State.reset))) = 6 := by decide +kernel
/-- 3.1 -/
theorem test_modred :
    readB 0 (after (exec (.modred 0 0 1) (regs [(0, bigMod - 1), (1, 1000)] State.reset))) = 335 := by decide +kernel
/-- 3.2 -/
theorem test_modmul :
    readB 3 (after (exec (.modmul 3 0 1 2) (regs [(0, 123456789), (1, 987654321), (2, 1000000007)] State.reset)))
      = 259106859 := by decide +kernel
/-- 3.3 -/
theorem test_modexp :
    readB 3 (after (exec (.modexp 3 0 1 2) (regs [(0, 3), (1, bigMod - 1), (2, 1000)] State.reset))) = 707 := by
  decide +kernel
/-- 3.4 -/
theorem test_montmul :
    readB 3 (after (exec (.montmul 3 0 1 2) (regs [(0, 8), (1, 26), (2, 497)] State.reset))) = 104 := by decide +kernel
theorem test_montmul_even :
    statusWord (after (exec (.montmul 3 0 1 2) (regs [(2, 8)] State.reset))) = 0x00000306#32 := by decide +kernel
/-- 3.5 -/
theorem test_modinv :
    readB 3 (after (exec (.modinv 3 0 2) (regs [(0, 17), (2, 3120)] State.reset))) = 2753 := by decide +kernel
theorem test_modinv_one :
    readB 3 (after (exec (.modinv 3 0 2) (regs [(0, 5), (2, 1), (3, 9)] State.reset))) = 0 := by decide +kernel
/-- 5.1 -/
theorem test_coprime : readB 1 (after (exec (.coprime 1 0) (regs [(0, 30030)] State.reset))) = 17 := by decide +kernel
theorem test_nocoprime :
    statusWord (after (exec (.coprime 1 0) (regs [(0, 2)] State.reset))) = 0x00000706#32 := by decide +kernel

/-! ### Entropy (spec/95 sections 4 and 6) -/

/-- 4.3: 0, 1 and 200 are rejected, 3 is the witness. -/
theorem test_primeq :
    let t := after (exec (.primeq 0) (fed [0#8, 1#8, 200#8, 3#8] (regs [(0, 5)] State.reset)))
    t.flags.res = true ∧ t.rngcount = 4#32 ∧ t.fifo = [] := by decide +kernel
/-- 4.5: the PRIMEQ of 221 waits with STATUS 9. -/
theorem test_primeq_waits :
    statusWord (after (exec (.primeq 0) (fed [] (regs [(0, 221)] State.reset)))) = 0x00000009#32 := by decide +kernel
/-- 6.1 -/
theorem test_genprime :
    let t := after (exec (.genprime 4) { fed [0xC3#8, 0x50#8, 0#8, 2#8, 0#8, 2#8, 0#8, 2#8, 0#8, 2#8, 0#8, 2#8, 7#8] State.reset
      with bitlen := 16#16 })
    readB 4 t = 17239 ∧ t.rngcount = 12#32 ∧ t.fifo = [7#8] := by decide +kernel
theorem test_genprime_short :
    readB 4 (after (exec (.genprime 4) { fed [] State.reset with bitlen := 7#16 })) = 3 := by decide +kernel
/-- 6.2 -/
theorem test_keygen :
    let t := after (exec (.keygen 1 3 2) { fed [0xC3#8, 0x50#8, 0#8, 2#8, 0#8, 2#8, 0#8, 2#8, 0#8, 2#8, 0#8, 2#8,
      0x9A#8, 0x77#8, 0#8, 2#8, 0#8, 2#8, 0#8, 2#8, 0#8, 2#8] State.reset with bitlen := 16#16 })
    readB 1 t = 5 ∧ readB 3 t = 23367833 ∧ readB 2 t = 116863181 ∧ t.rngcount = 22#32 := by decide +kernel
/-- 6.3: p = q is kept. -/
theorem test_keygen_equal_primes :
    let t := after (exec (.keygen 1 3 2) { fed [5#8, 2#8, 2#8, 5#8, 2#8, 2#8] State.reset with bitlen := 8#16 })
    readB 1 t = 3 ∧ readB 3 t = 11 ∧ readB 2 t = 25 := by decide +kernel

/-! ### The codec (spec/95 section 7) -/

/-- 7.1 "Hi" -/
theorem test_enc :
    let t := after (exec (.enc 1 2) (message [0x48#8, 0x69#8] key))
    blkRead t.mem 0 = 37222 ∧ t.nblocks = 1#16 := by decide +kernel
/-- 7.1 "Hi!" and 7.3 n = 256: the second block padded with a space, and chunk size 1. -/
theorem test_enc_slots :
    encSlot 3 67591 2 (paddedMessage (message [0x48#8, 0x69#8, 0x21#8] key).mem 3 4) 1 = 2826 ∧
    chunkSize 256 = 1 ∧ encSlot 3 256 1 (paddedMessage (message [0x78#8] key).mem 1 1) 0 = 0 := by decide +kernel
/-- 7.1 "\x00A": the leading zero moves to the end. -/
theorem test_dec :
    let t := after (exec (.dec 3 2) (blocks [4261] key))
    msgRead t.mem 0 = 0x41#8 ∧ msgRead t.mem 1 = 0x00#8 ∧ t.msglen = 2#16 ∧ t.errcode = .ok := by decide +kernel
/-- 7.1 "ab  " and 7.3: spaces are stripped from the length; bytes that are not ASCII end in DECODE. -/
theorem test_dec_outputs :
    (decWrite [0x61#8, 0x62#8, 0x20#8, 0x20#8] key).msglen = 2#16 ∧
    statusWord (decWrite [0x32#8, 0xD5#8] key) = 0x00000906#32 ∧ powMod 37222 3 67591 = 0x32D5 := by decide +kernel
/-- 7.3: the block 6482 decrypts to a value of three bytes. -/
theorem test_dec_too_wide : powMod 6482 44715 67591 = 66000 ∧ (beBytes 66000).length = 3 := by decide +kernel

/-! ### The host port and resets (spec/95 section 8) -/

/-- 8.3: byte lanes of "Hallo Welt". -/
theorem test_message_words :
    bufferWord (message [0x48#8, 0x61#8, 0x6C#8, 0x6C#8, 0x6F#8, 0x20#8, 0x57#8, 0x65#8, 0x6C#8, 0x74#8] State.reset).mem 0x4004
      = 0x6557206F#32 := by decide +kernel
theorem test_host_reads_register : (hostAccess (r32 0x1400) key).bus = ⟨0x00010807#32, false⟩ := by decide +kernel
/-- 8.2 -/
theorem test_unmapped_read : (hostAccess (r32 0x3000) State.reset).bus = ⟨0#32, true⟩ := by decide +kernel
/-- 8.4: a CMD write during the wait is lost and sets HAZ. -/
theorem test_command_while_busy :
    let t := hostAccess (w32 0x010 0#32) waiting
    t.cmd = 0x00000020#32 ∧ statusWord t = 0x00000019#32 := by decide +kernel
/-- 8.7: a soft reset ends the wait with no completion. -/
theorem test_soft_reset :
    let t := hostAccess (w32 0x00C 1#32) waiting
    statusWord t = 0#32 ∧ readB 0 t = 0 ∧ t.rounds = 128#16 := by decide +kernel
/-- P2: feeding 137 answers the wait, and the engine's next turn shows 221 composite. -/
theorem test_feed_answers :
    let t := after (step (hostAccess (w32 0x034 137#32) waiting))
    t.flags.res = false ∧ statusWord t = 0x00000002#32 ∧ t.rngcount = 1#32 := by decide +kernel

/-- R231: the answer to a request made before a reset is ignored by a PRIMEQ that waits after it; its own is taken. -/
theorem test_late_answer :
    let s := { waiting with rngsrc := false, resets := 1 }
    sourceAnswer 0 (.byte 137#8) s = s ∧ (sourceAnswer 1 (.byte 137#8) s).errcode = .ok ∧
    (sourceAnswer 1 (.byte 137#8) s).phase = .idle ∧ (powerOnReset s).resets = 2 := by decide +kernel

/-- P2: WAIT stays while BUSY = 1 and keeps the STATUS of a completion; BR goes to its target on RNGWAIT = 1. -/
theorem test_host_wait :
    let program := [HostLine.wait]
    let start := HostPoint.start program
    (hostMove program start waiting).1 = start ∧
    (hostMove program start (complete .rng State.reset)).1 = ⟨1, [], 0x00000606#32, []⟩ := by decide
theorem test_host_branch :
    let program := [HostLine.br 0x014 0x8#32 0x0#32 0, .feed [137#8]]
    (hostMove program (HostPoint.start program) waiting).1.moves = [] ∧
    (hostMove program (HostPoint.start program) State.reset).1 = HostPoint.start program := by decide
/-- R62, R103: an RDBIG of B2 starts at 0x01400 with word 0, and the words 5, 0, 1 put together are 5 + 2^64. -/
theorem test_rdbig :
    let start := HostPoint.start [HostLine.rdbig 2]
    start.moves.head? = some (.keep 0x1400) ∧ start.moves.length = 128 ∧ start.moves.getLast? = some (.keep 0x15FC) ∧
    (hostMove [] start key).1.words = [67591#32] ∧ wordsValue [5#32, 0#32, 1#32] = 5 + 2 ^ 64 := by decide +kernel
/-! ### Witnesses: states and operands that meet the hypotheses of the obligations -/

theorem witness_decodeInvertsEncode :
    (Instr.keygen 15 0 14).wellFormed = true ∧ (Instr.addi 15 15 255#8).wellFormed = true := by decide
theorem witness_ignoredFields :
    decode 0x00FE0501#32 = .ok (.mov 5 0) ∧
    (0x00000501#32 : Word) &&& decodedBits (.mov 5 0) = 0x00FE0501#32 &&& decodedBits (.mov 5 0) := by decide
theorem witness_everyWord_illegal : illegalWord 0x09 ∧ illegalWord 0x01000002 ∧ illegalWord 0x00201123 := by
  simp [illegalWord, assignedOpcodes]
theorem witness_everyWord_legal : ¬ illegalWord 0 ∧ ¬ illegalWord 0xFFFFFF06 ∧ ¬ illegalWord 0x00203123 := by
  simp [illegalWord, assignedOpcodes]
theorem witness_stepRunsTheAcceptedCommand :
    (accept 0x00000501#32 State.reset).phase = .run .fetch ∧ decode (accept 0x00000501#32 State.reset).cmd = .ok (.mov 5 0) ∧
    (accept 0x00000501#32 State.reset).inputs = [] ∧
    (accept 0x00000501#32 { State.reset with inputs := [.engine 7] }).inputs = .engine 7 :: [] := by decide
theorem witness_stepTakesTheHostAccess :
    ({ waiting with inputs := [.host (r32 0x014), .powerOn] } : State).inputs = .host (r32 0x014) :: [.powerOn] := rfl
theorem witness_stepRunsThePlacedWord :
    decodeTableWord 32 0x00210312 = some (.modexp 3 0 1 2) ∧ decodeTableWord 32 0x00000023 = none := by decide
theorem witness_anUnansweredCommand : waiting.phase = .wait (.primeq ⟨221, 1, []⟩) ∧ waiting.inputs = [] := by decide
theorem witness_anUnansweredCommand_goesOn :
    ¬ endsTheHold waiting (.host (r32 0x014)) ∧ ¬ endsTheHold waiting (.host (w32 0x010 0#32)) ∧
    ¬ endsTheHold waiting (.host (w32 0x014 0x32#32)) ∧ ¬ endsTheHold waiting (.host (w32 0x00C 0xFFFFFFFE#32)) ∧
    ¬ endsTheHold waiting (.engine 5) ∧ ¬ endsTheHold waiting (.source 0 .failure) ∧
    ¬ endsTheHold { waiting with rngsrc := false } (.host (w32 0x034 0#32)) ∧
    ¬ endsTheHold { waiting with rngsrc := false, resets := 1 } (.source 0 .failure) := by
  simp [endsTheHold, r32, w32, waiting]
theorem witness_anUnansweredCommand_ends :
    endsTheHold waiting .powerOn ∧ endsTheHold waiting (.host (w32 0x00C 1#32)) ∧
    endsTheHold waiting (.host (w32 0x034 0#32)) ∧ endsTheHold { waiting with rngsrc := false } (.source 0 .failure) :=
  ⟨trivial, ⟨rfl, .inl ⟨rfl, rfl⟩⟩, ⟨rfl, .inr ⟨rfl, rfl, by decide⟩⟩, rfl, rfl⟩
theorem witness_turnsMayBeCutAnywhere :
    let s := { fed [174#8] State.reset with phase := .run (.primeq ⟨221, 1, []⟩), inputs := [.engine 0, .engine 3] }
    s.phase = .run (.primeq ⟨221, 1, []⟩) ∧ Work.primeq ⟨221, 1, []⟩ ≠ .fetch ∧ s.inputs = .engine 0 :: .engine 3 :: [] := by
  decide
/-- The turn that executes an accepted PRIMEQ, cut after its first move. -/
theorem witness_turnsMayBeCutAnywhere_executing :
    let s := { accept 0x00000020#32 (fed [174#8] State.reset) with inputs := [.engine 0, .engine 3] }
    s.phase = .run .fetch ∧ decode s.cmd = .ok (.primeq 0) ∧ s.inputs = .engine 0 :: .engine 3 :: [] := by decide
theorem witness_idle_and_busy : busy State.reset = false ∧ busy waiting = true := by decide
theorem witness_pseudoInstructions : readB 2 (regs [(2, 497)] State.reset) ≠ 0 := by decide +kernel
theorem witness_modulus_zero_and_one : readB 2 State.reset = 0 ∧ readB 2 (regs [(2, 1)] State.reset) = 1 := by
  decide +kernel
theorem witness_montmul :
    readB 2 (regs [(2, 8)] State.reset) ≠ 0 ∧ readB 2 (regs [(2, 8)] State.reset) % 2 = 0 ∧
    readB 2 (regs [(2, 1)] State.reset) % 2 = 1 := by decide +kernel
theorem witness_modinv_coprime :
    let s := regs [(0, 10), (2, 7)] State.reset
    2 ≤ readB 2 s ∧ Nat.gcd (readB 0 s % readB 2 s) (readB 2 s) = 1 := by decide +kernel
theorem witness_modinv_not_coprime :
    let s := regs [(0, 0), (2, 2)] State.reset
    2 ≤ readB 2 s ∧ Nat.gcd (readB 0 s % readB 2 s) (readB 2 s) ≠ 1 := by decide +kernel
theorem witness_aRound : 5 ≤ 221 ∧ 221 % 2 = 1 ∧ 221 - 1 = 2 ^ 2 * 55 ∧ 55 % 2 = 1 := by decide
theorem witness_aRound_least : 5 ≤ 5 ∧ 5 % 2 = 1 ∧ 5 - 1 = 2 ^ 2 * 1 ∧ 1 % 2 = 1 := by decide
theorem witness_aPrimeIsNeverRejected : Nat.Prime 7919 := by norm_num
theorem witness_generatedValuesFit :
    generatePrime 2 1 9 (([0xFF, 0xFF, 0, 2, 0, 2, 0, 2, 0, 2] : List Nat).map fun n => .byte (BitVec.ofNat 8 n)) = .done 32771 [] ∧
    generatePrime 0 1 1 [] = .done 3 [] ∧ generatePrime 1 1 3 [.byte 0x7F#8, .byte 2#8, .byte 2#8] = .done 127 [] := by
  decide +kernel
theorem witness_primeqAnswersIsPrime :
    let s := fed [174#8, 9#8] (regs [(0, 221)] State.reset)
    longTurn s ∧ isPrime (readB 0 s) (roundsOf s) (available s) = .done true [.byte 9#8] := by decide +kernel
theorem witness_primeqDecides :
    readB 0 (regs [(0, 3)] State.reset) ≤ 3 ∧ readB 0 (regs [(0, 4)] State.reset) % 2 = 0 ∧
    ({ regs [(0, 5)] State.reset with rounds := 0#16 } : State).rounds = 0#16 := by decide +kernel
theorem witness_genprime :
    let s := { fed [0x12#8, 0x34#8, 0#8, 2#8, 0#8, 2#8, 0#8, 2#8] State.reset with bitlen := 16#16 }
    longTurn s ∧ s.bitlen.toNat / 8 ≤ 512 ∧ generatePrimeOf s (available s) = .done 4663 [] := by decide +kernel
theorem witness_keygen :
    let s := { fed [5#8, 2#8, 2#8, 7#8, 2#8, 2#8] State.reset with bitlen := 8#16 }
    longTurn s ∧ distinctDestinations 1 3 2 ∧ s.bitlen.toNat / 8 ≤ 256 ∧
    generatePrimeOf s (available s) = .done 5 [.byte 7#8, .byte 2#8, .byte 2#8] ∧
    generatePrimeOf s [.byte 7#8, .byte 2#8, .byte 2#8] = .done 7 [] := by decide +kernel
theorem witness_generationCapacity :
    512 < ({ State.reset with bitlen := 4104#16 } : State).bitlen.toNat / 8 ∧ ¬ distinctDestinations 1 1 2 ∧
    distinctDestinations 1 3 2 ∧ 256 < ({ State.reset with bitlen := 2056#16 } : State).bitlen.toNat / 8 := by decide
theorem witness_aFailedDraw_primeq :
    let s := { regs [(0, 221)] State.reset with source := [some .failure], pace := 100 }
    longTurn s ∧ isPrime (readB 0 s) (roundsOf s) (available s) = .failed [] := by decide +kernel
theorem witness_aFailedDraw_genprime :
    let s := { State.reset with source := [some (.byte 5#8), some .failure], pace := 100, bitlen := 8#16 }
    longTurn s ∧ s.bitlen.toNat / 8 ≤ 512 ∧ generatePrimeOf s (available s) = .failed [] := by decide +kernel
/-- The failure is the second prime's. -/
theorem witness_aFailedDraw_keygen :
    let s := { State.reset with source := [some (.byte 1#8), some .failure], pace := 100, bitlen := 8#16 }
    longTurn s ∧ distinctDestinations 1 3 2 ∧ s.bitlen.toNat / 8 ≤ 256 ∧
    (generatePrimeOf s (available s)).bind (fun _ l => generatePrimeOf s l) = .failed [] := by decide +kernel
theorem witness_aDrawWithNoAnswer :
    let s := { regs [(0, 5)] State.reset with source := [none, some .failure], pace := 1 }
    available s = [] ∧ 1 ≤ s.pace ∧ 5 ≤ readB 0 s ∧ readB 0 s % 2 = 1 ∧ s.rounds ≠ 0#16 := by decide +kernel
/-- A later draw: the second byte of a candidate, with no input and with an engine turn. -/
theorem witness_aDrawWithNoAnswer_later :
    let s := { State.reset with phase := .run (.genprime 4 (.draw [1#8])), inputs := [.engine 3] }
    available s = [] ∧ s.phase = .run (.genprime 4 (.draw [1#8])) ∧
    workWants (primeBytes s) (.genprime 4 (.draw [1#8])) = true ∧ s.inputs = .engine 3 :: [] ∧ State.reset.inputs = [] := by
  decide
theorem witness_aDrawWithNoAnswer_first :
    available State.reset = [] ∧ 1 ≤ State.reset.bitlen.toNat / 8 ∧ State.reset.bitlen.toNat / 8 ≤ 256 ∧
    distinctDestinations 1 3 2 := by decide
theorem primeq_answers_next (ra : BReg) (s : State) : exec (.primeq ra) s = .next (after (exec (.primeq ra) s)) := rfl
/-- A PRIMEQ of 221 that has drawn 0 (no witness) and waits for the next byte, from either source. -/
theorem witness_waitingChangesNoResult_host :
    let s := fed [0#8] (regs [(0, 221)] State.reset)
    exec (.primeq 0) s = .next (after (exec (.primeq 0) s)) ∧
    (after (exec (.primeq 0) s)).phase = .wait (.primeq ⟨221, 1, []⟩) ∧ s.rngsrc = true :=
  ⟨primeq_answers_next _ _, by decide +kernel, rfl⟩
theorem witness_waitingChangesNoResult_source :
    let s := { regs [(0, 221)] State.reset with source := [some (.byte 0#8), none, some (.byte 7#8)], pace := 9 }
    exec (.primeq 0) s = .next (after (exec (.primeq 0) s)) ∧
    (after (exec (.primeq 0) s)).phase = .wait (.primeq ⟨221, 128, []⟩) ∧ s.rngsrc = false ∧
    answeredWith .failure s.source = [some (.byte 0#8), some .failure, some (.byte 7#8)] :=
  ⟨primeq_answers_next _ _, by decide +kernel, rfl, rfl⟩
/-- A turn of a running PRIMEQ, an answer to a waiting one, and a step with no input and with an engine turn. -/
theorem witness_laterMoves :
    let s := { fed [174#8] State.reset with phase := .run (.primeq ⟨221, 1, []⟩) }
    (LaterMove s (after (engineTurn s)) ∧ LaterMove waiting (sourceAnswer 0 .failure waiting)) ∧
    (CommandMove State.reset (complete .ok State.reset) ∧ step State.reset = .next State.reset ∧
      State.reset.inputs.head? = none) :=
  ⟨⟨.inl rfl, .inr ⟨_, _, rfl⟩⟩, .inl ⟨.nop, rfl⟩, rfl, rfl⟩
theorem witness_theSourceAnswers (a : Answer) :
    let s := { waiting with rngsrc := false, inputs := [.source 0 a] }
    s.inputs = .source s.resets a :: [] ∧ s.phase = .wait (.primeq ⟨221, 1, []⟩) ∧ s.rngsrc = false ∧ rngwait State.reset = false := by
  exact ⟨rfl, rfl, rfl, rfl⟩
theorem witness_coprime : 3 ≤ readB 0 (regs [(0, 3)] State.reset) ∧ readB 0 (regs [(0, 2)] State.reset) ≤ 2 := by
  decide +kernel
/-- The longest message for k = 2: 256 bytes, 128 blocks. -/
theorem witness_enc :
    let s := { key with msglen := 256#16 }
    256 ≤ readB 2 s ∧ byteLength (readB 2 s) - 1 = 2 ∧ s.msglen.toNat ≤ 8192 ∧ max 1 ((s.msglen.toNat + 2 - 1) / 2) ≤ 128 := by
  decide +kernel
theorem witness_codecChecks :
    let s := regs [(2, 255)] State.reset
    let l := { regs [(2, 256)] State.reset with msglen := 8193#16, nblocks := 129#16 }
    let m := { regs [(2, 256 ^ 65)] State.reset with nblocks := 128#16 }
    (1 ≤ readB 2 s ∧ readB 2 s ≤ 255) ∧ (256 ≤ readB 2 l ∧ 8192 < l.msglen.toNat ∧ 128 < l.nblocks.toNat) ∧
    (256 ≤ readB 2 m ∧ ¬ 128 < m.nblocks.toNat ∧ 8192 < m.nblocks.toNat * (byteLength (readB 2 m) - 1)) := by
  decide +kernel
theorem witness_codecChecks_blocks :
    let s := { regs [(2, 256)] State.reset with msglen := 129#16 }
    256 ≤ readB 2 s ∧ ¬ 8192 < s.msglen.toNat ∧
    128 < max 1 ((s.msglen.toNat + (byteLength (readB 2 s) - 1) - 1) / (byteLength (readB 2 s) - 1)) := by decide +kernel
/-- Stored slots are what DEC reads. -/
theorem blocks_blkRead (vs : List Nat) (s : State) (i : Nat) (hi : i < vs.length) :
    blkRead (blocks vs s).mem i = (BitVec.ofNat 4096 vs[i]).toNat := by
  have h := blkRead_slots s.mem (vs.map (BitVec.ofNat 4096)) i (by simpa using hi)
  rw [List.getElem_map] at h; exact h
/-- DEC of 37222 fits its slot with the right d in B3 and with the wrong one in B1, which gives bytes that are not ASCII. -/
theorem witness_dec :
    let s := blocks [37222] key
    256 ≤ readB 2 s ∧ s.nblocks.toNat = 1 ∧ byteLength (readB 2 s) - 1 = 2 ∧ blkRead s.mem 0 = 37222 ∧
    byteLength (powMod 37222 (readB 3 s) (readB 2 s)) ≤ 2 ∧ byteLength (powMod 37222 (readB 1 s) (readB 2 s)) ≤ 2 := by
  refine ⟨?_, ?_, ?_, (blocks_blkRead _ _ 0 (by decide)).trans ?_, ?_⟩ <;> decide +kernel
theorem witness_dec_no_blocks : (blocks [] key).nblocks.toNat = 0 ∧ 256 ≤ readB 2 (blocks [] key) := by decide +kernel
theorem witness_decwide :
    let s := blocks [37222, 6482] key
    256 ≤ readB 2 s ∧ s.nblocks.toNat = 2 ∧ byteLength (readB 2 s) - 1 = 2 ∧ blkRead s.mem 1 = 6482 ∧
    2 < byteLength (powMod 6482 (readB 3 s) (readB 2 s)) := by
  refine ⟨?_, ?_, ?_, (blocks_blkRead _ _ 1 (by decide)).trans ?_, ?_⟩ <;> decide +kernel
theorem witness_decInvertsEnc_key :
    Nat.Prime 257 ∧ Nat.Prime 263 ∧ (257 : Nat) ≠ 263 ∧ 67591 = 257 * 263 ∧ 3 * 44715 % ((257 - 1) * (263 - 1)) = 1 := by
  norm_num
theorem witness_decInvertsEnc_message :
    let s := message [0x48#8, 0x69#8, 0x21#8] key
    readB 2 s = 67591 ∧ readB 1 s = 3 ∧ readB 3 s = 44715 ∧ byteLength 67591 - 1 = 2 ∧ s.msglen.toNat = 3 ∧
    max 1 ((3 + 2 - 1) / 2) = 2 ∧ (∀ i < 2, msgRead s.mem (i * 2) ≠ 0x00#8) ∧ msgRead s.mem (3 - 1) ≠ 0x20#8 ∧
    (∀ j < 3, (msgRead s.mem j).toNat < 0x80) := by decide +kernel
theorem witness_decInvertsEnc_empty : (message [] key).msglen.toNat = 0 := by decide +kernel
theorem witness_commandsAnswerNext : exec .nop State.reset = .next (complete .ok State.reset) := rfl
theorem witness_onlyListedCommandsWriteFlags :
    writesFlags (.gcd 0 0 0) = false ∧ (∀ ra, Instr.cmp 0 0 ≠ .primeq ra) ∧ Instr.primeq 0 = .primeq 0 := by decide
theorem witness_errorCompletions :
    exec (.modred 0 0 0) State.reset = .next (complete .modzero State.reset) ∧
    (complete .modzero State.reset).phase = .idle ∧ (complete .modzero State.reset).errcode ≠ .ok ∧
    (complete .modzero State.reset).errcode ≠ .decode ∧ (complete .modzero State.reset).errcode ≠ .decwide := by
  exact ⟨congrArg _ (if_pos (by decide +kernel)), by decide⟩
/-- The moves of witness_waitingChangesNoResult_host and of an engine turn in WAIT leave BUSY = 1. -/
theorem witness_nothingIsWrittenBeforeCompletion :
    let s := fed [0#8] (regs [(0, 221)] State.reset)
    CommandMove s (after (exec (.primeq 0) s)) ∧ busy (after (exec (.primeq 0) s)) = true ∧
    CommandMove waiting waiting ∧ busy waiting = true :=
  ⟨.inl ⟨_, primeq_answers_next _ _⟩, by decide +kernel, .inr (.inl rfl), rfl⟩
theorem witness_errorCompletions_later :
    let s := { waiting with rngsrc := false }
    busy s = true ∧ LaterMove s (complete .rng s) ∧ (complete .rng s).phase = .idle ∧ (complete .rng s).errcode = .rng :=
  ⟨rfl, .inr ⟨0, .failure, rfl⟩, rfl, rfl⟩
theorem witness_everyStepKeepsTheInvariant : Inv waiting ∧ step waiting = .next waiting where
  left :=
    { fifoFits := by decide
      memoryWf := by decide
      doneIdle := by decide
      errorIdle := by decide
      waitAsks := fun w h => by cases h; rfl
      waitEmpty := fun _ _ _ => rfl
      runsCommand := fun w h => by rcases h with h | h <;> cases h; exact ⟨0, by decide⟩
      generations := by decide }
  right := rfl
theorem witness_buffer_offsets :
    (0x4000 % 4 = 0 ∧ 0x5FFC % 4 = 0 ∧ 0x5FFC < 0x6000) ∧ (0x10000 % 4 = 0 ∧ 0x1FFFC % 4 = 0 ∧ 0x1FFFC < 0x20000) := by
  decide
theorem witness_refused :
    Width.w8 ≠ .w32 ∧ 0x002 % 4 ≠ 0 ∧ ¬ mapped 0x100 ∧ ¬ mapped 0x0FFC ∧ ¬ mapped 0x3000 ∧ ¬ mapped 0x6000 ∧
    ¬ mapped 0x20000 ∧ 0x040 < 0x100 ∧ 0x0FC % 4 = 0 := by decide
theorem witness_mapped :
    mapped 0 ∧ mapped 0xFC ∧ mapped 0x1000 ∧ mapped 0x2FFC ∧ mapped 0x4000 ∧ mapped 0x5FFC ∧ mapped 0x10000 ∧
    mapped 0x1FFFC := by decide
theorem witness_theBusyLock :
    busy waiting = true ∧ lockedOffset 0x1000 ∧ lockedOffset 0x1FFFC ∧ lockedOffset 0x020 ∧ lockedOffset 0x030 ∧
    hiddenOffset 0x2FFC ∧ hiddenOffset 0x4000 := by decide
theorem witness_rngdata :
    waiting.fifo.length < 64 ∧ waiting.phase = .wait (.primeq ⟨221, 1, []⟩) ∧ waiting.rngsrc = true ∧
    rngwait State.reset = false ∧ 64 ≤ ({ State.reset with fifo := List.replicate 64 0#8 } : State).fifo.length := by decide
theorem witness_powerOn : ({ waiting with inputs := [.powerOn] } : State).inputs = .powerOn :: [] := rfl
theorem witness_softReset :
    (1#32 : Word).getLsbD 0 = true ∧ (0xFFFFFFFE#32 : Word).getLsbD 0 = false ∧
    busy (accept 0x00201030#32 key) = true ∧ decode (accept 0x00201030#32 key).cmd = .ok (.enc 1 2) ∧
    decode (accept 0x00203031#32 key).cmd = .ok (.dec 3 2) ∧ busy waiting = true ∧
    decode waiting.cmd = .ok (.primeq 0) := by decide +kernel

end Sys2Proof.Tests
end

section
/-! What one step does, said once: with no input the engine has the turn, an input takes effect once it is off the list,
and a fetching engine runs the word in CMD. -/

namespace Sys2Proof.Machine

theorem step_of_inputs_nil {s : State} (h : s.inputs = []) : step s = engineTurn s := by
  simp only [step, nextMove, h]

theorem step_of_inputs_cons {s : State} {e : Event} {rest : List Event} (h : s.inputs = e :: rest) :
    step s = takeEvent e { s with inputs := rest } := by
  simp only [step, nextMove, h]

theorem takeEvent_host (a : Access) (s : State) : takeEvent (.host a) s = .next (hostAccess a s) := rfl

theorem takeEvent_engine (pace : Nat) (s : State) :
    takeEvent (.engine pace) s = engineTurn { s with pace := pace } := rfl

theorem executeWord_of_decode_ok {w : Word} {i : Instr} (h : decode w = .ok i) (s : State) :
    executeWord w s = exec i s := by
  simp only [executeWord, h]

theorem engineTurn_of_fetch {s : State} (h : s.phase = .run .fetch) : engineTurn s = executeWord s.cmd s := by
  simp only [engineTurn, h]

/-- R96, R201. -/
theorem engineTurn_runs_decoded {s : State} {i : Instr} (hp : s.phase = .run .fetch) (hd : decode s.cmd = .ok i) :
    engineTurn s = exec i s := by
  rw [engineTurn_of_fetch hp, executeWord_of_decode_ok hd]

/-- Settles O5, by the turn of a fetching engine (`engineTurn_runs_decoded`) and the step's two sources of moves: an
empty list of inputs and its head. -/
theorem stepRunsTheAcceptedCommandOrTakesTheHostAccess :
    Obligations.StepRunsTheAcceptedCommandOrTakesTheHostAccess := by
  intro s
  refine ⟨fun i hp hd => ⟨fun hnil => ?noInput, fun pace rest hcons => ?engine⟩, fun a rest hcons => ?host⟩
  case noInput => rw [step_of_inputs_nil hnil, engineTurn_runs_decoded hp hd]
  case engine =>
    -- taking the turn off the inputs and noting its pace leaves the phase and CMD as they were
    rw [step_of_inputs_cons hcons, takeEvent_engine]
    exact engineTurn_runs_decoded hp hd
  case host => rw [step_of_inputs_cons hcons, takeEvent_host]

end Sys2Proof.Machine
end

section
/-! One move of PRIMEQ, GENPRIME or KEYGEN, and by it any run of moves, said once by the working value: the command has
completed, runs on or waits, and of its flags only RES of PRIMEQ has changed
(spec/10_state.md R48, spec/42_prime.md R150). -/

namespace Sys2Proof.Machine

open Sys2Proof.Laws Sys2Proof.Safety

/-- The working values that one command passes through (R44, R45). -/
inductive SameCommand : Work → Work → Prop where
  | primeq (w w' : Witness) : SameCommand (.primeq w) (.primeq w')
  | genprime (rd : BReg) (g g' : Gen) : SameCommand (.genprime rd g) (.genprime rd g')
  | keygenP (rd ra rn : BReg) (g g' : Gen) : SameCommand (.keygenP rd ra rn g) (.keygenP rd ra rn g')
  | secondPrime (rd ra rn : BReg) (g : Gen) (p : Nat) (g' : Gen) :
      SameCommand (.keygenP rd ra rn g) (.keygenQ rd ra rn p g')
  | keygenQ (rd ra rn : BReg) (p : Nat) (g g' : Gen) : SameCommand (.keygenQ rd ra rn p g) (.keygenQ rd ra rn p g')

theorem SameCommand.refl {w : Work} (hw : w ≠ .fetch) : SameCommand w w := by
  cases w with
  | fetch => exact absurd rfl hw
  | primeq w => exact .primeq w w
  | genprime rd g => exact .genprime rd g g
  | keygenP rd ra rn g => exact .keygenP rd ra rn g g
  | keygenQ rd ra rn p g => exact .keygenQ rd ra rn p g g

theorem SameCommand.trans {w w' w'' : Work} (h : SameCommand w w') (k : SameCommand w' w'') : SameCommand w w'' := by
  cases h with
  | primeq w _ => cases k with | primeq _ w' => exact .primeq w w'
  | genprime rd g _ => cases k with | genprime _ _ g' => exact .genprime rd g g'
  | keygenP rd ra rn g _ =>
    cases k with
    | keygenP _ _ _ _ g' => exact .keygenP rd ra rn g g'
    | secondPrime _ _ _ _ p g' => exact .secondPrime rd ra rn g p g'
  | secondPrime rd ra rn g p _ => cases k with | keygenQ _ _ _ _ _ g' => exact .secondPrime rd ra rn g p g'
  | keygenQ rd ra rn p g _ => cases k with | keygenQ _ _ _ _ _ g' => exact .keygenQ rd ra rn p g g'

theorem SameCommand.ne_fetch {w w' : Work} (h : SameCommand w w') : w' ≠ .fetch := by
  cases h <;> simp

theorem SameCommand.ne_primeq {w w' : Work} (h : SameCommand w w') (hw : ∀ x, w ≠ .primeq x) : ∀ x, w' ≠ .primeq x := by
  cases h with
  | primeq w _ => exact absurd rfl (hw w)
  | _ => simp

theorem SameCommand.commandOf {x : Word} {w w' : Work} (h : SameCommand w w') (hc : commandOf x w) :
    commandOf x w' := by
  cases h <;> exact hc

/-- What the moves of the command with working value `w` leave of FLAGS: Z, C and V, and RES but for PRIMEQ (R48). -/
structure KeepsFlags (w : Work) (f f' : Flags) : Prop where
  z : f'.z = f.z
  c : f'.c = f.c
  v : f'.v = f.v
  all : (∀ x, w ≠ .primeq x) → f' = f

theorem KeepsFlags.refl (w : Work) (f : Flags) : KeepsFlags w f f := ⟨rfl, rfl, rfl, fun _ => rfl⟩

theorem KeepsFlags.trans {w w' : Work} {f f' f'' : Flags} (h : KeepsFlags w f f') (hs : SameCommand w w')
    (k : KeepsFlags w' f' f'') : KeepsFlags w f f'' :=
  ⟨k.z.trans h.z, k.c.trans h.c, k.v.trans h.v, fun hw => (k.all (hs.ne_primeq hw)).trans (h.all hw)⟩

/-- Where moves from `s` have brought the command with working value `w`. -/
inductive MovesTo (w : Work) (s t : State) : Prop where
  | completed (phase : t.phase = .idle) (done : t.done = true)
  | running (w' : Work) (same : SameCommand w w') (phase : t.phase = .run w') (done : t.done = s.done)
      (errcode : t.errcode = s.errcode)
  | waiting (w' : Work) (same : SameCommand w w') (phase : t.phase = .wait w') (done : t.done = s.done)
      (errcode : t.errcode = s.errcode) (asks : workWants (primeBytes t) w' = true)
      (empty : t.rngsrc = true → t.fifo = [])

/-- Moves of the command with working value `w`, beside `MoveKeeps` and `MoveWrites`. -/
structure Moves (w : Work) (s t : State) : Prop where
  fifo : t.fifo.length ≤ s.fifo.length
  flags : KeepsFlags w s.flags t.flags
  leads : MovesTo w s t

theorem moves_complete (w : Work) (c : ErrorCode) (s : State) : Moves w s (complete c s) :=
  ⟨le_rfl, .refl _ _, .completed rfl rfl⟩

theorem moves_run {w w' : Work} (h : SameCommand w w') (s : State) : Moves w s { s with phase := .run w' } :=
  ⟨le_rfl, .refl _ _, .running w' h rfl rfl rfl⟩

/-- Moves may start from any state with the same flags, DONE and ERRCODE whose host FIFO is no shorter. -/
theorem Moves.of_start {w : Work} {s s' t : State} (h : Moves w s' t) (hf : s'.fifo.length ≤ s.fifo.length)
    (hg : s'.flags = s.flags) (hd : s'.done = s.done) (he : s'.errcode = s.errcode) : Moves w s t where
  fifo := h.fifo.trans hf
  flags := hg ▸ h.flags
  leads := by
    cases h.leads with
    | completed phase done => exact .completed phase done
    | running w' same phase done errcode => exact .running w' same phase (done.trans hd) (errcode.trans he)
    | waiting w' same phase done errcode asks empty =>
      exact .waiting w' same phase (done.trans hd) (errcode.trans he) asks empty

/-- Moves of a command that runs on are followed by its further moves. -/
theorem Moves.trans {w w' : Work} {s t u : State} (h : Moves w s t) (same : SameCommand w w') (done : t.done = s.done)
    (errcode : t.errcode = s.errcode) (k : Moves w' t u) : Moves w s u where
  fifo := k.fifo.trans h.fifo
  flags := h.flags.trans same k.flags
  leads := by
    cases k.leads with
    | completed phase done' => exact .completed phase done'
    | running w'' same' phase done' errcode' =>
      exact .running w'' (same.trans same') phase (done'.trans done) (errcode'.trans errcode)
    | waiting w'' same' phase done' errcode' asks empty =>
      exact .waiting w'' (same.trans same') phase (done'.trans done) (errcode'.trans errcode) asks empty

/-! ### One move -/

theorem primeqVerdict_moves (w : Witness) (v : Verdict) (s : State) : Moves (.primeq w) s (primeqVerdict v s) := by
  have hres : ∀ r, KeepsFlags (.primeq w) s.flags (resFlags r s.flags) := fun r =>
    ⟨rfl, rfl, rfl, fun h => absurd rfl (h w)⟩
  cases v with
  | yes => exact ⟨le_rfl, hres true, .completed rfl rfl⟩
  | no => exact ⟨le_rfl, hres false, .completed rfl rfl⟩
  | ask w' => exact moves_run (.primeq w w') s

theorem genprimeStep_moves (rd : BReg) (g : Gen) (v : GenStep) (s : State) :
    Moves (.genprime rd g) s (genprimeStep rd v s) := by
  cases v with
  | found c => exact ⟨le_rfl, .refl _ _, .completed rfl rfl⟩
  | more g' => exact moves_run (.genprime rd g g') s

theorem keygenPStep_moves (rd ra rn : BReg) (g : Gen) (v : GenStep) (s : State) :
    Moves (.keygenP rd ra rn g) s (keygenPStep rd ra rn v s) := by
  cases v with
  | found p => exact moves_run (.secondPrime rd ra rn g p _) s
  | more g' => exact moves_run (.keygenP rd ra rn g g') s

theorem keygenFinish_moves (w : Work) (rd ra rn : BReg) (p q : Nat) (s : State) :
    Moves w s (keygenFinish rd ra rn p q s) := by
  unfold keygenFinish
  split
  · exact moves_complete w _ s
  · exact ⟨le_rfl, .refl _ _, .completed rfl rfl⟩

theorem keygenQStep_moves (rd ra rn : BReg) (p : Nat) (g : Gen) (v : GenStep) (s : State) :
    Moves (.keygenQ rd ra rn p g) s (keygenQStep rd ra rn p v s) := by
  cases v with
  | found q => exact keygenFinish_moves _ rd ra rn p q s
  | more g' => exact moves_run (.keygenQ rd ra rn p g g') s

theorem workFeed_moves (b : Byte) {w : Work} (hw : w ≠ .fetch) (s : State) : Moves w s (workFeed b w s) := by
  cases w with
  | fetch => exact absurd rfl hw
  | primeq w => exact primeqVerdict_moves w _ s
  | genprime rd g => exact genprimeStep_moves rd g _ s
  | keygenP rd ra rn g => exact keygenPStep_moves rd ra rn g _ s
  | keygenQ rd ra rn p g => exact keygenQStep_moves rd ra rn p g _ s

theorem workQuiet_moves {k : Nat} {w : Work} (hw : w ≠ .fetch) (hq : workWants k w = false) (s : State) :
    Moves w s (workQuiet w s) := by
  cases w with
  | fetch => exact absurd rfl hw
  | primeq w => simp [workWants] at hq
  | genprime rd g => exact genprimeStep_moves rd g _ s
  | keygenP rd ra rn g => exact keygenPStep_moves rd ra rn g _ s
  | keygenQ rd ra rn p g => exact keygenQStep_moves rd ra rn p g _ s

/-- nextByte() takes an answer that is ready, or is held; in host-FIFO mode it is held by an empty FIFO only. -/
theorem nextByte_cases (s : State) :
    (∃ b, nextByte s = .byte b (afterDraws 1 1 s)) ∨ nextByte s = .failed (afterDraws 1 0 s) ∨
    ∃ l, (s.rngsrc = true → s.fifo = []) ∧ nextByte s = .held { s with source := l } := by
  cases h : available s with
  | nil =>
    obtain ⟨l, hl⟩ := nextByte_held s h
    exact .inr (.inr ⟨l, fun hr => by simpa [available, hr] using h, hl⟩)
  | cons a l =>
    cases a with
    | byte b => exact .inl ⟨b, nextByte_byte s b l h⟩
    | failure => exact .inr (.inl (nextByte_failure s l h))

theorem afterDraws_fifo_length_le (m n : Nat) (s : State) : (afterDraws m n s).fifo.length ≤ s.fifo.length := by
  simp only [afterDraws]
  split
  · exact (List.drop_sublist _ _).length_le
  · exact le_rfl

theorem workDraw_moves {w : Work} (hw : w ≠ .fetch) (s : State) (ha : workWants (primeBytes s) w = true) :
    Moves w s (workDraw w s) := by
  rcases nextByte_cases s with ⟨b, h⟩ | h | ⟨l, hempty, h⟩ <;> simp only [workDraw, h]
  · exact (workFeed_moves b hw _).of_start (afterDraws_fifo_length_le 1 1 s) rfl rfl rfl
  · exact (moves_complete w .rng _).of_start (afterDraws_fifo_length_le 1 0 s) rfl rfl rfl
  · exact ⟨le_rfl, .refl _ _, .waiting w (.refl hw) rfl rfl rfl ha hempty⟩

theorem engineMove_moves {w : Work} (hw : w ≠ .fetch) (s : State) : Moves w s (engineMove w s) := by
  unfold engineMove
  split
  case isTrue ha => exact workDraw_moves hw s ha
  case isFalse hq => exact workQuiet_moves hw (Bool.eq_false_iff.mpr hq) s

/-! ### Runs of moves, and an answer -/

theorem runMoves_moves (n : Nat) {w : Work} {s : State} (hw : w ≠ .fetch) (hp : s.phase = .run w) :
    Moves w s (runMoves n s) := by
  induction n generalizing w s with
  | zero => exact ⟨le_rfl, .refl _ _, .running w (.refl hw) hp rfl rfl⟩
  | succ n ih =>
    rw [runMoves_run n s w hw hp]
    have h := engineMove_moves hw s
    cases h.leads with
    | completed phase _ => rwa [runMoves_idle n _ phase]
    | waiting w' _ phase => rwa [runMoves_wait n _ w' phase]
    | running w' same phase done errcode => exact h.trans same done errcode (ih same.ne_fetch phase)

/-- The moves of a command that begins with working value `w`. -/
theorem runMoves_start_moves (n : Nat) {w : Work} (hw : w ≠ .fetch) (s : State) :
    Moves w s (runMoves n { s with phase := .run w }) :=
  (runMoves_moves n (s := { s with phase := .run w }) hw rfl).of_start le_rfl rfl rfl rfl

theorem runMoves_start_keeps (n : Nat) (w : Work) (s : State) :
    MoveKeeps s (runMoves n { s with phase := .run w }) ∧ MoveWrites s (runMoves n { s with phase := .run w }) := by
  have start : MoveKeeps s { s with phase := .run w } := ⟨by constructor <;> rfl, rfl, rfl, rfl, rfl⟩
  obtain ⟨k, h⟩ := runMoves_keeps n { s with phase := .run w }
  exact ⟨start.trans k, h⟩

/-- An answer of the external source is ignored, or is what the waiting command's draw comes to. -/
theorem sourceAnswer_cases (asked : Nat) (a : Answer) (s : State) :
    sourceAnswer asked a s = s ∨
    ∃ w, s.phase = .wait w ∧ (sourceAnswer asked a s = complete .rng s ∨
      ∃ b, sourceAnswer asked a s = workFeed b w (countByte { s with phase := .run w })) := by
  cases hp : s.phase with
  | idle => exact .inl (by simp [sourceAnswer, hp])
  | run w => exact .inl (by simp [sourceAnswer, hp])
  | wait w =>
    by_cases hi : s.rngsrc = true ∨ asked ≠ s.resets
    · exact .inl (by simp only [sourceAnswer, hp, if_pos hi])
    · cases a with
      | failure => exact .inr ⟨w, rfl, .inl (by simp only [sourceAnswer, hp, if_neg hi, raise_eq])⟩
      | byte b => exact .inr ⟨w, rfl, .inr ⟨b, by simp only [sourceAnswer, hp, if_neg hi]⟩⟩

end Sys2Proof.Machine
end

section
/-! What the execution of a command can leave, said once for all 20 commands: a completion that has written registers
and flags by R48, a completion that has stored to the buffers, or the moves of a command that draws entropy. -/

namespace Sys2Proof.Machine

open Sys2Proof.Laws Sys2Proof.Safety

/-- What command `i` may make of FLAGS (R48). -/
structure FlagsRule (i : Instr) (f f' : Flags) : Prop where
  unlisted : writesFlags i = false → f' = f
  res : (∀ ra, i ≠ .primeq ra) → f'.res = f.res
  primeq : ∀ ra, i = .primeq ra → f'.z = f.z ∧ f'.c = f.c ∧ f'.v = f.v

theorem FlagsRule.refl (i : Instr) (f : Flags) : FlagsRule i f f :=
  ⟨fun _ => rfl, fun _ => rfl, fun _ _ => ⟨rfl, rfl, rfl⟩⟩

/-- A listed command other than PRIMEQ leaves RES alone. -/
theorem FlagsRule.of_listed {i : Instr} {f f' : Flags} (hl : writesFlags i = true) (hn : ∀ ra, i ≠ .primeq ra)
    (hr : f'.res = f.res) : FlagsRule i f f' :=
  ⟨fun h => by simp [hl] at h, fun _ => hr, fun ra h => absurd h (hn ra)⟩

theorem addFlags_res (x y : Nat) (f : Flags) : (addFlags x y f).res = f.res := rfl
theorem subFlags_res (x y : Nat) (f : Flags) : (subFlags x y f).res = f.res := by rw [subFlags]
theorem mulFlags_res (x y : Nat) (f : Flags) : (mulFlags x y f).res = f.res := rfl
theorem cmpFlags_res (x y : Nat) (f : Flags) : (cmpFlags x y f).res = f.res := rfl

theorem flagsRule_primeq (ra : BReg) (f : Flags) (r : Bool) : FlagsRule (.primeq ra) f (resFlags r f) :=
  ⟨by simp [writesFlags], fun h => absurd rfl (h ra), fun _ _ => ⟨rfl, rfl, rfl⟩⟩

/-- The working value a command that draws begins its moves with. -/
inductive StartsWork : Instr → Work → Prop where
  | primeq (ra : BReg) (w : Witness) : StartsWork (.primeq ra) (.primeq w)
  | genprime (rd : BReg) : StartsWork (.genprime rd) (.genprime rd (.draw []))
  | keygen (rd ra rn : BReg) : StartsWork (.keygen rd ra rn) (.keygenP rd ra rn (.draw []))

theorem StartsWork.ne_fetch {i : Instr} {w : Work} (h : StartsWork i w) : w ≠ .fetch := by
  cases h <;> simp

theorem StartsWork.commandOf {i : Instr} {w : Work} {x : Word} (h : StartsWork i w) (hd : decode x = .ok i) :
    commandOf x w := by
  cases h with
  | primeq ra w => exact ⟨ra, hd⟩
  | genprime rd => exact hd
  | keygen rd ra rn => exact hd

theorem StartsWork.flagsRule {i : Instr} {w : Work} {f f' : Flags} (h : StartsWork i w) (k : KeepsFlags w f f') :
    FlagsRule i f f' := by
  cases h with
  | primeq ra w => exact ⟨by simp [writesFlags], fun h => absurd rfl (h ra), fun _ _ => ⟨k.z, k.c, k.v⟩⟩
  | genprime rd => rw [k.all (by simp)]; exact .refl _ _
  | keygen rd ra rn => rw [k.all (by simp)]; exact .refl _ _

/-- The buffers have been stored to: the generations are as before, and the canonical form is kept. -/
structure StoresIn (m m' : Memory) : Prop where
  msgGen : m'.msgGen = m.msgGen
  blkGen : m'.blkGen = m.blkGen
  wf : m.wf → m'.wf

theorem storesIn_msg (m : Memory) (bs : List Byte) (h : bs.length ≤ Config.msgBytes) :
    StoresIn m (writeBytes m Config.msgBase bs) :=
  ⟨rfl, rfl, fun hm => writeBytes_wf m _ bs hm fun x h1 h2 => .inl ⟨h1, by
    simp only [Config.msgBytes, Config.msgBase, Config.msgTop] at *; omega⟩⟩

theorem storesIn_blk (m : Memory) (bs : List Byte) (h : bs.length ≤ Config.nblk * Config.bigBytes) :
    StoresIn m (writeBytes m Config.blkBase bs) :=
  ⟨rfl, rfl, fun hm => writeBytes_wf m _ bs hm fun x h1 h2 => .inr ⟨h1, by
    simp only [Config.nblk, Config.bigBytes, Config.blkBase, Config.window] at *; omega⟩⟩

/-- What the execution of command `i` in state `s` can leave. -/
inductive ExecLeaves (i : Instr) (s : State) : State → Prop where
  /-- A completion that writes no buffer and, on an error, no register and no flag (R206). -/
  | completes (c : ErrorCode) (b : Vector Big 16) (f : Flags) (free : Nat) (hfree : s.free ≤ free)
      (hflags : FlagsRule i s.flags f) (herror : c ≠ .ok → b = s.b ∧ f = s.flags) :
      ExecLeaves i s (complete c { s with b := b, flags := f, free := free })
  /-- The completion of an ENC or DEC that has stored to a buffer (R182 to R187). -/
  | stores (c : ErrorCode) (m : Memory) (msglen nblocks : BitVec 16) (free : Nat) (hfree : s.free ≤ free)
      (hcode : c = .ok ∨ c = .decode ∨ c = .decwide) (hmem : StoresIn s.mem m) :
      ExecLeaves i s (complete c { s with mem := m, msglen := msglen, nblocks := nblocks, free := free })
  /-- The first moves of PRIMEQ, GENPRIME or KEYGEN (R155, R156, R158). -/
  | draws (n : Nat) (w : Work) (hw : StartsWork i w) : ExecLeaves i s (runMoves n { s with phase := .run w })

theorem ExecLeaves.only (i : Instr) (s : State) (c : ErrorCode) : ExecLeaves i s (complete c s) :=
  .completes c s.b s.flags s.free le_rfl (.refl _ _) fun _ => ⟨rfl, rfl⟩

theorem ExecLeaves.register (i : Instr) (s : State) (rd : BReg) (v : Nat) :
    ExecLeaves i s (finish (writeB rd v s)) :=
  .completes .ok _ s.flags s.free le_rfl (.refl _ _) fun h => absurd rfl h

theorem ExecLeaves.registerAndFlags {i : Instr} {s : State} (rd : BReg) (v : Nat) {f : Flags}
    (h : FlagsRule i s.flags f) : ExecLeaves i s (finish (writeFlags f (writeB rd v s))) :=
  .completes .ok _ f s.free le_rfl h fun h => absurd rfl h

theorem ExecLeaves.onlyFlags {i : Instr} {s : State} {f : Flags} (h : FlagsRule i s.flags f) :
    ExecLeaves i s (finish (writeFlags f s)) :=
  .completes .ok s.b f s.free le_rfl h fun h => absurd rfl h

theorem ExecLeaves.withModulus {i : Instr} {s : State} {rn : BReg} {k : Nat → State → State}
    (h : ExecLeaves i s (k (readB rn s) s)) : ExecLeaves i s (withModulus rn k s) := by
  by_cases hn : readB rn s = 0
  · rw [withModulus_zero _ _ _ hn]; exact .only i s .modzero
  · rwa [withModulus_pos _ _ _ hn]

/-! ### The commands whose text branches -/

theorem execModinv_leaves (rd ra rn : BReg) (s : State) :
    ∃ t, exec (.modinv rd ra rn) s = .next t ∧ ExecLeaves (.modinv rd ra rn) s t := by
  refine ⟨_, rfl, .withModulus ?_⟩
  split
  · exact .register _ s rd 0
  · split
    · exact .register _ s rd _
    · exact .completes .ok _ s.flags (s.free + 1) (Nat.le_succ _) (.refl _ _) fun h => absurd rfl h

theorem execMontmul_leaves (rd ra rb rn : BReg) (s : State) :
    ∃ t, exec (.montmul rd ra rb rn) s = .next t ∧ ExecLeaves (.montmul rd ra rb rn) s t := by
  refine ⟨_, rfl, .withModulus ?_⟩
  split
  · exact .only _ s .modeven
  · exact .register _ s rd _

theorem execCoprime_leaves (rd ra : BReg) (s : State) :
    ∃ t, exec (.coprime rd ra) s = .next t ∧ ExecLeaves (.coprime rd ra) s t := by
  refine ⟨_, rfl, ?_⟩
  split
  · exact .only _ s .nocoprime
  · exact .register _ s rd _

theorem execPrimeq_leaves (ra : BReg) (s : State) :
    ∃ t, exec (.primeq ra) s = .next t ∧ ExecLeaves (.primeq ra) s t := by
  refine ⟨_, rfl, ?_⟩
  cases testStart (readB ra s) (roundsOf s) with
  | yes => rw [runMoves_idle _ _ rfl]; exact .onlyFlags (flagsRule_primeq ra s.flags true)
  | no => rw [runMoves_idle _ _ rfl]; exact .onlyFlags (flagsRule_primeq ra s.flags false)
  | ask w => exact .draws s.pace (.primeq w) (.primeq ra w)

theorem execGenprime_leaves (rd : BReg) (s : State) :
    ∃ t, exec (.genprime rd) s = .next t ∧ ExecLeaves (.genprime rd) s t := by
  refine ⟨_, rfl, ?_⟩
  split
  · exact .only _ s .capacity
  · exact .draws (s.pace + 1) _ (.genprime rd)

theorem execKeygen_leaves (rd ra rn : BReg) (s : State) :
    ∃ t, exec (.keygen rd ra rn) s = .next t ∧ ExecLeaves (.keygen rd ra rn) s t := by
  refine ⟨_, rfl, ?_⟩
  split
  · split
    · exact .only _ s .capacity
    · exact .draws (s.pace + 1) _ (.keygen rd ra rn)
  · exact .only _ s .illegal

theorem execEnc_leaves (ra rn : BReg) (s : State) :
    ∃ t, exec (.enc ra rn) s = .next t ∧ ExecLeaves (.enc ra rn) s t := by
  refine ⟨_, rfl, .withModulus ?_⟩
  split
  · exact .only _ s .smallmod
  · split
    · exact .only _ s .capacity
    · split
      · exact .only _ s .capacity
      case isFalse hfits =>
        refine .stores .ok _ s.msglen _ s.free le_rfl (.inl rfl) (storesIn_blk s.mem _ ?_)
        rw [encImage_length]
        exact Nat.mul_le_mul_right _ (Nat.not_lt.mp hfits)

theorem decWide_leaves (i : Instr) (len : Nat) (s : State) (h : len ≤ Config.msgBytes) :
    ExecLeaves i s (decWide len s) :=
  .stores .decwide _ s.msglen s.nblocks (s.free + 1) (Nat.le_succ _) (.inr (.inr rfl))
    (storesIn_msg s.mem _ (by simpa using h))

theorem decWrite_leaves (i : Instr) (out : List Byte) (s : State) (h : out.length ≤ Config.msgBytes) :
    ExecLeaves i s (decWrite out s) := by
  refine .stores _ _ _ s.nblocks s.free le_rfl ?_ (storesIn_msg s.mem out h)
  split
  · exact .inr (.inl rfl)
  · exact .inl rfl

theorem execDec_leaves (ra rn : BReg) (s : State) :
    ∃ t, exec (.dec ra rn) s = .next t ∧ ExecLeaves (.dec ra rn) s t := by
  refine ⟨_, rfl, .withModulus ?_⟩
  split
  · exact .only _ s .smallmod
  · split
    · exact .only _ s .capacity
    case isFalse hfits =>
      have hlen : nblocksOf s * chunkSize (readB rn s) ≤ Config.msgBytes := Nat.not_lt.mp (not_or.mp hfits).2
      split
      · exact decWide_leaves _ _ s hlen
      case isFalse hnarrow =>
        refine decWrite_leaves _ _ s ?_
        rwa [decOutput_length _ _ _ _ _ ((tooWide_false _ _ _ _ _).mp (Bool.eq_false_iff.mpr hnarrow))]

/-- Every command answers with a next state, one of those of `ExecLeaves` (R200). -/
theorem exec_answers (i : Instr) (s : State) : ∃ t, exec i s = .next t ∧ ExecLeaves i s t := by
  cases i with
  | nop => exact ⟨_, rfl, .only _ s .ok⟩
  | mov rd ra => exact ⟨_, rfl, .register _ s rd _⟩
  | add rd ra rb => exact ⟨_, rfl, .registerAndFlags rd _ (.of_listed rfl (by simp) (addFlags_res ..))⟩
  | sub rd ra rb => exact ⟨_, rfl, .registerAndFlags rd _ (.of_listed rfl (by simp) (subFlags_res ..))⟩
  | mul rd ra rb => exact ⟨_, rfl, .registerAndFlags rd _ (.of_listed rfl (by simp) (mulFlags_res ..))⟩
  | addi rd ra imm => exact ⟨_, rfl, .registerAndFlags rd _ (.of_listed rfl (by simp) (addFlags_res ..))⟩
  | subi rd ra imm => exact ⟨_, rfl, .registerAndFlags rd _ (.of_listed rfl (by simp) (subFlags_res ..))⟩
  | cmp ra rb => exact ⟨_, rfl, .onlyFlags (.of_listed rfl (by simp) (cmpFlags_res ..))⟩
  | gcd rd ra rb => exact ⟨_, rfl, .register _ s rd _⟩
  | modred rd ra rn => exact ⟨_, rfl, .withModulus (.register _ s rd _)⟩
  | modmul rd ra rb rn => exact ⟨_, rfl, .withModulus (.register _ s rd _)⟩
  | modexp rd ra rb rn => exact ⟨_, rfl, .withModulus (.register _ s rd _)⟩
  | montmul rd ra rb rn => exact execMontmul_leaves rd ra rb rn s
  | modinv rd ra rn => exact execModinv_leaves rd ra rn s
  | primeq ra => exact execPrimeq_leaves ra s
  | genprime rd => exact execGenprime_leaves rd s
  | coprime rd ra => exact execCoprime_leaves rd ra s
  | keygen rd ra rn => exact execKeygen_leaves rd ra rn s
  | enc ra rn => exact execEnc_leaves ra rn s
  | dec ra rn => exact execDec_leaves ra rn s

theorem exec_leaves {i : Instr} {s t : State} (h : exec i s = .next t) : ExecLeaves i s t := by
  obtain ⟨u, hu, hl⟩ := exec_answers i s
  cases hu.symm.trans h
  exact hl

/-- A command move keeps CMD, the configuration, the response of the host and the resets, whatever it does. -/
theorem ExecLeaves.keepsControl {i : Instr} {s t : State} (h : ExecLeaves i s t) : KeepsControl s t := by
  cases h with
  | completes => constructor <;> rfl
  | stores => constructor <;> rfl
  | draws n w => exact (runMoves_start_keeps n w s).1.control

end Sys2Proof.Machine
end

section
/-! A turn of the engine by the phase, and what the moves of a command write: of FLAGS what R48 lists, and of the
results nothing before the completion, nor on an error but DECODE and DECWIDE
(spec/10_state.md R48, R74; spec/60_exceptions.md R205 to R207). -/

namespace Sys2Proof.Machine

open Sys2Proof.Laws Sys2Proof.Safety

/-- What a turn of the engine does, by the phase (R44, R96, R234). -/
inductive TurnLeaves (s : State) : State → Prop where
  | still (hp : ∀ w, s.phase ≠ .run w) : TurnLeaves s s
  | executes (i : Instr) (t : State) (hp : s.phase = .run .fetch) (hd : decode s.cmd = .ok i) (h : ExecLeaves i s t) :
      TurnLeaves s t
  | illegal (hp : s.phase = .run .fetch) : TurnLeaves s (complete .illegal s)
  | moves (n : Nat) (w : Work) (hp : s.phase = .run w) (hw : w ≠ .fetch) : TurnLeaves s (runMoves n s)

theorem executeWord_cases (w : Word) (s : State) :
    (∃ i, decode w = .ok i ∧ executeWord w s = exec i s) ∨ executeWord w s = .next (complete .illegal s) := by
  cases hd : decode w with
  | ok i => exact .inl ⟨i, rfl, executeWord_of_decode_ok hd s⟩
  | error e => exact .inr (by simp only [executeWord, hd, raise_eq])

theorem engineTurn_answers (s : State) : ∃ t, engineTurn s = .next t ∧ TurnLeaves s t := by
  cases hp : s.phase with
  | idle => exact ⟨s, by simp only [engineTurn, hp], .still (by simp [hp])⟩
  | wait w => exact ⟨s, by simp only [engineTurn, hp], .still (by simp [hp])⟩
  | run w =>
    cases w with
    | fetch =>
      rw [engineTurn_of_fetch hp]
      rcases executeWord_cases s.cmd s with ⟨i, hd, h⟩ | h <;> rw [h]
      · obtain ⟨t, ht, hl⟩ := exec_answers i s
        exact ⟨t, ht, .executes i t hp hd hl⟩
      · exact ⟨_, rfl, .illegal hp⟩
    | _ => exact ⟨_, by simp only [engineTurn, hp], .moves (s.pace + 1) _ hp (by simp)⟩

theorem engineTurn_leaves {s t : State} (h : engineTurn s = .next t) : TurnLeaves s t := by
  obtain ⟨u, hu, hl⟩ := engineTurn_answers s
  cases hu.symm.trans h
  exact hl

/-- An answered draw begins with the byte counted and the phase RUN (R150). -/
theorem countByte_run_moveKeeps (w : Work) (s : State) : MoveKeeps s (countByte { s with phase := .run w }) :=
  ⟨by constructor <;> rfl, rfl, rfl, rfl, rfl⟩

theorem sourceAnswer_keeps (asked : Nat) (a : Answer) (s : State) :
    MoveKeeps s (sourceAnswer asked a s) ∧ MoveWrites s (sourceAnswer asked a s) := by
  rcases sourceAnswer_cases asked a s with h | ⟨w, -, h | ⟨b, h⟩⟩ <;> rw [h]
  · exact ⟨.refl s, .inl ⟨rfl, rfl⟩⟩
  · exact ⟨⟨by constructor <;> rfl, rfl, rfl, rfl, rfl⟩, .inl ⟨rfl, rfl⟩⟩
  · obtain ⟨k, hw⟩ := workFeed_keeps b w (countByte { s with phase := .run w })
    exact ⟨(countByte_run_moveKeeps w s).trans k, hw⟩

theorem sourceAnswer_moves (asked : Nat) (a : Answer) {s : State} {w : Work} (hw : w ≠ .fetch)
    (hp : s.phase = .wait w) : sourceAnswer asked a s = s ∨ Moves w s (sourceAnswer asked a s) := by
  rcases sourceAnswer_cases asked a s with h | ⟨w', hp', h | ⟨b, h⟩⟩
  · exact .inl h
  · exact .inr (h ▸ moves_complete w .rng s)
  · cases hp.symm.trans hp'
    exact .inr (h ▸ (workFeed_moves b hw _).of_start le_rfl rfl rfl rfl)

/-- A later move of a command past its execution is one of its moves, or does nothing. -/
theorem laterMove_moves {s t : State} {w : Work} (hp : s.phase = .run w ∨ s.phase = .wait w) (hw : w ≠ .fetch)
    (h : LaterMove s t) : t = s ∨ Moves w s t := by
  rcases h with h | ⟨asked, a, rfl⟩
  · rcases engineTurn_leaves h with hn | ⟨i, _, hf⟩ | hf | ⟨n, w', hr, hw'⟩
    · exact .inl rfl
    · rcases hp with hp | hp <;> rw [hp] at hf <;> cases hf
      exact absurd rfl hw
    · rcases hp with hp | hp <;> rw [hp] at hf <;> cases hf
      exact absurd rfl hw
    · rcases hp with hp | hp <;> rw [hp] at hr <;> cases hr
      exact .inr (runMoves_moves n hw hp)
  · rcases hp with hp | hp
    · exact .inl (by simp only [sourceAnswer, hp])
    · exact sourceAnswer_moves asked a hw hp

/-! ### FLAGS -/

theorem ExecLeaves.flagsRule {i : Instr} {s t : State} (h : ExecLeaves i s t) : FlagsRule i s.flags t.flags := by
  cases h with
  | completes c b f free _ hflags => exact hflags
  | stores => exact .refl i s.flags
  | draws n w hw => exact hw.flagsRule (runMoves_start_moves n hw.ne_fetch s).flags

/-- Settles O46: an execution by what it can leave (`exec_leaves`), a later move by `laterMove_moves`. -/
theorem onlyListedCommandsWriteFlags : Obligations.OnlyListedCommandsWriteFlags := by
  refine ⟨fun i s t h => ?execution, fun s t w hp hw h => ?later⟩
  case execution =>
    obtain ⟨unlisted, res, primeq⟩ := (exec_leaves h).flagsRule
    exact ⟨unlisted, res, primeq⟩
  case later =>
    have hk : KeepsFlags w s.flags t.flags := by
      rcases laterMove_moves hp hw h with rfl | hm
      · exact .refl w _
      · exact hm.flags
    exact ⟨hk.z, hk.c, hk.v, hk.all⟩

/-! ### Results -/

theorem Moves.done_of_idle {w : Work} {s t : State} (h : Moves w s t) (hi : t.phase = .idle) : t.done = true := by
  rcases h.leads with ⟨-, done⟩ | ⟨_, _, phase⟩ | ⟨_, _, phase⟩
  · exact done
  · simp [hi] at phase
  · simp [hi] at phase

/-- The results of a command: the registers, FLAGS, and what `KeepsBuffers` names. -/
structure KeepsResults (s t : State) : Prop where
  registers : t.b = s.b
  flags : t.flags = s.flags
  buffers : KeepsBuffers s t

/-- From `s` to `t` a command writes results at its normal completion only, or at that of a DECODE or DECWIDE. -/
structure WritesAtCompletion (s t : State) : Prop where
  before : busy t = true → KeepsResults s t
  onError : t.phase = .idle → t.errcode ≠ .ok → t.errcode ≠ .decode → t.errcode ≠ .decwide →
    t.done = true ∧ KeepsResults s t

theorem busy_eq_false_iff (s : State) : busy s = false ↔ s.phase = .idle := by
  cases hp : s.phase <;> simp [busy, hp]

theorem not_busy_of_idle {s : State} (h : s.phase = .idle) : busy s = false := (busy_eq_false_iff s).mpr h

theorem MoveKeeps.keepsBuffers {s t : State} (h : MoveKeeps s t) : KeepsBuffers s t :=
  ⟨h.msglen, h.nblocks, fun a => by rw [h.mem]⟩

theorem MoveKeeps.writesAtCompletion {s t : State} (k : MoveKeeps s t) (hw : MoveWrites s t)
    (hd : t.phase = .idle → t.done = true) : WritesAtCompletion s t := by
  rcases hw with ⟨hb, hf⟩ | ⟨hi, hc, -⟩
  · exact ⟨fun _ => ⟨hb, hf, k.keepsBuffers⟩, fun hi _ _ _ => ⟨hd hi, hb, hf, k.keepsBuffers⟩⟩
  · exact ⟨fun h => by simp [not_busy_of_idle hi] at h, fun _ hn => absurd hc hn⟩

theorem runMoves_writesAtCompletion (n : Nat) {w : Work} {s : State} (hw : w ≠ .fetch) (hp : s.phase = .run w) :
    WritesAtCompletion s (runMoves n s) := by
  obtain ⟨k, hwr⟩ := runMoves_keeps n s
  exact k.writesAtCompletion hwr (runMoves_moves n hw hp).done_of_idle

theorem complete_writesAtCompletion (c : ErrorCode) (s : State) : WritesAtCompletion s (complete c s) :=
  ⟨fun h => by simp [not_busy_of_idle (complete_phase c s)] at h,
    fun _ _ _ _ => ⟨rfl, rfl, rfl, rfl, rfl, fun _ => rfl⟩⟩

theorem ExecLeaves.writesAtCompletion {i : Instr} {s t : State} (h : ExecLeaves i s t) : WritesAtCompletion s t := by
  cases h with
  | completes c b f free _ _ herror =>
    refine ⟨fun h => by simp [not_busy_of_idle (complete_phase c _)] at h, fun _ hok _ _ => ?_⟩
    obtain ⟨rfl, rfl⟩ := herror hok
    exact ⟨rfl, rfl, rfl, rfl, rfl, fun _ => rfl⟩
  | stores c m msglen nblocks free _ hcode =>
    refine ⟨fun h => by simp [not_busy_of_idle (complete_phase c _)] at h, fun _ hok hdecode hdecwide => ?_⟩
    rcases hcode with rfl | rfl | rfl
    · exact absurd rfl hok
    · exact absurd rfl hdecode
    · exact absurd rfl hdecwide
  | draws n w hw =>
    obtain ⟨k, hwr⟩ := runMoves_start_keeps n w s
    exact k.writesAtCompletion hwr (runMoves_start_moves n hw.ne_fetch s).done_of_idle

theorem sourceAnswer_done_of_idle (asked : Nat) (a : Answer) {s : State} (hb : busy s = true)
    (hi : (sourceAnswer asked a s).phase = .idle) : (sourceAnswer asked a s).done = true := by
  rcases sourceAnswer_cases asked a s with h | ⟨w, hp, h | ⟨b, h⟩⟩
  · rw [h] at hi; simp [not_busy_of_idle hi] at hb
  · rw [h]; rfl
  · rw [h] at hi ⊢
    by_cases hw : w = .fetch
    · subst hw; cases hi
    · exact (workFeed_moves b hw _).done_of_idle hi

theorem laterMove_writesAtCompletion {s t : State} (hb : busy s = true) (h : LaterMove s t) :
    WritesAtCompletion s t := by
  rcases h with h | ⟨asked, a, rfl⟩
  · rcases engineTurn_leaves h with hn | ⟨i, _, -, -, hl⟩ | - | ⟨n, w, hp, hw⟩
    · exact (MoveKeeps.refl s).writesAtCompletion (.inl ⟨rfl, rfl⟩) fun hi => by simp [not_busy_of_idle hi] at hb
    · exact hl.writesAtCompletion
    · exact complete_writesAtCompletion _ s
    · exact runMoves_writesAtCompletion n hw hp
  · obtain ⟨k, hw⟩ := sourceAnswer_keeps asked a s
    exact k.writesAtCompletion hw (sourceAnswer_done_of_idle asked a hb)

/-- With no command in progress there is no later move to make. -/
theorem laterMove_idle {s t : State} (hb : busy s = false) (h : LaterMove s t) : t = s := by
  have hp : s.phase = .idle := (busy_eq_false_iff s).mp hb
  rcases h with h | ⟨asked, a, rfl⟩
  · simpa only [engineTurn, hp, Host.Outcome.next.injEq, eq_comm] using h
  · simp only [sourceAnswer, hp]

/-- Settles O47: each move of a command writes results at its completion only (`WritesAtCompletion`). -/
theorem nothingIsWrittenBeforeCompletionOrOnError : Obligations.NothingIsWrittenBeforeCompletionOrOnError := by
  refine ⟨fun s t h hb => ?before, fun s t h hi hok hdecode hdecwide => ?onError⟩
  case before =>
    have hk : KeepsResults s t := by
      rcases h with ⟨i, h⟩ | h
      · exact (exec_leaves h).writesAtCompletion.before hb
      · cases hs : busy s with
        | true => exact (laterMove_writesAtCompletion hs h).before hb
        | false => rw [laterMove_idle hs h]; exact ⟨rfl, rfl, keepsBuffers_refl s⟩
    exact ⟨hk.registers, hk.flags, hk.buffers⟩
  case onError =>
    have hw : WritesAtCompletion s t := by
      rcases h with ⟨i, h⟩ | ⟨hs, h⟩
      · exact (exec_leaves h).writesAtCompletion
      · exact laterMove_writesAtCompletion hs h
    obtain ⟨hd, hk⟩ := hw.onError hi hok hdecode hdecwide
    exact ⟨hk.registers, hk.flags, hd, hk.buffers⟩

end Sys2Proof.Machine
end

section
/-! What the host's accesses leave, said once: a read changes the response and the free-value counter only, a refused
access the response only, and a write of the CSR page is one of the writes of R23 to R40
(spec/20_memory.md R64 to R69). -/

namespace Sys2Proof.Machine

open Sys2Proof.Safety

theorem hiddenRead_cases (v : Word) (s : State) :
    ∃ r f, s.free ≤ f ∧ r.error = false ∧ hiddenRead v s = { s with bus := r, free := f } := by
  cases hb : busy s with
  | true => exact ⟨_, s.free + 1, Nat.le_succ _, rfl, hiddenRead_busy v s hb⟩
  | false => exact ⟨⟨v, false⟩, s.free, le_rfl, rfl, hiddenRead_idle v s hb⟩

theorem hostRead_cases (off : Nat) (s : State) :
    ∃ r f, s.free ≤ f ∧ (place off ≠ .unmapped → r.error = false) ∧
      hostRead off s = { s with bus := r, free := f } := by
  unfold hostRead
  cases place off with
  | csr o => exact ⟨⟨csrRead o s, false⟩, s.free, le_rfl, fun _ => rfl, rfl⟩
  | bfile k i =>
    obtain ⟨r, f, hf, hr, h⟩ := hiddenRead_cases (bigWord s.b[k] i) s
    exact ⟨r, f, hf, fun _ => hr, h⟩
  | buffer o =>
    obtain ⟨r, f, hf, hr, h⟩ := hiddenRead_cases (bufferWord s.mem o) s
    exact ⟨r, f, hf, fun _ => hr, h⟩
  | unmapped => exact ⟨⟨0#32, true⟩, s.free, le_rfl, fun h => absurd rfl h, rfl⟩

/-- Width and alignment alone decide whether the window is looked at (R64, R65). -/
theorem admitted_or_refused (w : Width) (off : Nat) : (w = .w32 ∧ off % 4 = 0) ∨ (w ≠ .w32 ∨ off % 4 ≠ 0) := by
  by_cases hw : w = .w32
  · by_cases ho : off % 4 = 0
    · exact .inl ⟨hw, ho⟩
    · exact .inr (.inr ho)
  · exact .inr (.inl hw)

theorem hostAccess_read_cases (w : Width) (off : Nat) (s : State) :
    ∃ r f, s.free ≤ f ∧ (w = .w32 → off % 4 = 0 → place off ≠ .unmapped → r.error = false) ∧
      hostAccess (.read w off) s = { s with bus := r, free := f } := by
  rcases admitted_or_refused w off with ⟨rfl, ho⟩ | h
  · obtain ⟨r, f, hf, hr, h⟩ := hostRead_cases off s
    exact ⟨r, f, hf, fun _ _ => hr, (hostAccess_r32 off s ho).trans h⟩
  · refine ⟨⟨0#32, true⟩, s.free, le_rfl, fun hw ho => ?_, hostAccess_refused_read w off s h⟩
    exact absurd (h.resolve_left (not_not_intro hw)) (not_not_intro ho)

/-! ### A push into the host FIFO (R37) -/

theorem rngwait_eq_true_iff (s : State) : rngwait s = true ↔ ∃ w, s.phase = .wait w := by
  cases hp : s.phase <;> simp [rngwait, hp]

theorem pushEntropy_full {s : State} (b : Byte) (h : Config.rngDepth ≤ s.fifo.length) :
    pushEntropy b s = { s with rngovf := true } := by
  simp only [pushEntropy, if_neg (Nat.not_lt.mpr h)]

theorem pushEntropy_awaited {s : State} {w : Work} (b : Byte) (h : s.fifo.length < Config.rngDepth)
    (hp : s.phase = .wait w) (hr : s.rngsrc = true) :
    pushEntropy b s = { s with fifo := s.fifo ++ [b], phase := .run w } := by
  simp only [pushEntropy, if_pos h, hp, hr, if_true]

theorem pushEntropy_unawaited {s : State} (b : Byte) (h : s.fifo.length < Config.rngDepth)
    (hw : rngwait s = false ∨ s.rngsrc = false) : pushEntropy b s = { s with fifo := s.fifo ++ [b] } := by
  simp only [pushEntropy, if_pos h]
  cases hp : s.phase with
  | idle => rfl
  | run w => rfl
  | wait w =>
    have hr : s.rngsrc = false := hw.resolve_left (by simp [rngwait, hp])
    simp [hr]

/-- What a push into the host FIFO can do. -/
theorem pushEntropy_cases (b : Byte) (s : State) :
    pushEntropy b s = { s with rngovf := true } ∨
    (s.fifo.length < Config.rngDepth ∧
      (((rngwait s = false ∨ s.rngsrc = false) ∧ pushEntropy b s = { s with fifo := s.fifo ++ [b] }) ∨
        ∃ w, s.phase = .wait w ∧ pushEntropy b s = { s with fifo := s.fifo ++ [b], phase := .run w })) := by
  rcases Nat.lt_or_ge s.fifo.length Config.rngDepth with hlt | hfull
  · refine .inr ⟨hlt, ?_⟩
    by_cases hw : rngwait s = false ∨ s.rngsrc = false
    · exact .inl ⟨hw, pushEntropy_unawaited b hlt hw⟩
    · obtain ⟨hwait, hr⟩ : rngwait s = true ∧ s.rngsrc = true := by simpa using hw
      obtain ⟨w, hp⟩ := (rngwait_eq_true_iff s).mp hwait
      exact .inr ⟨w, hp, pushEntropy_awaited b hlt hp hr⟩
  · exact .inl (pushEntropy_full b hfull)

/-! ### The cases of an access -/

/-- What the write of a CSR at offset `off` can be (R23 to R40). -/
inductive CsrWrites (v : Word) (s : State) : State → Prop where
  | ctrl : CsrWrites v s (writeCtrl v s)
  | cmd : CsrWrites v s (writeCmd v s)
  | status : CsrWrites v s (acknowledge v s)
  | ie : CsrWrites v s (writeIe v s)
  | cfg : CsrWrites v s (lockedWrite (writeCfg v) s)
  | rounds : CsrWrites v s (lockedWrite (fun s => { s with rounds := v.setWidth 16 }) s)
  | bitlen : CsrWrites v s (lockedWrite (fun s => { s with bitlen := v.setWidth 16 }) s)
  | msglen : CsrWrites v s (lockedWrite (fun s => { s with msglen := v.setWidth 16 }) s)
  | nblocks : CsrWrites v s (lockedWrite (fun s => { s with nblocks := v.setWidth 16 }) s)
  | rngdata : CsrWrites v s (pushEntropy (v.setWidth 8) s)
  | ignored : CsrWrites v s s

theorem csrWrite_cases (off : Nat) (v : Word) (s : State) : CsrWrites v s (csrWrite off v s) := by
  unfold csrWrite
  split <;> constructor

/-- What a host access leaves (R64 to R69). -/
inductive AccessLeaves (s : State) : State → Prop where
  | responds (r : BusReply) (f : Nat) (hf : s.free ≤ f) : AccessLeaves s { s with bus := r, free := f }
  | csr (v : Word) (t : State) (h : CsrWrites v s t) : AccessLeaves s (replyDone t)
  | bfile (k : BReg) (i : Nat) (v : Word) : AccessLeaves s (replyDone (lockedWrite (writeBWord k i v) s))
  | buffer (off : Nat) (v : Word) (ha : off % 4 = 0) (hb : inBuffers off) :
      AccessLeaves s (replyDone (lockedWrite (writeBufferWord off v) s))

theorem inBuffers_of_place {off o : Nat} (h : place off = .buffer o) : o = off ∧ inBuffers off := by
  unfold place at h
  split at h
  · cases h
  · split at h
    · cases h
    · split at h
      case isTrue hb => cases h; exact ⟨rfl, hb⟩
      case isFalse => cases h

theorem hostAccess_cases (a : Access) (s : State) : AccessLeaves s (hostAccess a s) := by
  cases a with
  | read w off =>
    obtain ⟨r, f, hf, -, h⟩ := hostAccess_read_cases w off s
    rw [h]; exact .responds r f hf
  | write w off v =>
    rcases admitted_or_refused w off with ⟨rfl, ho⟩ | h
    · rw [← w32, hostAccess_w32 off v s ho, hostWrite]
      cases hp : place off with
      | csr o => exact .csr v _ (csrWrite_cases o v s)
      | bfile k i => exact .bfile k i v
      | buffer o =>
        obtain ⟨rfl, hb⟩ := inBuffers_of_place hp
        exact .buffer o v ho hb
      | unmapped => exact .responds _ s.free le_rfl
    · rw [hostAccess_refused_write w off v s h]; exact .responds _ s.free le_rfl

end Sys2Proof.Machine
end

section
/-! The invariant of `Safety.Inv`: it holds of an idle state by three of its clauses alone, every move of the engine and
every access of the host keeps it, and so does every step. -/

namespace Sys2Proof.Safety

open Sys2Proof.Machine

/-- Of a state with no command the invariant asks only about the FIFO and the buffers. -/
theorem inv_of_idle {t : State} (hp : t.phase = .idle) (hf : t.fifo.length ≤ Config.rngDepth) (hm : t.mem.wf)
    (hg : t.mem.msgGen < t.free ∧ t.mem.blkGen < t.free) : Inv t where
  fifoFits := hf
  memoryWf := hm
  doneIdle _ := hp
  errorIdle _ := hp
  waitAsks := by simp [hp]
  waitEmpty := by simp [hp]
  runsCommand := by simp [hp]
  generations := hg

theorem inv_of_run {t : State} {w : Work} (hp : t.phase = .run w) (hd : t.done = false) (he : t.errcode = .ok)
    (hc : commandOf t.cmd w) (hf : t.fifo.length ≤ Config.rngDepth) (hm : t.mem.wf)
    (hg : t.mem.msgGen < t.free ∧ t.mem.blkGen < t.free) : Inv t where
  fifoFits := hf
  memoryWf := hm
  doneIdle h := by simp [hd] at h
  errorIdle h := absurd he h
  waitAsks := by simp [hp]
  waitEmpty := by simp [hp]
  runsCommand w' h := by
    rcases h with h | h <;> cases hp.symm.trans h
    exact hc
  generations := hg

theorem inv_of_wait {t : State} {w : Work} (hp : t.phase = .wait w) (hd : t.done = false) (he : t.errcode = .ok)
    (hc : commandOf t.cmd w) (ha : workWants (primeBytes t) w = true) (hempty : t.rngsrc = true → t.fifo = [])
    (hf : t.fifo.length ≤ Config.rngDepth) (hm : t.mem.wf) (hg : t.mem.msgGen < t.free ∧ t.mem.blkGen < t.free) :
    Inv t where
  fifoFits := hf
  memoryWf := hm
  doneIdle h := by simp [hd] at h
  errorIdle h := absurd he h
  waitAsks w' h := by cases hp.symm.trans h; exact ha
  waitEmpty _ _ := hempty
  runsCommand w' h := by
    rcases h with h | h <;> cases hp.symm.trans h
    exact hc
  generations := hg

/-- The invariant speaks of the fields named here only, and DONE may be cleared. -/
theorem Inv.unaffected {s t : State} (h : Inv s) (fifo : t.fifo = s.fifo := by rfl) (mem : t.mem = s.mem := by rfl)
    (phase : t.phase = s.phase := by rfl) (errcode : t.errcode = s.errcode := by rfl)
    (bitlen : t.bitlen = s.bitlen := by rfl) (rngsrc : t.rngsrc = s.rngsrc := by rfl) (cmd : t.cmd = s.cmd := by rfl)
    (free : s.free ≤ t.free := by exact le_rfl) (done : t.done = true → s.done = true := by exact id) : Inv t where
  fifoFits := fifo ▸ h.fifoFits
  memoryWf := mem ▸ h.memoryWf
  doneIdle hd := phase.trans (h.doneIdle (done hd))
  errorIdle he := phase.trans (h.errorIdle (errcode ▸ he))
  waitAsks w hw := by rw [primeBytes, bitlen]; exact h.waitAsks w (phase.symm.trans hw)
  waitEmpty w hw hr := fifo.trans (h.waitEmpty w (phase.symm.trans hw) (rngsrc.symm.trans hr))
  runsCommand w hw := by rw [cmd]; exact h.runsCommand w (phase ▸ hw)
  generations := by
    obtain ⟨hmsg, hblk⟩ := h.generations
    rw [mem]; exact ⟨hmsg.trans_le free, hblk.trans_le free⟩

/-- R201: while BUSY = 1, DONE and ERRCODE are 0. -/
theorem Inv.done_errcode_of_busy {s : State} (h : Inv s) (hp : s.phase ≠ .idle) : s.done = false ∧ s.errcode = .ok :=
  ⟨Bool.eq_false_iff.mpr fun hd => hp (h.doneIdle hd), Decidable.byContradiction fun he => hp (h.errorIdle he)⟩

end Sys2Proof.Safety

namespace Sys2Proof.Machine

open Sys2Proof.Laws Sys2Proof.Safety

/-! ### The engine -/

theorem inv_complete {s : State} (c : ErrorCode) (h : Inv s) : Inv (complete c s) :=
  inv_of_idle rfl h.fifoFits h.memoryWf h.generations

theorem inv_of_moves {w : Work} {s t : State} (h : Inv s) (hd : s.done = false) (he : s.errcode = .ok)
    (hc : commandOf s.cmd w) (k : MoveKeeps s t) (m : Moves w s t) : Inv t := by
  have hf : t.fifo.length ≤ Config.rngDepth := m.fifo.trans h.fifoFits
  have hm : t.mem.wf := k.mem ▸ h.memoryWf
  have hg : t.mem.msgGen < t.free ∧ t.mem.blkGen < t.free := by rw [k.mem, k.free]; exact h.generations
  have hc' : ∀ w', SameCommand w w' → commandOf t.cmd w' := fun w' hs => by rw [k.control.cmd]; exact hs.commandOf hc
  rcases m.leads with ⟨phase, -⟩ | ⟨w', same, phase, done, errcode⟩ | ⟨w', same, phase, done, errcode, asks, empty⟩
  · exact inv_of_idle phase hf hm hg
  · exact inv_of_run phase (done.trans hd) (errcode.trans he) (hc' w' same) hf hm hg
  · exact inv_of_wait phase (done.trans hd) (errcode.trans he) (hc' w' same) asks empty hf hm hg

theorem inv_of_execLeaves {i : Instr} {s t : State} (h : Inv s) (hp : s.phase = .run .fetch) (hd : decode s.cmd = .ok i)
    (hl : ExecLeaves i s t) : Inv t := by
  obtain ⟨hmsg, hblk⟩ := h.generations
  cases hl with
  | completes c b f free hfree =>
    exact inv_of_idle rfl h.fifoFits h.memoryWf ⟨hmsg.trans_le hfree, hblk.trans_le hfree⟩
  | stores c m msglen nblocks free hfree _ hmem =>
    refine inv_of_idle rfl h.fifoFits (hmem.wf h.memoryWf) ⟨?_, ?_⟩
    · exact hmem.msgGen ▸ hmsg.trans_le hfree
    · exact hmem.blkGen ▸ hblk.trans_le hfree
  | draws n w hw =>
    obtain ⟨hdone, herr⟩ := h.done_errcode_of_busy (by simp [hp])
    exact inv_of_moves h hdone herr (hw.commandOf hd) (runMoves_start_keeps n w s).1
      (runMoves_start_moves n hw.ne_fetch s)

theorem engineTurn_keeps_inv {s t : State} (h : Inv s) (ht : engineTurn s = .next t) : Inv t := by
  rcases engineTurn_leaves ht with hn | ⟨i, _, hp, hd, hl⟩ | hp | ⟨n, w, hp, hw⟩
  · exact h
  · exact inv_of_execLeaves h hp hd hl
  · exact inv_complete .illegal h
  · obtain ⟨hdone, herr⟩ := h.done_errcode_of_busy (by simp [hp])
    exact inv_of_moves h hdone herr (h.runsCommand w (.inl hp)) (runMoves_keeps n s).1 (runMoves_moves n hw hp)

theorem sourceAnswer_keeps_inv {s : State} (asked : Nat) (a : Answer) (h : Inv s) : Inv (sourceAnswer asked a s) := by
  cases hp : s.phase with
  | idle => simpa only [sourceAnswer, hp] using h
  | run w => simpa only [sourceAnswer, hp] using h
  | wait w =>
    have hw : w ≠ .fetch := fun hf => by
      subst hf
      exact absurd (h.waitAsks _ hp) (by simp [workWants])
    rcases sourceAnswer_moves asked a hw hp with hs | hm
    · rwa [hs]
    · obtain ⟨hdone, herr⟩ := h.done_errcode_of_busy (by simp [hp])
      exact inv_of_moves h hdone herr (h.runsCommand w (.inr hp)) (sourceAnswer_keeps asked a s).1 hm

/-! ### Resets and the host -/

theorem inv_resetWith {m : Memory} {s : State} (hm : m.wf) (hg : m.msgGen ≤ s.free ∧ m.blkGen ≤ s.free) :
    Inv (resetWith m s) :=
  inv_of_idle rfl (Nat.zero_le _) hm ⟨Nat.lt_succ_of_le hg.1, Nat.lt_succ_of_le hg.2⟩

theorem powerOnReset_inv (s : State) : Inv (powerOnReset s) := inv_resetWith (empty_wf _ _) ⟨le_rfl, le_rfl⟩

theorem softReset_keeps_inv {s : State} (h : Inv s) : Inv (softReset s) := by
  obtain ⟨hmsg, hblk⟩ := h.generations
  have kept : Inv (resetWith s.mem s) := inv_resetWith h.memoryWf ⟨hmsg.le, hblk.le⟩
  unfold softReset softResetMemory
  split
  · split
    · exact inv_resetWith (forgetBlk_wf _ _ h.memoryWf) ⟨hmsg.le, le_rfl⟩
    · exact inv_resetWith (forgetMsg_wf _ _ h.memoryWf) ⟨le_rfl, hblk.le⟩
    · exact kept
  · exact kept

theorem accept_inv {s : State} (w : Word) (h : Inv s) : Inv (accept w s) :=
  inv_of_run rfl rfl rfl trivial h.fifoFits h.memoryWf h.generations

/-- A write the busy lock covers needs to keep the invariant of an idle state only (R69). -/
theorem lockedWrite_keeps_inv {f : State → State} {s : State} (h : Inv s) (hf : s.phase = .idle → Inv (f s)) :
    Inv (lockedWrite f s) := by
  cases hb : busy s with
  | true => rw [lockedWrite_busy f s hb]; exact h.unaffected
  | false => rw [lockedWrite_idle f s hb]; exact hf ((busy_eq_false_iff s).mp hb)

theorem writeCmd_keeps_inv {s : State} (v : Word) (h : Inv s) : Inv (writeCmd v s) := by
  unfold writeCmd
  split
  · exact h.unaffected
  · exact accept_inv v h

theorem writeCtrl_keeps_inv {s : State} (v : Word) (h : Inv s) : Inv (writeCtrl v s) := by
  unfold writeCtrl
  split
  · exact softReset_keeps_inv h
  · exact h

theorem acknowledge_keeps_inv {s : State} (v : Word) (h : Inv s) : Inv (acknowledge v s) :=
  h.unaffected (done := fun hd => (Bool.and_eq_true_iff.mp hd).1)

/-- A pushed byte fits; a command that waits for it runs again (R37, R150), and one that waits for the external source
does not look at the host FIFO. -/
theorem pushEntropy_keeps_inv {s : State} (b : Byte) (h : Inv s) : Inv (pushEntropy b s) := by
  rcases pushEntropy_cases b s with he | ⟨hlt, hcases⟩
  · rw [he]; exact h.unaffected
  · have hf : (s.fifo ++ [b]).length ≤ Config.rngDepth := by
      rw [List.length_append, List.length_singleton]; exact hlt
    rcases hcases with ⟨hw, he⟩ | ⟨w, hp, he⟩ <;> rw [he]
    · refine ⟨hf, h.memoryWf, h.doneIdle, h.errorIdle, h.waitAsks, fun w hp hr => ?_, h.runsCommand, h.generations⟩
      have hwait : rngwait s = true := (rngwait_eq_true_iff s).mpr ⟨w, hp⟩
      rcases hw with hw | hw
      · simp [hwait] at hw
      · cases hr.symm.trans hw
    · obtain ⟨hdone, herr⟩ := h.done_errcode_of_busy (by simp [hp])
      exact inv_of_run rfl hdone herr (h.runsCommand w (.inr hp)) hf h.memoryWf h.generations

theorem writeBufferWord_keeps_inv {s : State} {off : Nat} (v : Word) (h : Inv s) (ha : off % 4 = 0)
    (hb : inBuffers off) (hp : s.phase = .idle) : Inv (writeBufferWord off v s) := by
  refine inv_of_idle hp h.fifoFits (writeBytes_wf _ _ _ h.memoryWf fun x h1 h2 => ?_) h.generations
  rw [wordToBytes_length] at h2
  simp only [inBuffers, Config.msgBase, Config.msgTop, Config.blkBase, Config.window] at hb ⊢
  omega

theorem csrWrites_keep_inv {v : Word} {s t : State} (h : Inv s) (hw : CsrWrites v s t) : Inv t := by
  have idle : ∀ {u : State}, u.phase = s.phase → u.fifo = s.fifo → u.mem = s.mem → u.free = s.free →
      s.phase = .idle → Inv u := fun hp hf hm hfree hi =>
    inv_of_idle (hp.trans hi) (hf ▸ h.fifoFits) (hm ▸ h.memoryWf) (by rw [hm, hfree]; exact h.generations)
  cases hw with
  | ctrl => exact writeCtrl_keeps_inv v h
  | cmd => exact writeCmd_keeps_inv v h
  | status => exact acknowledge_keeps_inv v h
  | ie => exact h.unaffected
  | cfg => exact lockedWrite_keeps_inv h (idle rfl rfl rfl rfl)
  | rounds => exact lockedWrite_keeps_inv h (idle rfl rfl rfl rfl)
  | bitlen => exact lockedWrite_keeps_inv h (idle rfl rfl rfl rfl)
  | msglen => exact lockedWrite_keeps_inv h (idle rfl rfl rfl rfl)
  | nblocks => exact lockedWrite_keeps_inv h (idle rfl rfl rfl rfl)
  | rngdata => exact pushEntropy_keeps_inv _ h
  | ignored => exact h

theorem replyDone_keeps_inv {s : State} (h : Inv s) : Inv (replyDone s) := h.unaffected

theorem accessLeaves_keep_inv {s t : State} (h : Inv s) (hl : AccessLeaves s t) : Inv t := by
  cases hl with
  | responds r f hf => exact h.unaffected (free := hf)
  | csr v t hw => exact replyDone_keeps_inv (csrWrites_keep_inv h hw)
  | bfile k i v => exact replyDone_keeps_inv (lockedWrite_keeps_inv h fun _ => h.unaffected)
  | buffer off v ha hb =>
    exact replyDone_keeps_inv (lockedWrite_keeps_inv h fun hp => writeBufferWord_keeps_inv v h ha hb hp)

theorem takeEvent_keeps_inv {e : Event} {s t : State} (h : Inv s) (ht : takeEvent e s = .next t) : Inv t := by
  cases e with
  | host a => cases ht; exact accessLeaves_keep_inv h (hostAccess_cases a s)
  | source asked a => cases ht; exact sourceAnswer_keeps_inv asked a h
  | engine pace => exact engineTurn_keeps_inv (h.unaffected (t := { s with pace := pace })) ht
  | powerOn => cases ht; exact powerOnReset_inv s

/-- Settles O48: a step is a turn of the engine or the earliest input, and each keeps the invariant. -/
theorem everyStepKeepsTheInvariant : Obligations.EveryStepKeepsTheInvariant := by
  intro s t h ht
  cases hin : s.inputs with
  | nil => exact engineTurn_keeps_inv h (step_of_inputs_nil hin ▸ ht)
  | cons e rest =>
    exact takeEvent_keeps_inv (h.unaffected (t := { s with inputs := rest })) (step_of_inputs_cons hin ▸ ht)

/-- Settles O49: the reset state is idle with an empty FIFO and empty buffers. -/
theorem resetMeetsTheInvariant : Obligations.ResetMeetsTheInvariant :=
  inv_of_idle rfl (Nat.zero_le _) (empty_wf 0 0) ⟨Nat.one_pos, Nat.one_pos⟩

end Sys2Proof.Machine
end

section
/-! The bits of the CSRs as the host reads them: the layouts of STATUS, FLAGS, IE and CFG (spec/10_state.md R29 to R32)
are flag bits appended one by one, and each is read off by two rules. -/

namespace Sys2Proof.Machine

theorem getLsbD_zero_append_flagBit {n : Nat} (x : BitVec n) (b : Bool) : (x ++ flagBit b).getLsbD 0 = b := by
  rw [BitVec.getLsbD_append, if_pos Nat.one_pos, flagBit, BitVec.getLsbD_ofBool]
  rfl

theorem getLsbD_succ_append_flagBit {n : Nat} (x : BitVec n) (b : Bool) (i : Nat) :
    (x ++ flagBit b).getLsbD (i + 1) = x.getLsbD i := by
  rw [BitVec.getLsbD_append, if_neg (by omega), Nat.add_sub_cancel]

theorem extractLsb'_succ_append_flagBit {n : Nat} (x : BitVec n) (b : Bool) (i k : Nat) :
    (x ++ flagBit b).extractLsb' (i + 1) k = x.extractLsb' i k := by
  apply BitVec.eq_of_getLsbD_eq
  intro j _
  rw [BitVec.getLsbD_extractLsb', BitVec.getLsbD_extractLsb', Nat.add_right_comm, getLsbD_succ_append_flagBit]

/-- A register of two flags (R31, R32): what its bits are, and that the reserved bits are 0. -/
theorem twoFlags_bits (a b : Bool) :
    (0#30 ++ flagBit a ++ flagBit b : Word).getLsbD 0 = b ∧ (0#30 ++ flagBit a ++ flagBit b : Word).getLsbD 1 = a ∧
    (0#30 ++ flagBit a ++ flagBit b : Word).extractLsb' 2 30 = 0#30 := by
  simp only [getLsbD_zero_append_flagBit, getLsbD_succ_append_flagBit, extractLsb'_succ_append_flagBit, true_and]
  rfl

/-- A written register of two flags reads back its two low bits (R31, R32). -/
theorem twoFlags_of_word (v : Word) : 0#30 ++ flagBit (v.getLsbD 1) ++ flagBit (v.getLsbD 0) = v &&& 3#32 := by
  have h3 : 3#32 = 0#30 ++ flagBit true ++ flagBit true := rfl
  apply BitVec.eq_of_getLsbD_eq
  intro i _
  rw [h3, BitVec.getLsbD_and]
  match i with
  | 0 => simp only [getLsbD_zero_append_flagBit, Bool.and_true]
  | 1 => simp only [getLsbD_zero_append_flagBit, getLsbD_succ_append_flagBit, Bool.and_true]
  | i + 2 => simp only [getLsbD_succ_append_flagBit, BitVec.getLsbD_zero, Bool.and_false]

/-- A written 16-bit register reads back its low 16 bits (R33 to R36). -/
theorem setWidth16_of_word (v : Word) : (v.setWidth 16).setWidth 32 = v &&& 0xFFFF#32 := by
  have h := v.isLt
  apply BitVec.eq_of_toNat_eq
  rw [BitVec.toNat_and, BitVec.toNat_setWidth, BitVec.toNat_setWidth,
    Nat.mod_eq_of_lt (a := v.toNat % 2 ^ 16) (by omega)]
  exact (Nat.and_two_pow_sub_one_eq_mod v.toNat 16).symm

theorem err_eq (s : State) : err s = decide (s.errcode ≠ .ok) := by
  unfold err
  cases s.errcode <;> rfl

/-- The flags of STATUS (R29). -/
theorem statusWord_flags (s : State) :
    (statusWord s).getLsbD 0 = busy s ∧ (statusWord s).getLsbD 1 = s.done ∧ (statusWord s).getLsbD 2 = err s ∧
    (statusWord s).getLsbD 3 = rngwait s ∧ (statusWord s).getLsbD 4 = s.haz ∧ (statusWord s).getLsbD 5 = s.rngovf := by
  simp only [statusWord, getLsbD_zero_append_flagBit, getLsbD_succ_append_flagBit, and_self]

/-- The fields of STATUS above its flags (R29). -/
theorem statusWord_fields (s : State) :
    (statusWord s).extractLsb' 6 2 = 0#2 ∧ (statusWord s).extractLsb' 8 4 = errorNumber s.errcode ∧
    (statusWord s).extractLsb' 12 20 = 0#20 := by
  simp only [statusWord, extractLsb'_succ_append_flagBit]
  cases s.errcode <;> decide

/-- The layout of FLAGS (R30). -/
theorem flagsWord_bits (f : Flags) :
    (flagsWord f).getLsbD 0 = f.z ∧ (flagsWord f).getLsbD 1 = f.c ∧ (flagsWord f).getLsbD 2 = f.v ∧
    (flagsWord f).getLsbD 3 = f.res ∧ (flagsWord f).extractLsb' 4 28 = 0#28 := by
  simp only [flagsWord, getLsbD_zero_append_flagBit, getLsbD_succ_append_flagBit, extractLsb'_succ_append_flagBit,
    true_and]
  rfl

end Sys2Proof.Machine
end

section
/-! The host's accesses of the CSR page in each of their cases: refused, ignored, read back
(spec/10_state.md R23 to R40, spec/20_memory.md R64 to R69). -/

namespace Sys2Proof.Machine

open Sys2Proof.Safety

/-! ### Refused and ignored accesses, and reads -/

theorem hostRead_unmapped {off : Nat} (h : ¬ mapped off) (s : State) : hostRead off s = replyError s := by
  rw [hostRead, place_unmapped off h]

theorem hostWrite_unmapped {off : Nat} (h : ¬ mapped off) (v : Word) (s : State) :
    hostWrite off v s = replyError s := by
  rw [hostWrite, place_unmapped off h]

theorem place_ne_unmapped {off : Nat} (h : mapped off) : place off ≠ .unmapped := by
  simp only [place, Config.csrTop, Config.bBase, Config.bTop, inBuffers, Config.msgBase, Config.msgTop, Config.blkBase,
    Config.window]
  split
  · simp
  · split
    · simp
    · rw [if_pos (by omega)]; simp

/-- Read-only and reserved offsets of the CSR page ignore writes (R40, R68). -/
theorem csrWrite_ignored {off : Nat} (h : off ∈ [0x000, 0x004, 0x008, 0x018, 0x038, 0x03C] ∨ 0x040 ≤ off) (v : Word)
    (s : State) : csrWrite off v s = s := by
  unfold csrWrite
  split
  case h_11 => rfl
  all_goals simp at h

/-- Reserved offsets of the CSR page read 0 (R40). -/
theorem csrRead_reserved {off : Nat} (h : 0x040 ≤ off) (s : State) : csrRead off s = 0#32 := by
  unfold csrRead
  split
  case h_15 => rfl
  all_goals simp at h

/-- Settles O52: an access the window does not admit or does not map is answered by `replyError` (R65 to R67), and a
write of an offset that ignores it by `replyDone` alone (`csrWrite_ignored`). -/
theorem refusedAndReadOnlyAccessesChangeNothing : Obligations.RefusedAndReadOnlyAccessesChangeNothing := by
  intro s off v
  refine ⟨fun w h => ?refused, fun hc ho h => ?ignored, fun hr hc ho => ?reserved⟩
  case refused =>
    rcases admitted_or_refused w off with ⟨rfl, ho⟩ | hw
    · have hu : ¬ mapped off := by simpa [ho] using h
      exact ⟨(hostAccess_r32 off s ho).trans (hostRead_unmapped hu s),
        (hostAccess_w32 off v s ho).trans (hostWrite_unmapped hu v s)⟩
    · exact ⟨hostAccess_refused_read w off s hw, hostAccess_refused_write w off v s hw⟩
  case ignored => rw [hostAccess_w32_csr off v s ho hc, csrWrite_ignored h]; rfl
  case reserved => rw [hostAccess_r32_csr off s ho hc, csrRead_reserved hr]; rfl

/-- Settles O53: what a read changes is `hostAccess_read_cases`, and the values of the CSR page are
those of `csrRead`. -/
theorem readsAnswerTheValueAndHaveNoSideEffects : Obligations.ReadsAnswerTheValueAndHaveNoSideEffects := by
  intro s
  obtain ⟨hdoneie, hrngie, hie⟩ := twoFlags_bits s.rngie s.doneie
  obtain ⟨hrngsrc, haschk, hcfg⟩ := twoFlags_bits s.aschk s.rngsrc
  refine ⟨fun w off => ?read, fun off hc ho => hostAccess_r32_csr off s ho hc, rfl, rfl, rfl, rfl, rfl, rfl, rfl, rfl,
    hdoneie, hrngie, hie, hrngsrc, haschk, hcfg, rfl, rfl, rfl, rfl⟩
  obtain ⟨r, f, -, hr, h⟩ := hostAccess_read_cases w off s
  exact ⟨r, f, h, fun hw ho hm => hr hw ho (place_ne_unmapped hm)⟩

/-! ### Writes of the registers -/

/-- The write of a CSR the busy lock covers takes effect while idle (R69). -/
theorem hostAccess_w32_unlocked {off : Nat} {v : Word} {f : State → State} {s : State} (hb : busy s = false)
    (ho : off % 4 = 0) (hc : off < 0x100) (hw : csrWrite off v s = lockedWrite f s) :
    hostAccess (w32 off v) s = replyDone (f s) := by
  rw [hostAccess_w32_csr off v s ho hc, hw, lockedWrite_idle f s hb]

/-- Settles O55: IE and CFG read back by `twoFlags_of_word`, the four 16-bit registers by `setWidth16_of_word`. -/
theorem configurationRegistersReadBack : Obligations.ConfigurationRegistersReadBack := by
  intro s v
  refine ⟨⟨_, hostAccess_w32_csr 0x01C v s rfl (by decide), twoFlags_of_word v, rfl⟩,
    fun hb => ⟨?cfg, ?rounds, ?bitlen, ?msglen, ?nblocks⟩⟩
  case cfg => exact ⟨_, hostAccess_w32_unlocked hb rfl (by decide) rfl, twoFlags_of_word v, rfl⟩
  case rounds =>
    exact ⟨_, hostAccess_w32_unlocked (f := fun s => { s with rounds := v.setWidth 16 }) hb rfl (by decide) rfl,
      setWidth16_of_word v, rfl⟩
  case bitlen =>
    exact ⟨_, hostAccess_w32_unlocked (f := fun s => { s with bitlen := v.setWidth 16 }) hb rfl (by decide) rfl,
      setWidth16_of_word v, rfl⟩
  case msglen =>
    exact ⟨_, hostAccess_w32_unlocked (f := fun s => { s with msglen := v.setWidth 16 }) hb rfl (by decide) rfl,
      setWidth16_of_word v, rfl⟩
  case nblocks =>
    exact ⟨_, hostAccess_w32_unlocked (f := fun s => { s with nblocks := v.setWidth 16 }) hb rfl (by decide) rfl,
      setWidth16_of_word v, rfl⟩

theorem and_not_eq_ite (a b : Bool) : (a && !b) = if b then false else a := by
  cases b <;> simp

/-- Settles O56: STATUS by `statusWord_flags` and `statusWord_fields`, FLAGS by `flagsWord_bits`, the write of STATUS by
`acknowledge`. -/
theorem statusAndFlagsLayoutsAndStatusClearsOnOnes : Obligations.StatusAndFlagsLayoutsAndStatusClearsOnOnes := by
  intro s
  obtain ⟨hbusy, hdone, herr, hwait, hhaz, hovf⟩ := statusWord_flags s
  obtain ⟨hlow, hcode, hhigh⟩ := statusWord_fields s
  obtain ⟨hz, hc, hv, hres, hreserved⟩ := flagsWord_bits s.flags
  refine ⟨hostAccess_r32_csr 0x014 s rfl (by decide), rfl, hbusy, hdone, herr.trans (err_eq s), hwait, hhaz, hovf, hlow,
    hcode, hhigh, by decide, hostAccess_r32_csr 0x018 s rfl (by decide), hz, hc, hv, hres, hreserved, fun v => ?clears⟩
  exact ⟨_, hostAccess_w32_csr 0x014 v s rfl (by decide), and_not_eq_ite _ _, and_not_eq_ite _ _,
    and_not_eq_ite _ _, rfl⟩

/-- Settles O57: the three cases of `pushEntropy`. -/
theorem rngdataPushesOrOverflows : Obligations.RngdataPushesOrOverflows := by
  intro s v
  have h : hostAccess (w32 0x034 v) s = replyDone (pushEntropy (v.setWidth 8) s) :=
    hostAccess_w32_csr 0x034 v s rfl (by decide)
  rw [h]
  refine ⟨rfl, fun hlt => ⟨fun w hp hr => ?awaited, fun hw => ?unawaited⟩, fun hfull => ?full⟩
  case awaited => rw [pushEntropy_awaited _ hlt hp hr]; rfl
  case unawaited => rw [pushEntropy_unawaited _ hlt hw]; rfl
  case full => rw [pushEntropy_full _ hfull]; rfl

/-- Settles O58: STATUS and IE show the four bits that `irq` combines (R46). -/
theorem irqIsTheMaskedLevel : Obligations.IrqIsTheMaskedLevel := by
  intro s
  obtain ⟨-, hdone, -, hwait, -⟩ := statusWord_flags s
  obtain ⟨hdoneie, hrngie, -⟩ := twoFlags_bits s.rngie s.doneie
  refine ⟨?level, fun v => ?write⟩
  case level =>
    have h0 : (csrRead 0x01C s).getLsbD 0 = s.doneie := hdoneie
    have h1 : (csrRead 0x01C s).getLsbD 1 = s.rngie := hrngie
    rw [hdone, hwait, h0, h1, irq, Bool.or_eq_true, Bool.and_eq_true, Bool.and_eq_true]
  case write => rw [hostAccess_w32_csr 0x01C v s rfl (by decide)]; rfl

end Sys2Proof.Machine
end

section
/-! The two resets (spec/70_reset_and_hazards.md R230 to R234): both give the values of R47, and no other step changes
the number of resets. -/

namespace Sys2Proof.Machine

open Sys2Proof.Safety

theorem readB_reset (r : BReg) : readB r State.reset = 0 := by
  have hr : State.reset.b[r] = BitVec.zero 4096 := Vector.getElem_replicate r.isLt
  rw [readB, hr, BitVec.zero_eq, BitVec.toNat_zero]

theorem resetValues_reset : ResetValues State.reset where
  registers := readB_reset
  cmd := rfl
  status := by decide
  flags := by decide
  ie := by decide
  cfg := by decide
  rounds := rfl
  bitlen := rfl
  msglen := rfl
  nblocks := rfl
  fifo := rfl
  rngcount := rfl
  idle := rfl
  irq := rfl

/-- A reset gives the values of R47, whatever the buffers and the fields of the environment are. -/
theorem resetValues_resetWith (m : Memory) (s : State) : ResetValues (resetWith m s) :=
  { resetValues_reset with }

/-- The response to the host is none of the values of R47. -/
theorem resetValues_replyDone {t : State} (h : ResetValues t) : ResetValues (replyDone t) :=
  { h with }

/-! ### The power-on reset and the number of resets -/

theorem lockedWrite_resets {f : State → State} {s : State} (hf : (f s).resets = s.resets) :
    (lockedWrite f s).resets = s.resets := by
  cases hb : busy s with
  | true => rw [lockedWrite_busy f s hb]
  | false => rw [lockedWrite_idle f s hb, hf]

theorem pushEntropy_resets (b : Byte) (s : State) : (pushEntropy b s).resets = s.resets := by
  rcases pushEntropy_cases b s with h | ⟨-, ⟨-, h⟩ | ⟨w, -, h⟩⟩ <;> rw [h]

theorem writeCmd_resets (v : Word) (s : State) : (writeCmd v s).resets = s.resets := by
  unfold writeCmd
  split <;> rfl

/-- From `s` to `t` there has been no reset, or one, and then `t` has the values of R47. -/
def ResetsCounted (s t : State) : Prop := t.resets = s.resets ∨ (t.resets = s.resets + 1 ∧ ResetValues t)

theorem csrWrites_resetsCounted {v : Word} {s t : State} (h : CsrWrites v s t) : ResetsCounted s (replyDone t) := by
  cases h with
  | ctrl =>
    unfold writeCtrl
    split
    · exact .inr ⟨rfl, resetValues_replyDone (resetValues_resetWith _ s)⟩
    · exact .inl rfl
  | cmd => exact .inl (writeCmd_resets v s)
  | status => exact .inl rfl
  | ie => exact .inl rfl
  | cfg => exact .inl (lockedWrite_resets rfl)
  | rounds => exact .inl (lockedWrite_resets rfl)
  | bitlen => exact .inl (lockedWrite_resets rfl)
  | msglen => exact .inl (lockedWrite_resets rfl)
  | nblocks => exact .inl (lockedWrite_resets rfl)
  | rngdata => exact .inl (pushEntropy_resets _ s)
  | ignored => exact .inl rfl

theorem accessLeaves_resetsCounted {s t : State} (h : AccessLeaves s t) : ResetsCounted s t := by
  cases h with
  | responds => exact .inl rfl
  | csr v t hw => exact csrWrites_resetsCounted hw
  | bfile k i v => exact .inl (lockedWrite_resets (f := writeBWord k i v) rfl)
  | buffer off v => exact .inl (lockedWrite_resets (f := writeBufferWord off v) rfl)

theorem engineTurn_resets {s t : State} (h : engineTurn s = .next t) : t.resets = s.resets := by
  rcases engineTurn_leaves h with hn | ⟨i, _, -, -, hl⟩ | hp | ⟨n, w, -, -⟩
  · rfl
  · exact hl.keepsControl.resets
  · rfl
  · exact (runMoves_keeps n s).1.control.resets

theorem takeEvent_resetsCounted {e : Event} {s t : State} (h : takeEvent e s = .next t) : ResetsCounted s t := by
  cases e with
  | host a => cases h; exact accessLeaves_resetsCounted (hostAccess_cases a s)
  | source asked a => cases h; exact .inl (sourceAnswer_keeps asked a s).1.control.resets
  | engine pace => exact .inl (engineTurn_resets (s := { s with pace := pace }) h)
  | powerOn => cases h; exact .inr ⟨rfl, resetValues_resetWith _ s⟩

/-- Settles O59: the two resets by `resetValues_resetWith`, every other step by `takeEvent_resetsCounted`. -/
theorem powerOnGivesTheResetValues : Obligations.PowerOnGivesTheResetValues := by
  refine ⟨resetValues_reset, fun s rest h => ?powerOn, fun s t h => ?anyStep⟩
  case powerOn =>
    exact ⟨_, step_of_inputs_cons h, resetValues_resetWith _ _, rfl, rfl, rfl⟩
  case anyStep =>
    cases hin : s.inputs with
    | nil => exact .inl (engineTurn_resets (step_of_inputs_nil hin ▸ h))
    | cons e rest => exact takeEvent_resetsCounted (s := { s with inputs := rest }) (step_of_inputs_cons hin ▸ h)

/-! ### The buffers after a soft reset -/

theorem softResetMemory_idle {s : State} (h : busy s = false) : softResetMemory s = s.mem := by
  simp [softResetMemory, h]

theorem softResetMemory_enc {s : State} {ra rn : BReg} (hb : busy s = true) (hd : decode s.cmd = .ok (.enc ra rn)) :
    softResetMemory s = forgetBlk s.free s.mem := by
  simp only [softResetMemory, hb, hd, if_true]

theorem softResetMemory_dec {s : State} {ra rn : BReg} (hb : busy s = true) (hd : decode s.cmd = .ok (.dec ra rn)) :
    softResetMemory s = forgetMsg s.free s.mem := by
  simp only [softResetMemory, hb, hd, if_true]

theorem softResetMemory_other {s : State} (henc : ∀ ra rn, decode s.cmd ≠ .ok (.enc ra rn))
    (hdec : ∀ ra rn, decode s.cmd ≠ .ok (.dec ra rn)) : softResetMemory s = s.mem := by
  unfold softResetMemory
  split
  · split
    case h_1 ra rn h => exact absurd h (henc ra rn)
    case h_2 ra rn h => exact absurd h (hdec ra rn)
    case h_3 => rfl
  · rfl

/-- Settles O60: a CTRL write is a soft reset or nothing (R27), and `softResetMemory` gives the buffers by the aborted
command (R233). -/
theorem softResetKeepsTheBuffersWhenItMay : Obligations.SoftResetKeepsTheBuffersWhenItMay := by
  intro s v
  have haccess : hostAccess (w32 0x00C v) s = replyDone (writeCtrl v s) := hostAccess_w32_csr 0x00C v s rfl (by decide)
  refine ⟨_, haccess, fun h0 => ?nothing, fun h1 => ?reset⟩
  case nothing => rw [writeCtrl, if_neg (Bool.eq_false_iff.mp h0)]; rfl
  case reset =>
    rw [writeCtrl, if_pos h1]
    have hmem : (replyDone (softReset s)).mem = softResetMemory s := rfl
    rw [hmem]
    refine ⟨resetValues_replyDone (resetValues_resetWith _ s), rfl, fun hb a => ?idle,
      fun hb => ⟨fun ra rn hd => ?enc, fun ra rn hd => ?dec, fun henc hdec a => ?other⟩⟩
    case idle => rw [softResetMemory_idle hb]
    case enc =>
      rw [softResetMemory_enc hb hd]
      exact ⟨readByte_forgetBlk_msg s.free s.mem, readByte_forgetBlk_blk s.free s.mem⟩
    case dec =>
      rw [softResetMemory_dec hb hd]
      exact ⟨readByte_forgetMsg_blk s.free s.mem, readByte_forgetMsg_msg s.free s.mem⟩
    case other => rw [softResetMemory_other henc hdec]

end Sys2Proof.Machine
end

section
/-! The words of the window against the values they belong to (spec/20_memory.md R62, R63): a buffer word as a digit of
the little-endian integer of the bytes around it, and the bits of a big value after a write of one of its words. -/

namespace Sys2Proof.Machine

open Sys2Proof.Laws Sys2Proof.Safety

/-! ### Words read -/

/-- Dropping the low bytes divides the little-endian integer. -/
theorem leInt_drop (n : Nat) (bs : List Byte) : leInt (bs.drop n) = leInt bs / 256 ^ n := by
  induction n generalizing bs with
  | zero => simp
  | succ n ih =>
    cases bs with
    | nil => simp [leInt]
    | cons b bs =>
      have hb : (b.toNat + 256 * leInt bs) / 256 = leInt bs := by omega
      rw [List.drop_succ_cons, ih, leInt, Nat.pow_succ', ← Nat.div_div_eq_div_mul, hb]

theorem readBytes_succ (m : Memory) (a n : Nat) : readBytes m a (n + 1) = readByte m a :: readBytes m (a + 1) n := by
  apply List.ext_getElem
  · simp
  · intro i _ _
    cases i with
    | zero => simp [readBytes]
    | succ i => simp [readBytes, Nat.add_comm 1, Nat.add_assoc]

theorem readBytes_drop (m : Memory) (a n len : Nat) :
    (readBytes m a len).drop n = readBytes m (a + n) (len - n) := by
  apply List.ext_getElem
  · simp
  · intro i _ _
    simp [readBytes, Nat.add_assoc]

/-- A buffer word is the lowest word of any little-endian integer read from its offset. -/
theorem bufferWord_eq_leInt (m : Memory) (off n : Nat) :
    bufferWord m off = BitVec.ofNat 32 (leInt (readBytes m off (n + 4))) := by
  have h0 := (readByte m off).isLt
  have h1 := (readByte m (off + 1)).isLt
  have h2 := (readByte m (off + 2)).isLt
  have h3 := (readByte m (off + 3)).isLt
  apply BitVec.eq_of_toNat_eq
  rw [bufferWord_toNat, BitVec.toNat_ofNat]
  simp only [readBytes_succ, leInt, Nat.add_assoc, Nat.reduceAdd]
  omega

/-- Word i of BLKBUF slot j (R62). -/
theorem bufferWord_slot (m : Memory) (j i : Nat) (hi : i < 128) :
    bufferWord m (slotWordOffset j i) = BitVec.ofNat 32 (blkRead m j / 2 ^ (32 * i)) := by
  have hoff : slotWordOffset j i = slotOffset j + 4 * i := rfl
  have hlen : Config.bigBytes - 4 * i = (508 - 4 * i) + 4 := by simp only [Config.bigBytes]; omega
  have hpow : (2 : Nat) ^ (32 * i) = 256 ^ (4 * i) := by rw [Nat.pow_mul, Nat.pow_mul]
  rw [blkRead, hpow, ← leInt_drop, readBytes_drop, hlen, hoff, ← bufferWord_eq_leInt]

/-- The MSGBUF word of bytes 4j to 4j+3 (R62). -/
theorem bufferWord_msg (m : Memory) (j : Nat) :
    bufferWord m (msgWordOffset j) = BitVec.ofNat 32 ((msgRead m (4 * j)).toNat
      + 2 ^ 8 * (msgRead m (4 * j + 1)).toNat + 2 ^ 16 * (msgRead m (4 * j + 2)).toNat
      + 2 ^ 24 * (msgRead m (4 * j + 3)).toNat) := by
  refine Eq.trans ?_ (congrArg (BitVec.ofNat 32) (bufferWord_toNat m (msgWordOffset j)))
  rw [BitVec.ofNat_toNat, BitVec.setWidth_eq]

/-! ### Words written -/

/-- The bits of a big value one of whose words is replaced (R62). -/
theorem setBigWord_getLsbD (v : Big) (i : Nat) (w : Word) (j : Nat) (hj : j < 4096) :
    (setBigWord v i w).getLsbD j =
      if 32 * i ≤ j ∧ j < 32 * i + 32 then w.getLsbD (j - 32 * i) else v.getLsbD j := by
  have hmask (n : Nat) : Nat.testBit 0xFFFFFFFF n = decide (n < 32) := Nat.testBit_two_pow_sub_one 32 n
  rw [setBigWord, BitVec.getLsbD_or, BitVec.getLsbD_and, BitVec.getLsbD_not, BitVec.getLsbD_shiftLeft,
    BitVec.getLsbD_shiftLeft, BitVec.getLsbD_ofNat, BitVec.getLsbD_setWidth, hmask]
  have hsub : j - 32 * i < 4096 := by omega
  by_cases hlow : j < 32 * i
  · simp [hj, hlow, Nat.not_le.mpr hlow]
  · by_cases hhigh : j < 32 * i + 32
    · have hin : j - 32 * i < 32 := by omega
      simp [hj, hsub, hlow, hhigh, hin, Nat.not_lt.mp hlow]
    · have hout : 32 ≤ j - 32 * i := by omega
      simp [hj, hsub, hlow, hhigh, Nat.not_lt.mpr hout, BitVec.getLsbD_of_ge w _ hout]

theorem writeBWord_getElem_self (k : BReg) (i : Nat) (v : Word) (s : State) :
    (writeBWord k i v s).b[k] = setBigWord s.b[k] i v := Vector.getElem_set_self k.isLt

theorem writeBWord_registers (k : BReg) (i : Nat) (v : Word) (s : State) :
    KeepsRegistersBut [k] s (writeBWord k i v s) := by
  intro r hr
  have hne : k.val ≠ r.val := fun h => hr (List.mem_singleton.mpr (Fin.ext h.symm))
  exact Vector.getElem_set_ne k.isLt r.isLt hne

/-- The four bytes of a stored word, least significant first (R63). -/
theorem readByte_writeBufferWord (off : Nat) (v : Word) (s : State) {j : Nat} (hj : j < 4) :
    readByte (writeBufferWord off v s).mem (off + j) = v.extractLsb' (8 * j) 8 := by
  rw [writeBufferWord_mem, readByte_writeBytes_in _ _ _ _ hj]
  exact wordToBytes_getElem v j hj

end Sys2Proof.Machine
end

section
/-! The host's accesses of the B-file and the buffers (spec/20_memory.md R62 to R64, R69): idle reads and writes, and
the busy lock. -/

namespace Sys2Proof.Machine

open Sys2Proof.Safety

/-! ### Idle accesses -/

theorem hostAccess_r32_buffer {off : Nat} {s : State} (hb : busy s = false) (ho : off % 4 = 0) (hin : inBuffers off) :
    hostAccess (r32 off) s = replyData (bufferWord s.mem off) s := by
  rw [hostAccess_r32 off s ho, hostRead, place_buffer off hin]
  exact hiddenRead_idle _ s hb

theorem hostAccess_w32_bWord {k : BReg} {i : Nat} {s : State} (v : Word) (hb : busy s = false) (hi : i < 128) :
    hostAccess (w32 (bWordOffset k i) v) s = replyDone (writeBWord k i v s) := by
  have ho : bWordOffset k i % 4 = 0 := by simp only [bWordOffset]; omega
  rw [hostAccess_w32 _ v s ho, hostWrite, place_bWord k i hi]
  exact congrArg replyDone (lockedWrite_idle _ s hb)

theorem hostAccess_w32_buffer {off : Nat} {s : State} (v : Word) (hb : busy s = false) (ho : off % 4 = 0)
    (hin : inBuffers off) : hostAccess (w32 off v) s = replyDone (writeBufferWord off v s) := by
  rw [hostAccess_w32 off v s ho, hostWrite, place_buffer off hin]
  exact congrArg replyDone (lockedWrite_idle _ s hb)

theorem slotWordOffset_in {j i : Nat} (hj : j < 128) (hi : i < 128) :
    slotWordOffset j i % 4 = 0 ∧ inBuffers (slotWordOffset j i) := by
  simp only [slotWordOffset, inBuffers, Config.msgBase, Config.msgTop, Config.blkBase, Config.window]
  omega

theorem msgWordOffset_in {j : Nat} (hj : j < 2048) : msgWordOffset j % 4 = 0 ∧ inBuffers (msgWordOffset j) := by
  simp only [msgWordOffset, inBuffers, Config.msgBase, Config.msgTop, Config.blkBase, Config.window]
  omega

/-- Settles O50: an idle read answers the word of its place, which is that of R62 by `bigWord_eq`, `bufferWord_slot` and
`bufferWord_msg`. -/
theorem windowReadsFollowTheFormulas : Obligations.WindowReadsFollowTheFormulas := by
  intro s hb
  refine ⟨fun k i hi => ?register, fun j i hj hi => ?slot, fun j hj => ?message⟩
  case register => rw [hostAccess_r32_bWord k i s hi hb, bigWord_eq]; rfl
  case slot =>
    obtain ⟨ho, hin⟩ := slotWordOffset_in hj hi
    rw [hostAccess_r32_buffer hb ho hin, bufferWord_slot _ _ _ hi]; rfl
  case message =>
    obtain ⟨ho, hin⟩ := msgWordOffset_in hj
    rw [hostAccess_r32_buffer hb ho hin, bufferWord_msg]; rfl

/-- Settles O51: the register's bits by `setBigWord_getLsbD`, the buffer's bytes by `readByte_writeBufferWord`. -/
theorem hostWritesOneWord : Obligations.HostWritesOneWord := by
  intro s v hb
  refine ⟨fun k i hi => ?register, fun off ho hin => ?buffer⟩
  case register =>
    refine ⟨_, hostAccess_w32_bWord v hb hi, fun j hj => ?_, writeBWord_registers k i v s, rfl⟩
    rw [replyDone_eq, replyData_b, writeBWord_getElem_self, setBigWord_getLsbD _ _ _ _ hj]
  case buffer =>
    exact ⟨_, hostAccess_w32_buffer v hb ho hin, fun j hj => readByte_writeBufferWord off v s hj,
      fun a ha => readByte_writeBytes_out _ _ _ _ ha, rfl⟩

/-! ### The busy lock (R69) -/

/-- A hidden offset is a word of a big register or of a buffer. -/
theorem place_hidden {off : Nat} (h : hiddenOffset off) :
    (∃ k i, place off = .bfile k i) ∨ place off = .buffer off := by
  obtain ⟨-, hin⟩ := h
  have hcsr : ¬ off < Config.csrTop := by simp only [Config.csrTop]; omega
  rw [place, if_neg hcsr]
  rcases hin with hB | hbuf
  · exact .inl ⟨_, _, if_pos hB⟩
  · have hnB : ¬ (Config.bBase ≤ off ∧ off < Config.bTop) := by simp only [Config.bBase, Config.bTop]; omega
    exact .inr (by rw [if_neg hnB, if_pos hbuf])

/-- The write of a hidden offset is one the busy lock covers. -/
theorem hostWrite_hidden {off : Nat} (h : hiddenOffset off) (v : Word) (s : State) :
    ∃ f : State → State, hostWrite off v s = replyDone (lockedWrite f s) := by
  rcases place_hidden h with ⟨k, i, hp⟩ | hp
  · exact ⟨writeBWord k i v, by rw [hostWrite, hp]⟩
  · exact ⟨writeBufferWord off v, by rw [hostWrite, hp]⟩

theorem hostRead_hidden {off : Nat} (h : hiddenOffset off) (s : State) : ∃ v, hostRead off s = hiddenRead v s := by
  rcases place_hidden h with ⟨k, i, hp⟩ | hp
  · exact ⟨bigWord s.b[k] i, by rw [hostRead, hp]⟩
  · exact ⟨bufferWord s.mem off, by rw [hostRead, hp]⟩

/-- Every write of a locked location goes through `lockedWrite`. -/
theorem hostAccess_w32_lockedOffset {off : Nat} (h : lockedOffset off) (v : Word) (s : State) :
    ∃ f : State → State, hostAccess (w32 off v) s = replyDone (lockedWrite f s) := by
  rcases h with hh | rfl | rfl | rfl | rfl | rfl
  case inl => rw [hostAccess_w32 off v s hh.1]; exact hostWrite_hidden hh v s
  all_goals exact ⟨_, hostAccess_w32_csr _ v s rfl (by decide)⟩

/-- Settles O54: a locked write is a `lockedWrite` (`hostAccess_w32_lockedOffset`), a hidden read a `hiddenRead`
(`hostRead_hidden`). -/
theorem theBusyLock : Obligations.TheBusyLock := by
  intro s off v hb
  refine ⟨fun hlocked => ?write, fun hhidden => ?read⟩
  case write =>
    obtain ⟨f, hf⟩ := hostAccess_w32_lockedOffset hlocked v s
    rw [hf, lockedWrite_busy f s hb]; rfl
  case read =>
    obtain ⟨w, hw⟩ := hostRead_hidden hhidden s
    rw [hostAccess_r32 off s hhidden.1, hw, hiddenRead_busy w s hb]

end Sys2Proof.Machine
end

section
/-! What the decoder makes of a word, said once: a word shows a command when it has the command's opcode and every
field the command names (R92, R95); it decodes to the well-formed command it shows, or it fails a check of R96. -/

namespace Sys2Proof

open Sys2Proof.Safety

/-! ### The fields a command names -/

/-- The fields of a command's word (R92, R95): the registers it names, and what bits 31:24 hold. -/
structure NamedFields where
  rd : Option BReg := none
  ra : Option BReg := none
  rb : Option BReg := none
  rn : Option BReg := none
  imm : Byte := 0#8

/-- The fields each command's row of R95 names. -/
def Instr.fields : Instr → NamedFields
  | .nop => {}
  | .mov rd ra | .coprime rd ra => { rd, ra }
  | .add rd ra rb | .sub rd ra rb | .mul rd ra rb | .gcd rd ra rb => { rd, ra, rb }
  | .addi rd ra imm | .subi rd ra imm => { rd, ra, imm }
  | .cmp ra rb => { ra, rb }
  | .modred rd ra rn | .modinv rd ra rn | .keygen rd ra rn => { rd, ra, rn }
  | .modmul rd ra rb rn | .modexp rd ra rb rn | .montmul rd ra rb rn => { rd, ra, rb, rn }
  | .primeq ra => { ra }
  | .genprime rd => { rd }
  | .enc ra rn | .dec ra rn => { ra, rn }

theorem encode_eq_layout (i : Instr) :
    encode i = layout i.fields.imm (i.fields.rn.getD 0) (i.fields.rb.getD 0) (i.fields.ra.getD 0)
      (i.fields.rd.getD 0) i.opcode := by
  cases i <;> rfl

theorem and_decodedBits (i : Instr) (w : Word) :
    w &&& decodedBits i = layout (immField w) (if i.fields.rn.isSome then rnField w else 0)
      (if i.fields.rb.isSome then rbField w else 0) (if i.fields.ra.isSome then raField w else 0)
      (if i.fields.rd.isSome then rdField w else 0) (opcField w) := by
  apply and_mask
  cases i <;> simp [decodedBits, Instr.fields]

theorem layout_inj {imm imm' : Byte} {rn rn' rb rb' ra ra' rd rd' : BReg} {opc opc' : BitVec 8} :
    layout imm rn rb ra rd opc = layout imm' rn' rb' ra' rd' opc' ↔
      imm = imm' ∧ rn = rn' ∧ rb = rb' ∧ ra = ra' ∧ rd = rd' ∧ opc = opc' := by
  refine ⟨fun h => ⟨?_, ?_, ?_, ?_, ?_, ?_⟩, by rintro ⟨rfl, rfl, rfl, rfl, rfl, rfl⟩; rfl⟩
  · simpa using congrArg immField h
  · simpa using congrArg rnField h
  · simpa using congrArg rbField h
  · simpa using congrArg raField h
  · simpa using congrArg rdField h
  · simpa using congrArg opcField h

/-! ### The words that show a command -/

/-- Word `w` has the opcode of command `i` and every field `i` names; the other fields are free. -/
structure Shows (i : Instr) (w : Word) : Prop where
  opc : opcField w = i.opcode
  imm : immField w = i.fields.imm
  rd : ∀ r ∈ i.fields.rd, rdField w = r
  ra : ∀ r ∈ i.fields.ra, raField w = r
  rb : ∀ r ∈ i.fields.rb, rbField w = r
  rn : ∀ r ∈ i.fields.rn, rnField w = r

theorem shows_encode (i : Instr) : Shows i (encode i) := by
  rw [encode_eq_layout]
  constructor <;> simp +contextual

/-- A register field that is kept where it is named and cleared elsewhere. -/
theorem keptField_eq_iff (named : Option BReg) (x : BReg) :
    (if named.isSome then x else 0) = named.getD 0 ↔ ∀ r ∈ named, x = r := by
  cases named <;> simp

theorem shows_iff (i : Instr) (w : Word) : Shows i w ↔ encode i = w &&& decodedBits i := by
  rw [eq_comm, and_decodedBits, encode_eq_layout, layout_inj, keptField_eq_iff, keptField_eq_iff, keptField_eq_iff,
    keptField_eq_iff]
  exact ⟨fun h => ⟨h.imm, h.rn, h.rb, h.ra, h.rd, h.opc⟩,
    fun ⟨himm, hrn, hrb, hra, hrd, hopc⟩ => ⟨hopc, himm, hrd, hra, hrb, hrn⟩⟩

/-- The decoder takes the row of the opcode and fills it with the fields that are shown. -/
theorem decode_of_shows {i : Instr} {w : Word} (hwf : i.wellFormed = true) (h : Shows i w) : decode w = .ok i := by
  obtain ⟨hopc, himm, hrd, hra, hrb, hrn⟩ := h
  cases i <;>
    simp_all [decode, plainFormat, keygenFormat, Instr.opcode, Instr.fields, Instr.wellFormed]

/-! ### The words that are illegal -/

theorem opcField_eq_iff (w : Word) (opc : BitVec 8) : opcField w = opc ↔ w.toNat % 256 = opc.toNat := by
  rw [← BitVec.toNat_inj, opcField_toNat]

theorem immField_eq_zero_iff (w : Word) : immField w = 0#8 ↔ w.toNat / 2 ^ 24 = 0 := by
  rw [← BitVec.toNat_inj, immField_toNat]; rfl

/-- The three checks of R96 as the decoder makes them, on the fields. -/
theorem illegalWord_iff (w : Word) :
    illegalWord w.toNat ↔ (opcField w).toNat ∉ assignedOpcodes ∨
      (opcField w ≠ 0x05#8 ∧ opcField w ≠ 0x06#8 ∧ immField w ≠ 0#8) ∨
      (opcField w = 0x23#8 ∧ ¬ distinctDestinations (rdField w) (raField w) (rnField w)) := by
  simp only [illegalWord, distinctDestinations, ne_eq, not_and_or, not_not, Fin.ext_iff, opcField_eq_iff,
    immField_eq_zero_iff, opcField_toNat, rdField_val, raField_val, rnField_val, BitVec.toNat_ofNat]

theorem Instr.opcode_assigned (i : Instr) : i.opcode.toNat ∈ assignedOpcodes := by
  cases i <;> simp [opcode, assignedOpcodes]

/-- Bits 31:24 are 0 outside format I (R92). -/
theorem Instr.imm_of_plain (i : Instr) (h5 : i.opcode ≠ 0x05#8) (h6 : i.opcode ≠ 0x06#8) : i.fields.imm = 0#8 := by
  cases i
  case addi => exact absurd rfl h5
  case subi => exact absurd rfl h6
  all_goals rfl

theorem Instr.eq_keygen_of_opcode {i : Instr} (h : i.opcode = 0x23#8) : ∃ rd ra rn, i = .keygen rd ra rn := by
  cases i
  case keygen rd ra rn => exact ⟨rd, ra, rn, rfl⟩
  all_goals simp [opcode] at h

/-- A word that shows a well-formed command passes the three checks. -/
theorem Shows.not_illegalWord {i : Instr} {w : Word} (h : Shows i w) (hwf : i.wellFormed = true) :
    ¬ illegalWord w.toNat := by
  rw [illegalWord_iff, h.opc]
  rintro (hopc | ⟨h5, h6, himm⟩ | ⟨hopc, hd⟩)
  · exact hopc i.opcode_assigned
  · exact himm (h.imm.trans (i.imm_of_plain h5 h6))
  · obtain ⟨rd, ra, rn, rfl⟩ := Instr.eq_keygen_of_opcode hopc
    rw [h.rd rd rfl, h.ra ra rfl, h.rn rn rfl] at hd
    exact hd (of_decide_eq_true hwf)

/-! ### What the decoder answers -/

/-- A right answer of the decoder about word `w`: the well-formed command it shows, or an error for an illegal word. -/
def DecodeAnswer (w : Word) : Except DecodeError Instr → Prop
  | .ok i => i.wellFormed = true ∧ Shows i w
  | .error _ => illegalWord w.toNat

theorem plainFormat_answer {w : Word} {i : Instr} {opc : BitVec 8} (hopc : opcField w = opc) (h5 : opc ≠ 0x05#8)
    (h6 : opc ≠ 0x06#8) (hwf : i.wellFormed = true) (h : immField w = 0#8 → Shows i w) :
    DecodeAnswer w (plainFormat w i) := by
  subst hopc
  rw [plainFormat]
  split
  case isTrue himm => exact ⟨hwf, h himm⟩
  case isFalse himm => exact (illegalWord_iff w).2 (.inr (.inl ⟨h5, h6, himm⟩))

theorem keygenFormat_answer {w : Word} (hopc : opcField w = 0x23#8) : DecodeAnswer w (keygenFormat w) := by
  rw [keygenFormat]
  split
  case isTrue himm =>
    split
    case isTrue hd => exact ⟨decide_eq_true hd, by constructor <;> simp [hopc, himm, Instr.opcode, Instr.fields]⟩
    case isFalse hd => exact (illegalWord_iff w).2 (.inr (.inr ⟨hopc, hd⟩))
  case isFalse himm => exact (illegalWord_iff w).2 (.inr (.inl ⟨by simp [hopc], by simp [hopc], himm⟩))

/-- By the rows of the decoder's table: ADDI and SUBI (format I), KEYGEN, the reserved opcodes, and the plain rest. -/
theorem decode_answer (w : Word) : DecodeAnswer w (decode w) := by
  unfold decode
  split
  case h_6 hopc | h_7 hopc => exact ⟨rfl, by constructor <;> simp [hopc, Instr.opcode, Instr.fields]⟩
  case h_18 hopc => exact keygenFormat_answer hopc
  case h_21 =>
    refine (illegalWord_iff w).2 (.inl ?_)
    simp_all [assignedOpcodes, ← BitVec.toNat_inj]
  all_goals
    rename_i hopc
    exact plainFormat_answer hopc (by decide) (by decide) rfl fun himm => by
      constructor <;> simp [hopc, himm, Instr.opcode, Instr.fields]

theorem illegalWord_of_decode_error {w : Word} {e : DecodeError} (h : decode w = .error e) :
    illegalWord w.toNat := by
  have ha := decode_answer w
  rwa [h] at ha

theorem shows_of_decode_ok {w : Word} {i : Instr} (h : decode w = .ok i) : i.wellFormed = true ∧ Shows i w := by
  have ha := decode_answer w
  rwa [h] at ha

/-- Settles O1: the word of a command shows it (`shows_encode`), and a word decodes to what it shows. -/
theorem decodeInvertsEncode : Obligations.DecodeInvertsEncode := fun i hwf => decode_of_shows hwf (shows_encode i)

/-- Settles O2: a word shows `i` exactly when its decoded bits are `i`'s word (`shows_iff`). -/
theorem ignoredFieldsGiveTheSameCommand : Obligations.IgnoredFieldsGiveTheSameCommand := by
  intro w i h
  obtain ⟨hwf, hshows⟩ := shows_of_decode_ok h
  have he := (shows_iff i w).1 hshows
  exact ⟨hwf, he, fun w' hw' => decode_of_shows hwf ((shows_iff i w').2 (he.trans hw'.symm))⟩

/-! ### The rows of R101 -/

theorem fieldAt_eq (r : BReg) (n : Nat) : fieldAt r n = (BitVec.ofFin r : BitVec 4).setWidth 32 <<< n := by
  rw [fieldAt, ← BitVec.ofNat_toNat]; rfl

/-- The layout as its fields, each shifted to its place of R91, joined by "or". -/
theorem layout_or (imm : Byte) (rn rb ra rd : BReg) (opc : BitVec 8) :
    layout imm rn rb ra rd opc = opc.setWidth 32 ||| fieldAt rd 8 ||| fieldAt ra 12 ||| fieldAt rb 16 ||| fieldAt rn 20
      ||| immediateAt imm := by
  rw [layout_append, fieldAt_eq, fieldAt_eq, fieldAt_eq, fieldAt_eq, immediateAt]
  apply BitVec.eq_of_getLsbD_eq
  intro i hi
  simp only [BitVec.getLsbD_or, BitVec.getLsbD_append, BitVec.getLsbD_shiftLeft, BitVec.getLsbD_setWidth]
  interval_cases i <;> simp

theorem fieldAt_zero (n : Nat) : fieldAt 0 n = 0#32 := by simp [fieldAt]

theorem immediateAt_zero : immediateAt 0#8 = 0#32 := by simp [immediateAt]

theorem encode_eq_rowWord (i : Instr) : encode i = rowWord i := by
  cases i <;> simp [encode, layout_or, rowWord, Instr.opcode, fieldAt_zero, immediateAt_zero]

/-- Settles O4: `encode_eq_rowWord`, and the six words of spec/95 section 9 evaluated. -/
theorem commandWordsFollowTheirRows : Obligations.CommandWordsFollowTheirRows :=
  ⟨encode_eq_rowWord, by decide, by decide, by decide, by decide, by decide, by decide⟩

end Sys2Proof
end

section
/-! What the engine does with a word: it runs the command the word decodes to, or completes with ILLEGAL; and a word
placed in CMD is the one the next step executes. -/

namespace Sys2Proof.Machine

open Sys2Proof.Safety

theorem executeWord_of_decode_error {w : Word} {e : DecodeError} (h : decode w = .error e) (s : State) :
    executeWord w s = .next (complete .illegal s) := by
  simp only [executeWord, h, raise_eq]

/-- Settles O3: a word the decoder refuses is illegal (`illegalWord_of_decode_error`), and a word that shows a command
is not (`Shows.not_illegalWord`). -/
theorem everyWordIsACommandOrIllegal : Obligations.EveryWordIsACommandOrIllegal := by
  intro w s
  cases h : decode w with
  | error e =>
    exact ⟨fun _ => executeWord_of_decode_error h s, fun hlegal => absurd (illegalWord_of_decode_error h) hlegal⟩
  | ok i =>
    obtain ⟨hwf, hshows⟩ := shows_of_decode_ok h
    exact ⟨fun hillegal => absurd hillegal (hshows.not_illegalWord hwf),
      fun _ => ⟨i, rfl, (shows_iff i w).1 hshows, executeWord_of_decode_ok h s⟩⟩

/-- The step takes the engine's turn off the inputs, which leaves the state of the acceptance. -/
theorem step_withFetchWord (s : State) (nbits w : Nat) :
    step (s.withFetchWord nbits w) =
      executeWord (BitVec.ofNat 32 (w % 2 ^ nbits)) (accept (BitVec.ofNat 32 (w % 2 ^ nbits)) s) := by
  rw [step_of_inputs_cons rfl, takeEvent_engine, engineTurn_of_fetch rfl]
  rfl

theorem decodeTableWord_eq_some_iff (nbits w : Nat) (i : Instr) :
    decodeTableWord nbits w = some i ↔ decode (BitVec.ofNat 32 (w % 2 ^ nbits)) = .ok i := by
  rw [decodeTableWord]
  cases decode (BitVec.ofNat 32 (w % 2 ^ nbits)) <;> simp [Except.toOption]

theorem decodeTableWord_eq_none_iff (nbits w : Nat) :
    decodeTableWord nbits w = none ↔ ∃ e, decode (BitVec.ofNat 32 (w % 2 ^ nbits)) = .error e := by
  rw [decodeTableWord]
  cases decode (BitVec.ofNat 32 (w % 2 ^ nbits)) <;> simp [Except.toOption]

/-- Settles O6: the next step executes the placed word (`step_withFetchWord`), by whether it decodes. -/
theorem stepRunsThePlacedWord : Obligations.StepRunsThePlacedWord := by
  intro s nbits w
  rw [step_withFetchWord]
  refine ⟨fun i h => ?runs, fun h => ?illegal⟩
  case runs => exact executeWord_of_decode_ok ((decodeTableWord_eq_some_iff nbits w i).1 h) _
  case illegal =>
    obtain ⟨e, he⟩ := (decodeTableWord_eq_none_iff nbits w).1 h
    exact executeWord_of_decode_error he _

end Sys2Proof.Machine
end

section
/-! Sums, differences and modular products written to a register, with their flags and frames (spec/40_bigint.md R113 to
R117, spec/41_modular.md R131), and by them the pseudo-instructions (spec/30_encoding.md R102). -/

namespace Sys2Proof.Machine

open Sys2Proof.Safety

/-! ### Sums and differences -/

/-- The completion of a command that writes one register and the flags. -/
theorem complete_writesRegisterAndFlags (rd : BReg) (v : Nat) (f : Flags) (s : State) :
    WritesRegister rd (v % bigMod) f s (complete .ok (writeFlags f (writeB rd v s))) where
  completed := complete_completed _ _
  value := readB_writeB_self rd v s
  registers := fun r hr => writeB_getElem_ne rd r v s (by simpa using hr)
  flags := rfl
  control := ⟨rfl, rfl, rfl, rfl, rfl, rfl, rfl, rfl, rfl, rfl, rfl, rfl, rfl⟩
  entropy := ⟨rfl, rfl, rfl⟩
  buffers := ⟨rfl, rfl, fun _ => rfl⟩

theorem addInto_writesRegister (rd : BReg) (x y : Nat) (s : State) :
    WritesRegister rd ((x + y) % bigMod) (addFlags x y s.flags) s (addInto rd x y s) :=
  complete_writesRegisterAndFlags rd (x + y) _ s

theorem subWrapped_lt (x y : Nat) : subWrapped x y < bigMod := Nat.mod_lt _ bigMod_pos

/-- The wrapped difference is the residue of the difference of the integers (R114, R117). -/
theorem subWrapped_eq {x y : Nat} (h : y ≤ bigMod) : subWrapped x y = (((x : ℤ) - y) % (bigMod : ℤ)).toNat := by
  have hz : ((x + (bigMod - y) : ℕ) : ℤ) = (x : ℤ) - y + bigMod := by
    rw [Nat.cast_add, Nat.cast_sub h]; ring
  rw [subWrapped, ← Int.add_emod_right, ← hz, ← Int.natCast_mod, Int.toNat_natCast]

theorem subWrapped_self {x : Nat} (h : x ≤ bigMod) : subWrapped x x = 0 := by
  rw [subWrapped, Nat.add_sub_cancel' h, Nat.mod_self]

theorem subFlags_self {x : Nat} (h : x ≤ bigMod) (f : Flags) : subFlags x x f = ⟨true, false, false, f.res⟩ := by
  simp only [subFlags, subWrapped_self h, lt_irrefl, decide_true, decide_false]

theorem subInto_writesRegister (rd : BReg) (x y : Nat) (s : State) :
    WritesRegister rd (subWrapped x y) (subFlags x y s.flags) s (subInto rd x y s) := by
  have h := complete_writesRegisterAndFlags rd (subWrapped x y) (subFlags x y s.flags) s
  rwa [Nat.mod_eq_of_lt (subWrapped_lt x y)] at h

theorem byte_lt_bigMod (imm : Byte) : imm.toNat < bigMod :=
  lt_of_lt_of_le imm.isLt (by rw [bigMod]; exact Nat.pow_le_pow_right (by decide) (by decide))

theorem keepsRegistersBut_trans {written : List BReg} {s t u : State} (h : KeepsRegistersBut written s t)
    (k : KeepsRegistersBut written t u) : KeepsRegistersBut written s u := fun r hr => (k r hr).trans (h r hr)

/-! ### The pseudo-instructions -/

theorem exec_clr_writesRegister (bd : BReg) (s : State) :
    ∃ t, exec (Instr.clr bd) s = .next t ∧ WritesRegister bd 0 ⟨true, false, false, s.flags.res⟩ s t := by
  have hle : readB bd s ≤ bigMod := (readB_lt bd s).le
  have h := subInto_writesRegister bd (readB bd s) (readB bd s) s
  rw [subWrapped_self hle, subFlags_self hle] at h
  exact ⟨_, rfl, h⟩

theorem exec_modmul_writesRegister (rd ra rb rn : BReg) (s : State) (h : readB rn s ≠ 0) :
    ∃ t, exec (.modmul rd ra rb rn) s = .next t ∧
      WritesRegister rd (readB ra s * readB rb s % readB rn s) s.flags s t := by
  refine ⟨_, rfl, ?_⟩
  rw [withModulus_pos _ _ _ h]
  exact complete_writesRegister rd _ s ((Nat.mod_lt _ (Nat.pos_of_ne_zero h)).trans (readB_lt rn s))

/-- Settles O20: INC and DECR by the sum and the difference written to a register, LDI by CLR and then the sum, SQR by
MODMUL. -/
theorem pseudoInstructionsHaveTheirEffect : Obligations.PseudoInstructionsHaveTheirEffect := by
  intro bd ba bn imm s
  refine ⟨⟨rfl, rfl, rfl, rfl, rfl⟩, exec_clr_writesRegister bd s, ?inc, ?decr, ?ldi, ?sqr⟩
  case inc =>
    have h := addInto_writesRegister bd (readB bd s) 1 s
    exact ⟨_, rfl, h.value, h.registers⟩
  case decr =>
    have h := subInto_writesRegister bd (readB bd s) 1 s
    rw [subWrapped_eq (Nat.one_le_of_lt bigMod_pos)] at h
    exact ⟨_, rfl, h.value, h.registers⟩
  case ldi =>
    obtain ⟨t, ht, hclr⟩ := exec_clr_writesRegister bd s
    have h := addInto_writesRegister bd (readB bd t) imm.toNat t
    have himm : readB bd (addInto bd (readB bd t) imm.toNat t) = imm.toNat := by
      rw [h.value, hclr.value, Nat.zero_add, Nat.mod_eq_of_lt (byte_lt_bigMod imm)]
    exact ⟨t, _, ht, rfl, himm, keepsRegistersBut_trans hclr.registers h.registers⟩
  case sqr =>
    intro hn
    rw [pow_two]
    exact exec_modmul_writesRegister bd ba ba bn s hn

end Sys2Proof.Machine
end

section
/-! The big-integer substrate (spec/40_bigint.md R111 to R119): each command's word, what it writes, and its frame, by
the completions of a register write, of a flag write, or of both. -/

namespace Sys2Proof.Machine

open Sys2Proof.Safety

/-! ### The words -/

theorem encodedPlain_of_imm {i : Instr} (h : i.fields.imm = 0#8) : EncodedPlain i.opcode i :=
  ⟨(shows_encode i).opc, (shows_encode i).imm.trans h⟩

theorem encodedImmediate (i : Instr) : EncodedImmediate i.opcode i.fields.imm i :=
  ⟨(shows_encode i).opc, (shows_encode i).imm⟩

/-! ### Results with the flags read off the destination -/

/-- Z of a sum is that of the register it was written to (R113, R116). -/
theorem addInto_writesSum (rd : BReg) (x y : Nat) (s : State) :
    WritesRegister rd ((x + y) % bigMod)
      ⟨decide (readB rd (addInto rd x y s) = 0), decide (x + y ≥ bigMod), false, s.flags.res⟩ s (addInto rd x y s) := by
  have h := addInto_writesRegister rd x y s
  rw [h.value]
  exact h

/-- The difference is that of the integers, and its Z that of the register it was written to (R114, R117). -/
theorem subInto_writesDifference (rd : BReg) {x y : Nat} (hy : y < bigMod) (s : State) :
    WritesRegister rd (((x : ℤ) - (y : ℤ)) % (bigMod : ℤ)).toNat
      ⟨decide (readB rd (subInto rd x y s) = 0), decide (x < y), false, s.flags.res⟩ s (subInto rd x y s) := by
  have h := subInto_writesRegister rd x y s
  rw [h.value, ← subWrapped_eq hy.le]
  exact h

/-- The completion of a command that writes the flags and no register. -/
theorem complete_writesFlags (f : Flags) (s : State) : WritesNothing .ok f s (complete .ok (writeFlags f s)) where
  completed := complete_completed _ _
  registers := rfl
  flags := rfl
  control := ⟨rfl, rfl, rfl, rfl, rfl, rfl, rfl, rfl, rfl, rfl, rfl, rfl, rfl⟩
  entropy := ⟨rfl, rfl, rfl⟩
  buffers := ⟨rfl, rfl, fun _ => rfl⟩

/-- Also for a zero operand, where the gcd is the other one. -/
theorem gcd_lt {x y n : Nat} (hx : x < n) (hy : y < n) : Nat.gcd x y < n := by
  rcases Nat.eq_zero_or_pos x with rfl | hpos
  · rwa [Nat.gcd_zero_left]
  · exact (Nat.gcd_le_left y hpos).trans_lt hx

/-! ### The commands -/

/-- Settles O13: the wrapped sum of two registers. -/
theorem addWrapsAndCarries : Obligations.AddWrapsAndCarries := fun rd ra rb s =>
  ⟨encodedPlain_of_imm (i := .add rd ra rb) rfl, _, rfl, addInto_writesSum rd (readB ra s) (readB rb s) s⟩

/-- Settles O14: the wrapped difference of two registers. -/
theorem subWrapsAndBorrows : Obligations.SubWrapsAndBorrows := fun rd ra rb s =>
  ⟨encodedPlain_of_imm (i := .sub rd ra rb) rfl, _, rfl, subInto_writesDifference rd (readB_lt rb s) s⟩

/-- Settles O15: the product is written modulo 2^BIGW, and Z of the low half is that of the destination. -/
theorem mulKeepsTheLowHalf : Obligations.MulKeepsTheLowHalf := by
  intro rd ra rb s
  have h := complete_writesRegisterAndFlags rd (readB ra s * readB rb s) (mulFlags (readB ra s) (readB rb s) s.flags) s
  refine ⟨encodedPlain_of_imm (i := .mul rd ra rb) rfl, _, rfl, ?_⟩
  rw [finish_eq, h.value]
  exact h

/-- Settles O16: the wrapped sum of a register and the immediate. -/
theorem addiAddsTheImmediate : Obligations.AddiAddsTheImmediate := fun rd ra imm s =>
  ⟨encodedImmediate (.addi rd ra imm), _, rfl, addInto_writesSum rd (readB ra s) imm.toNat s⟩

/-- Settles O17: the wrapped difference of a register and the immediate. -/
theorem subiSubtractsTheImmediate : Obligations.SubiSubtractsTheImmediate := fun rd ra imm s =>
  ⟨encodedImmediate (.subi rd ra imm), _, rfl, subInto_writesDifference rd (byte_lt_bigMod imm) s⟩

/-- Settles O19: the gcd of two registers fits in a register (`gcd_lt`), and divisibility characterises it. -/
theorem gcdIsTheGreatestCommonDivisor : Obligations.GcdIsTheGreatestCommonDivisor := fun rd ra rb s =>
  ⟨encodedPlain_of_imm (i := .gcd rd ra rb) rfl, _, Nat.gcd (readB ra s) (readB rb s), rfl,
    complete_writesRegister rd _ s (gcd_lt (readB_lt ra s) (readB_lt rb s)),
    Nat.gcd_dvd_left _ _, Nat.gcd_dvd_right _ _, fun _ => Nat.dvd_gcd⟩

/-- Settles O11: NOP is a completion alone. -/
theorem nopOnlyCompletes : Obligations.NopOnlyCompletes := fun s =>
  ⟨encodedPlain_of_imm (i := .nop) rfl, _, rfl, complete_writesNothing .ok s⟩

/-- Settles O12: the value of a register is below 2^BIGW, so it is written as it is. -/
theorem movCopiesARegister : Obligations.MovCopiesARegister := fun rd ra s =>
  ⟨encodedPlain_of_imm (i := .mov rd ra) rfl, _, rfl, complete_writesRegister rd _ s (readB_lt ra s)⟩

/-- Settles O18: the completion of a flag write. -/
theorem cmpWritesOnlyFlags : Obligations.CmpWritesOnlyFlags := fun ra rb s =>
  ⟨encodedPlain_of_imm (i := .cmp ra rb) rfl, _, rfl,
    complete_writesFlags (cmpFlags (readB ra s) (readB rb s) s.flags) s⟩

end Sys2Proof.Machine
end

section
/-! The modular arithmetic commands (spec/41_modular.md R127 to R134): what a modulus of 0 and a result below the
modulus come to, said once for all of them, then each command's text by the cases of its rule. -/

namespace Sys2Proof.Machine

open Sys2Proof.Laws Sys2Proof.Safety

/-! ### The modulus check and the completions -/

/-- A modulus of 0 raises MODZERO and writes nothing, whatever the rest of the command is (R127). -/
theorem withModulus_writesNothing {rn : BReg} {k : Nat → State → State} {s : State} (h : readB rn s = 0) :
    WritesNothing .modzero s.flags s (withModulus rn k s) := by
  rw [withModulus_zero _ _ _ h]
  exact complete_writesNothing .modzero s

/-- A result below some register's value fits in a register. -/
theorem complete_writesRegister_of_lt (rd : BReg) {v : Nat} {rn : BReg} {s : State} (h : v < readB rn s) :
    WritesRegister rd v s.flags s (complete .ok (writeB rd v s)) :=
  complete_writesRegister rd v s (h.trans (readB_lt rn s))

/-- A command whose result is the residue of a value `v` of its operands: MODZERO, or that residue (R127, R130 to
R132). -/
theorem withModulus_writesResidue (rd rn : BReg) (v : State → Nat) (s : State) :
    (readB rn s = 0 →
      WritesNothing .modzero s.flags s (withModulus rn (fun n s => finish (writeB rd (v s % n) s)) s)) ∧
    (readB rn s ≠ 0 → WritesRegister rd (v s % readB rn s) s.flags s
      (withModulus rn (fun n s => finish (writeB rd (v s % n) s)) s)) := by
  refine ⟨withModulus_writesNothing, fun hn => ?_⟩
  rw [withModulus_pos _ _ _ hn]
  exact complete_writesRegister_of_lt rd (Nat.mod_lt _ (Nat.pos_of_ne_zero hn))

/-- The frame of a command does not name the model's counter of free values (assumption 1). -/
theorem writesRegister_of_free_update {rd : BReg} {v g : Nat} {f : Flags} {s t : State}
    (h : WritesRegister rd v f { s with free := g } t) : WritesRegister rd v f s t where
  completed := h.completed
  value := h.value
  registers := h.registers
  flags := h.flags
  control := { h.control with }
  entropy := { h.entropy with }
  buffers := { h.buffers with }

/-! ### The residues -/

/-- Settles O21: the residue of a register. -/
theorem modredGivesTheResidue : Obligations.ModredGivesTheResidue := fun rd ra rn s =>
  ⟨encodedPlain_of_imm (i := .modred rd ra rn) rfl, _, rfl, withModulus_writesResidue rd rn (readB ra) s⟩

/-- Settles O22: the residue of the product of two registers. -/
theorem modmulGivesTheResidue : Obligations.ModmulGivesTheResidue := fun rd ra rb rn s =>
  ⟨encodedPlain_of_imm (i := .modmul rd ra rb rn) rfl, _, rfl,
    withModulus_writesResidue rd rn (fun s => readB ra s * readB rb s) s⟩

/-- MODEXP's square-and-multiply gives the residue of the power (`powMod_eq`). -/
theorem exec_modexp (rd ra rb rn : BReg) (s : State) :
    exec (.modexp rd ra rb rn) s =
      .next (withModulus rn (fun n s => finish (writeB rd (readB ra s ^ readB rb s % n) s)) s) := by
  simp only [exec, execModexp, powMod_eq]

/-- Settles O23: the residue of the power of two registers. -/
theorem modexpGivesTheResidueOfThePower : Obligations.ModexpGivesTheResidueOfThePower := fun rd ra rb rn s =>
  ⟨encodedPlain_of_imm (i := .modexp rd ra rb rn) rfl, _, exec_modexp rd ra rb rn s,
    withModulus_writesResidue rd rn (fun s => readB ra s ^ readB rb s) s⟩

/-! ### The Montgomery product -/

/-- R = 2^BIGW and an odd modulus are coprime. -/
theorem gcd_bigMod_mod {n : Nat} (h : n % 2 = 1) : Nat.gcd (bigMod % n) n = 1 := by
  rw [← Nat.gcd_rec, Nat.gcd_comm, bigMod_eq]
  exact Nat.Coprime.pow_left _ (Nat.coprime_two_left.mpr (Nat.odd_iff.mpr h))

/-- The factor of `montProduct` is the inverse of R = 2^BIGW modulo an odd modulus (R133). -/
theorem modInverse_bigMod_spec {n : Nat} (h : n % 2 = 1) :
    modInverse (bigMod % n) n < n ∧ bigMod * modInverse (bigMod % n) n % n = 1 % n := by
  have hspec := modInverse_spec (bigMod % n) n (by omega) (by rw [Nat.mod_mod]; exact gcd_bigMod_mod h)
  rwa [Nat.mod_mul_mod] at hspec

/-- Settles O24: the inverse of R exists by coprimality with an odd modulus (`modInverse_bigMod_spec`) and is the only
one (`inverse_unique`). -/
theorem montmulUsesTheInverseOfR : Obligations.MontmulUsesTheInverseOfR := by
  intro rd ra rb rn s
  refine ⟨encodedPlain_of_imm (i := .montmul rd ra rb rn) rfl, _, rfl, withModulus_writesNothing, ?even, ?odd⟩
  case even =>
    intro hn heven
    rw [withModulus_pos _ _ _ hn, if_pos heven]
    exact complete_writesNothing .modeven s
  case odd =>
    intro hodd
    have hpos : 0 < readB rn s := by omega
    obtain ⟨hlt, hinv⟩ := modInverse_bigMod_spec hodd
    refine ⟨_, hlt, hinv, fun y hy h => inverse_unique bigMod _ y _ hy hlt h hinv, ?_⟩
    rw [withModulus_pos _ _ _ hpos.ne', if_neg (by omega)]
    exact complete_writesRegister_of_lt rd (Nat.mod_lt _ hpos)

/-! ### The inverse -/

/-- Settles O25: the branches of MODINV, the inverse by `modInverse_spec` and `inverse_unique`. -/
theorem modinvGivesTheInverse : Obligations.ModinvGivesTheInverse := by
  intro rd ra rn s
  refine ⟨encodedPlain_of_imm (i := .modinv rd ra rn) rfl, _, rfl, withModulus_writesNothing, ?one, ?coprime, ?free⟩
  case one =>
    intro hone
    rw [withModulus_pos _ _ _ (by omega), if_pos hone]
    exact complete_writesRegister rd 0 s bigMod_pos
  case coprime =>
    intro hn hg
    have hone : 1 % readB rn s = 1 := Nat.mod_eq_of_lt hn
    obtain ⟨hlt, hinv⟩ := modInverse_spec (readB ra s) (readB rn s) (by omega) hg
    refine ⟨_, hlt, hinv.trans hone,
      fun y hy h => inverse_unique _ _ y _ hy hlt (h.trans hone.symm) hinv, ?_⟩
    rw [withModulus_pos _ _ _ (by omega), if_neg (by omega), if_pos hg]
    exact complete_writesRegister_of_lt rd hlt
  case free =>
    intro hn hg
    rw [withModulus_pos _ _ _ (by omega), if_neg (by omega), if_neg hg]
    exact writesRegister_of_free_update
      (complete_writesRegister rd _ { s with free := s.free + 1 } (toNat_lt_bigMod _))

/-! ### The moduli 0 and 1 -/

/-- Every residue modulo 1 is 0 (R127). -/
theorem writesRegister_zero_of_modulus_one {rd rn : BReg} {v : Nat} {f : Flags} {s t : State} (hone : readB rn s = 1)
    (h : WritesRegister rd (v % readB rn s) f s t) : WritesRegister rd 0 f s t := by
  rwa [hone, Nat.mod_one] at h

/-- Settles O26: a modulus of 0 stops all seven commands at their check; modulo 1 the results of the five modular
commands are residues (O21 to O24) or 0 by rule (O25). -/
theorem theModuliZeroAndOne : Obligations.TheModuliZeroAndOne := by
  intro rd ra rb rn s
  refine ⟨fun hzero i hi => ?zero, fun hone i hi => ?one⟩
  case zero =>
    simp only [List.mem_cons, List.not_mem_nil, or_false] at hi
    rcases hi with rfl | rfl | rfl | rfl | rfl | rfl | rfl <;> exact ⟨_, rfl, withModulus_writesNothing hzero⟩
  case one =>
    have hn : readB rn s ≠ 0 := by omega
    simp only [List.mem_cons, List.not_mem_nil, or_false] at hi
    rcases hi with rfl | rfl | rfl | rfl | rfl
    · obtain ⟨-, t, ht, -, hw⟩ := modredGivesTheResidue rd ra rn s
      exact ⟨t, ht, writesRegister_zero_of_modulus_one hone (hw hn)⟩
    · obtain ⟨-, t, ht, -, hw⟩ := modmulGivesTheResidue rd ra rb rn s
      exact ⟨t, ht, writesRegister_zero_of_modulus_one hone (hw hn)⟩
    · obtain ⟨-, t, ht, -, hw⟩ := modexpGivesTheResidueOfThePower rd ra rb rn s
      exact ⟨t, ht, writesRegister_zero_of_modulus_one hone (hw hn)⟩
    · obtain ⟨-, t, ht, -, -, hodd⟩ := montmulUsesTheInverseOfR rd ra rb rn s
      obtain ⟨x, -, -, -, hw⟩ := hodd (by omega)
      exact ⟨t, ht, writesRegister_zero_of_modulus_one hone hw⟩
    · obtain ⟨-, t, ht, -, hw, -⟩ := modinvGivesTheInverse rd ra rn s
      exact ⟨t, ht, hw hone⟩

end Sys2Proof.Machine
end

section
/-! The strong probable-prime test (spec/42_prime.md R152): the decomposition of n - 1 is unique, the squarings look for
n - 1 among the powers, and a prime passes every round (spec/93 G1). -/

namespace Sys2Proof.Laws

open Sys2Proof.Machine Sys2Proof.Safety

/-! ### One round -/

/-- A number is a power of 2 times an odd number in one way only. -/
theorem two_pow_mul_odd_inj {r r' s s' : Nat} (hr : r % 2 = 1) (hr' : r' % 2 = 1) (h : 2 ^ s * r = 2 ^ s' * r') :
    r = r' ∧ s = s' := by
  induction s generalizing s' with
  | zero =>
    cases s' with
    | zero => simpa using h
    | succ s' => rw [Nat.pow_succ', Nat.mul_assoc, Nat.pow_zero, Nat.one_mul] at h; omega
  | succ s ih =>
    cases s' with
    | zero => rw [Nat.pow_succ', Nat.mul_assoc, Nat.pow_zero, Nat.one_mul] at h; omega
    | succ s' =>
      rw [Nat.pow_succ', Nat.mul_assoc, Nat.pow_succ', Nat.mul_assoc] at h
      obtain ⟨h1, h2⟩ := ih (Nat.eq_of_mul_eq_mul_left Nat.two_pos h)
      exact ⟨h1, congrArg (· + 1) h2⟩

theorem oddPart_eq {x r s : Nat} (hx : 0 < x) (h : x = 2 ^ s * r) (hr : r % 2 = 1) : oddPart x = (r, s) := by
  obtain ⟨h', hodd, -⟩ := oddPart_spec x hx
  obtain ⟨h1, h2⟩ := two_pow_mul_odd_inj hodd hr (h'.symm.trans h)
  exact Prod.ext h1 h2

/-- The squarings pass exactly when one of them comes to n - 1: a square of 1 is followed by squares of 1 only. -/
theorem squaringsPass_iff {n : Nat} (hn : 2 < n) (k x : Nat) :
    squaringsPass n k x = true ↔ ∃ j < k, x ^ 2 ^ (j + 1) % n = n - 1 := by
  have power : ∀ j x, x ^ 2 ^ (j + 1) % n = (x * x % n) ^ 2 ^ j % n := fun j x => by
    rw [← Nat.pow_mod, ← Nat.pow_two, ← Nat.pow_mul, Nat.pow_succ']
  induction k generalizing x with
  | zero => simp [squaringsPass]
  | succ k ih =>
    simp only [squaringsPass]
    by_cases h1 : x * x % n = 1
    · rw [if_pos h1]
      refine iff_of_false Bool.false_ne_true ?_
      rintro ⟨j, -, hj⟩
      rw [power, h1, Nat.one_pow, Nat.mod_eq_of_lt (by omega)] at hj
      omega
    · rw [if_neg h1]
      by_cases h2 : x * x % n = n - 1
      · rw [if_pos h2]
        refine iff_of_true rfl ⟨0, Nat.succ_pos k, ?_⟩
        rw [power, Nat.pow_zero, Nat.pow_one, Nat.mod_mod, h2]
      · rw [if_neg h2]
        refine (ih _).trans ?_
        simp only [power _ x]
        constructor
        · rintro ⟨j, hj, h⟩; exact ⟨j + 1, Nat.succ_lt_succ hj, h⟩
        · rintro ⟨j, hj, h⟩
          cases j with
          | zero => rw [Nat.pow_zero, Nat.pow_one, Nat.mod_mod] at h; exact absurd h h2
          | succ j => exact ⟨j, Nat.lt_of_succ_lt_succ hj, h⟩

/-- Settles O27: the engine's odd part is the given one (`oddPart_eq`), its first power is the witness's power j = 0,
and its squarings are the others (`squaringsPass_iff`). -/
theorem aRoundIsTheStrongPrimeTest : Obligations.ARoundIsTheStrongPrimeTest := by
  intro n a r s hn hodd hdec hr
  have hs : s ≠ 0 := by rintro rfl; rw [Nat.pow_zero, Nat.one_mul] at hdec; omega
  obtain ⟨k, rfl⟩ := Nat.exists_eq_succ_of_ne_zero hs
  have power : ∀ j, (a ^ r % n) ^ 2 ^ (j + 1) % n = a ^ (2 ^ (j + 1) * r) % n := fun j => by
    rw [← Nat.pow_mod, ← Nat.pow_mul, Nat.mul_comm]
  have first : a ^ (2 ^ 0 * r) % n = a ^ r % n := by rw [Nat.pow_zero, Nat.one_mul]
  simp only [roundPasses, oddPart_eq (by omega) hdec hr, powMod_eq, Nat.succ_sub_one]
  rw [ite_eq_left_iff, squaringsPass_iff (by omega)]
  simp only [power, Nat.exists_lt_succ_left, first]
  tauto

/-! ### A prime passes -/

/-- In a field a 2^s-th root of 1 is 1 or has -1 among its squares. -/
theorem eq_one_or_sq_eq_neg_one {F : Type} [Field F] {x : F} {s : Nat} (h : x ^ 2 ^ s = 1) :
    x = 1 ∨ ∃ j < s, x ^ 2 ^ j = -1 := by
  induction s with
  | zero => exact .inl (by simpa using h)
  | succ s ih =>
    rw [pow_succ, pow_mul, pow_two, mul_self_eq_one_iff] at h
    rcases h with h | h
    · exact (ih h).imp_right fun ⟨j, hj, hx⟩ => ⟨j, Nat.lt_succ_of_lt hj, hx⟩
    · exact .inr ⟨s, Nat.lt_succ_self s, h⟩

/-- Every witness of the range of R151 passes for a prime: Fermat's theorem and the square roots of 1. -/
theorem roundPasses_of_prime {p a : Nat} (hp : p.Prime) (hp5 : 5 ≤ p) (h2 : 2 ≤ a) (ha : a ≤ p - 2) :
    roundPasses p a = true := by
  have hodd : p % 2 = 1 := hp.eq_two_or_odd.resolve_left (by omega)
  obtain ⟨hdec, hr, -⟩ := oddPart_spec (p - 1) (by omega)
  rw [aRoundIsTheStrongPrimeTest p a _ _ hp5 hodd hdec hr]
  have : Fact p.Prime := ⟨hp⟩
  have residue : ∀ e b, b < p → ((a : ZMod p) ^ e = (b : ZMod p) ↔ a ^ e % p = b) := fun e b hb => by
    rw [← Nat.cast_pow, ZMod.natCast_eq_natCast_iff', Nat.mod_eq_of_lt hb]
  have neg_one : ((p - 1 : ℕ) : ZMod p) = -1 := by
    rw [Nat.cast_sub (by omega), ZMod.natCast_self, Nat.cast_one, zero_sub]
  have fermat : ((a : ZMod p) ^ (oddPart (p - 1)).1) ^ 2 ^ (oddPart (p - 1)).2 = 1 := by
    rw [← pow_mul, Nat.mul_comm, ← hdec]
    refine ZMod.pow_card_sub_one_eq_one fun h0 => ?_
    rw [ZMod.natCast_eq_zero_iff] at h0
    exact absurd (Nat.le_of_dvd (by omega) h0) (by omega)
  refine (eq_one_or_sq_eq_neg_one fermat).imp (fun h => ?_) fun ⟨j, hj, h⟩ => ⟨j, hj, ?_⟩
  · exact (residue _ 1 (by omega)).mp (h.trans Nat.cast_one.symm)
  · rwa [← pow_mul, ← neg_one, residue _ _ (by omega), Nat.mul_comm] at h

/-- A procedure in two parts that has come to a result has come to one in each. -/
theorem bind_eq_done {α β : Type} {r : Run α} {k : α → List Answer → Run β} {b : β} {rest : List Answer}
    (h : r.bind k = .done b rest) : ∃ a l, r = .done a l ∧ k a l = .done b rest := by
  cases r with
  | done a l => exact ⟨a, l, rfl, h⟩
  | failed _ => cases h
  | starved => cases h

theorem drawWitness_done {n fuel a : Nat} {l rest : List Answer} (h : drawWitness n fuel l = .done a rest) :
    2 ≤ a ∧ a ≤ n - 2 := by
  induction fuel generalizing l with
  | zero => simp [drawWitness] at h
  | succ fuel ih =>
    rw [drawWitness] at h
    obtain ⟨bs, l', -, h⟩ := bind_eq_done h
    split at h
    case isTrue hr => cases h; exact hr
    case isFalse => exact ih h

theorem primeRounds_of_prime {p : Nat} (hp : p.Prime) (hp5 : 5 ≤ p) (rounds : Nat) (l rest : List Answer) :
    primeRounds p rounds l ≠ .done false rest := by
  induction rounds generalizing l with
  | zero => simp [primeRounds]
  | succ rounds ih =>
    rw [primeRounds]
    intro h
    obtain ⟨a, l', hw, h⟩ := bind_eq_done h
    obtain ⟨h2, ha⟩ := drawWitness_done hw
    rw [if_pos (roundPasses_of_prime hp hp5 h2 ha)] at h
    exact ih l' h

/-- Settles O28: 2 and 3 are answered at once, and no round of another prime fails (`roundPasses_of_prime`). -/
theorem aPrimeIsNeverRejected : Obligations.APrimeIsNeverRejected := by
  intro p rounds l rest hp
  rw [Safety.isPrime]
  by_cases h23 : p = 2 ∨ p = 3
  · rw [if_pos h23]; simp
  · obtain ⟨h2, h3⟩ := not_or.mp h23
    have hodd := hp.eq_two_or_odd.resolve_left h2
    have := hp.two_le
    rw [if_neg h23, if_neg (by omega)]
    exact primeRounds_of_prime hp (by omega) rounds l rest

/-! ### The generated value (R153) -/

theorem candidate_lt {bs : List Byte} (h : bs ≠ []) : candidate bs < 2 ^ (8 * bs.length - 1) := by
  cases bs with
  | nil => exact absurd rfl h
  | cons b bs =>
    have hb : (b &&& 0x7F#8).toNat < 2 ^ 7 := by
      rw [BitVec.toNat_and]; exact lt_of_le_of_lt Nat.and_le_right (by decide)
    have htail := beInt_lt bs
    have hlen : 2 ^ (8 * (b :: bs).length - 1) = 2 ^ 7 * 256 ^ bs.length := by
      rw [show (256 : Nat) = 2 ^ 8 by norm_num, ← Nat.pow_mul, ← Nat.pow_add, List.length_cons]; congr 1; omega
    have hlt : beInt ((b &&& 0x7F#8) :: bs) < 2 ^ 7 * 256 ^ bs.length := by
      have := Nat.mul_le_mul_right (256 ^ bs.length) (Nat.succ_le_of_lt hb)
      rw [Nat.succ_mul] at this
      rw [beInt]; omega
    rw [hlen]
    simp only [candidate]
    split <;> omega

/-- The search goes past no prime. -/
theorem searchPrime_le_prime {rounds fuel c d p : Nat} {l rest : List Answer} (hp : p.Prime) (hodd : p % 2 = 1)
    (hc : c % 2 = 1) (hcp : c ≤ p) (h : searchPrime rounds fuel c l = .done d rest) : d ≤ p := by
  induction fuel generalizing c l with
  | zero => simp [searchPrime] at h
  | succ fuel ih =>
    rw [searchPrime] at h
    obtain ⟨b, l', ht, h⟩ := bind_eq_done h
    cases b with
    | true => cases h; exact hcp
    | false =>
      have hne : c ≠ p := fun he => aPrimeIsNeverRejected c rounds l l' (he ▸ hp) ht
      exact ih (by omega) (by omega) h

/-- Above any power of 2 from 2^2 on, and below the next, there is an odd prime (G2). -/
theorem exists_odd_prime_between {m : Nat} (hm : 2 ≤ m) : ∃ p, p.Prime ∧ p % 2 = 1 ∧ 2 ^ m < p ∧ p < 2 ^ (m + 1) := by
  obtain ⟨p, hp, hlt, hle⟩ := Nat.exists_prime_lt_and_le_two_mul (2 ^ m) (Nat.two_pow_pos m).ne'
  have h4 : 2 ^ 2 ≤ 2 ^ m := Nat.pow_le_pow_right Nat.two_pos hm
  have hodd : p % 2 = 1 := hp.eq_two_or_odd.resolve_left (by omega)
  exact ⟨p, hp, hodd, hlt, by rw [Nat.pow_succ']; omega⟩

/-- What generatePrime returns, the search of one candidate has returned. -/
theorem generatePrime_done {k rounds fuel c : Nat} {l rest : List Answer}
    (h : generatePrime k rounds fuel l = .done c rest) :
    ∃ bs fuel' l' rest', bs.length = k ∧ searchPrime rounds fuel' (candidate bs) l' = .done c rest' := by
  induction fuel generalizing l with
  | zero => simp [generatePrime] at h
  | succ fuel ih =>
    rw [generatePrime] at h
    obtain ⟨bs, l1, hb, h⟩ := bind_eq_done h
    obtain ⟨d, l2, hs, h⟩ := bind_eq_done h
    obtain ⟨b, l3, -, h⟩ := bind_eq_done h
    cases b with
    | true => cases h; exact ⟨bs, _, l1, l2, (nextBytes_done _ _ _ _ hb).2, hs⟩
    | false => exact ih h

/-- Settles O29: a candidate starts below 2^(8k-1), the search stops at the latest at a prime below 2^(8k), and with no
byte it goes from 1 to 3. -/
theorem generatedValuesFit : Obligations.GeneratedValuesFit := by
  intro k rounds fuel c l rest h
  obtain ⟨bs, fuel', l', rest', rfl, hs⟩ := generatePrime_done h
  obtain ⟨hodd, h3⟩ := searchPrime_done _ _ _ _ _ _ (candidate_odd bs) hs
  refine ⟨hodd, h3, fun hk => ?fits, fun hk => ?three⟩
  case fits =>
    obtain ⟨p, hp, hpodd, hlt, hp2⟩ := exists_odd_prime_between (m := 8 * bs.length - 1) (by omega)
    have hcand := candidate_lt (List.ne_nil_of_length_pos hk)
    have hcp := searchPrime_le_prime hp hpodd (candidate_odd bs) (by omega) hs
    rw [Nat.sub_add_cancel (by omega)] at hp2
    omega
  case three =>
    rw [List.length_eq_zero_iff.mp hk] at hs
    exact le_antisymm (searchPrime_le_prime Nat.prime_three rfl rfl (by decide) hs) h3

end Sys2Proof.Laws
end

section
/-! PRIMEQ, GENPRIME, KEYGEN and COPRIME executed (spec/42_prime.md R154 to R158): a turn long enough takes the answers
that are ready as the pseudocode does (`Agrees`), to its result or to its failed draw. -/

namespace Sys2Proof.Machine

open Sys2Proof.Laws Sys2Proof.Safety

/-! ### A turn that is long enough -/

/-- A procedure that comes to a result has come to it in a long enough turn. -/
theorem turn_of_done {α : Type} {a c m : Nat} {x s : State} {v : α} {rest : List Answer} {k : α → State → State}
    (h : Agrees a c x s (.done v rest) k) (hm : a * (available s).length + c ≤ m) :
    ∃ m', runMoves m x = runMoves m' (k v (afterBytes s rest)) := by
  obtain ⟨n, q, hn, rfl, hq, hrun⟩ := h
  have hle := Nat.mul_le_mul_left a hn
  refine ⟨m - q, ?_⟩
  rw [afterBytes, List.length_drop, Nat.sub_sub_self hn, ← hrun, Nat.add_sub_cancel' (by omega)]

/-- A procedure whose draw fails has ended in error RNG in a long enough turn. -/
theorem turn_of_failed {α : Type} {a c m : Nat} {x s : State} {rest : List Answer} {k : α → State → State}
    (h : Agrees a c x s (.failed rest) k) (hm : a * (available s).length + c ≤ m) :
    runMoves m x = complete .rng (afterFailure s rest) := by
  obtain ⟨n, q, hn, rfl, hq, hrun⟩ := h
  have hn' : n + 1 ≤ (available s).length := hn
  have hle := Nat.mul_le_mul_left a hn'
  rw [afterFailure, List.length_drop, Nat.sub_sub_self hn', Nat.add_sub_cancel, ← hrun (m - q),
    Nat.add_sub_cancel' (by omega)]

/-! ### PRIMEQ -/

theorem exec_primeq (ra : BReg) (s : State) :
    exec (.primeq ra) s = .next (runMoves s.pace (primeqVerdict (testStart (readB ra s) (roundsOf s)) s)) := rfl

theorem primeqVerdict_decided (b : Bool) (s : State) :
    primeqVerdict (if b then .yes else .no) s = complete .ok (writeFlags (resFlags b s.flags) s) := by
  cases b <;> rfl

/-- The verdicts isPrime comes to without a witness (R152). -/
theorem testStart_decided {n rounds : Nat} (h : n ≤ 3 ∨ n % 2 = 0 ∨ rounds = 0) :
    testStart n rounds = if decide (n = 2 ∨ n = 3 ∨ (5 ≤ n ∧ n % 2 = 1)) then .yes else .no := by
  rw [testStart]
  by_cases h1 : n = 2 ∨ n = 3
  · rw [if_pos h1, if_pos (decide_eq_true (by omega))]
  · rw [if_neg h1]
    by_cases h2 : n ≤ 1 ∨ n % 2 = 0
    · rw [if_pos h2, if_neg (by rw [decide_eq_true_eq]; omega)]
    · rw [if_neg h2, if_pos (by omega), if_pos (decide_eq_true (by omega))]

/-- Settles O30: the isPrime call of PRIMEQ goes as the pseudocode does (`TestContext.isPrime`). -/
theorem primeqAnswersIsPrime : Obligations.PrimeqAnswersIsPrime := by
  intro ra s b rest hpace hrun
  have h := primeqContext.isPrime (readB ra s) (roundsOf s) s
  rw [hrun] at h
  obtain ⟨m, hm⟩ := turn_of_done h (m := s.pace) (by omega)
  rw [exec_primeq, hm, primeqVerdict_decided, runMoves_complete]
  rfl

/-- Settles O31: the verdict is there before the first byte request (`testStart_decided`). -/
theorem primeqDecidesSmallAndEvenWithoutEntropy : Obligations.PrimeqDecidesSmallAndEvenWithoutEntropy := by
  intro ra s h
  have hr : s.rounds = 0#16 → roundsOf s = 0 := fun h => by rw [roundsOf, h]; rfl
  refine ⟨_, exec_primeq ra s, ?_⟩
  rw [testStart_decided (h.imp_right (Or.imp_right hr)), primeqVerdict_decided, runMoves_complete]
  exact complete_writesFlags _ s

/-! ### GENPRIME -/

theorem exec_genprime_capacity {rd : BReg} {s : State} (h : 512 < s.bitlen.toNat / 8) :
    exec (.genprime rd) s = .next (complete .capacity s) := congrArg _ (if_pos h)

theorem exec_genprime {rd : BReg} {s : State} (h : s.bitlen.toNat / 8 ≤ 512) :
    exec (.genprime rd) s = .next (runMoves (s.pace + 1) (genprimeStep rd (.more (.draw [])) s)) :=
  congrArg _ (if_neg (Nat.not_lt.mpr h))

/-- A generated value fits any positive number of bytes that its candidates fit (R153). -/
theorem generatePrimeOf_lt {s : State} {j c : Nat} {l rest : List Answer} (hj : 1 ≤ j) (hk : s.bitlen.toNat / 8 ≤ j)
    (h : generatePrimeOf s l = .done c rest) : c < 2 ^ (8 * j) := by
  obtain ⟨-, -, hpos, hzero⟩ := generatedValuesFit _ _ _ _ _ _ h
  have hpow : ∀ i, i ≤ j → 2 ^ (8 * i) ≤ 2 ^ (8 * j) := fun i hi =>
    Nat.pow_le_pow_right Nat.two_pos (Nat.mul_le_mul_left 8 hi)
  rcases Nat.eq_zero_or_pos (primeBytes s) with hz | hp
  · rw [hzero hz]; exact lt_of_lt_of_le (by decide) (hpow 1 hj)
  · exact (hpos hp).trans_le (hpow _ hk)

theorem lt_bigMod_of_lt {j c : Nat} (hj : 8 * j = Config.bigw) (h : c < 2 ^ (8 * j)) : c < bigMod := by
  rwa [bigMod_eq, ← hj]

/-- Settles O32: the generatePrime call of GENPRIME goes as the pseudocode does (`GenContext.generate`), and its result
fits a register. -/
theorem genprimeWritesTheGeneratedPrime : Obligations.GenprimeWritesTheGeneratedPrime := by
  intro rd s c rest hpace hk hrun
  have h := (genprimeContext rd).generate ((available s).length + 1) s
  rw [← generatePrimeOf, hrun] at h
  obtain ⟨m, hm⟩ := turn_of_done h (m := s.pace + 1) (by omega)
  have hlt : c < bigMod := lt_bigMod_of_lt (j := 512) rfl (generatePrimeOf_lt (by decide) hk hrun)
  have hw := complete_writesRegister rd c (afterBytes s rest) hlt
  refine ⟨_, exec_genprime hk, ?_⟩
  rw [hm, genprimeStep, finish_eq, runMoves_complete]
  exact ⟨hw.value, hw.registers, rfl⟩

/-! ### KEYGEN -/

theorem exec_keygen_aliased {rd ra rn : BReg} {s : State} (h : ¬ distinctDestinations rd ra rn) :
    exec (.keygen rd ra rn) s = .next (complete .illegal s) := congrArg _ (if_neg h)

theorem exec_keygen_capacity {rd ra rn : BReg} {s : State} (hd : distinctDestinations rd ra rn)
    (h : 256 < s.bitlen.toNat / 8) : exec (.keygen rd ra rn) s = .next (complete .capacity s) :=
  congrArg _ ((if_pos hd).trans (if_pos h))

theorem exec_keygen {rd ra rn : BReg} {s : State} (hd : distinctDestinations rd ra rn)
    (h : s.bitlen.toNat / 8 ≤ 256) :
    exec (.keygen rd ra rn) s = .next (runMoves (s.pace + 1) (keygenPStep rd ra rn (.more (.draw [])) s)) :=
  congrArg _ ((if_pos hd).trans (if_neg (Nat.not_lt.mpr h)))

/-- The two generatePrime calls of KEYGEN (R158). -/
def generatePrimes (s : State) (l : List Answer) : Run (Nat × Nat) :=
  (generatePrimeOf s l).bind fun p l => (generatePrimeOf s l).bind fun q l => .done (p, q) l

theorem generatePrimes_done {s : State} {p q : Nat} {l l' rest : List Answer} (hp : generatePrimeOf s l = .done p l')
    (hq : generatePrimeOf s l' = .done q rest) : generatePrimes s l = .done (p, q) rest := by
  simp only [generatePrimes, hp, hq, Run.bind]

theorem generatePrimes_failed {s : State} {l rest : List Answer}
    (h : (generatePrimeOf s l).bind (fun _ l => generatePrimeOf s l) = .failed rest) :
    generatePrimes s l = .failed rest := by
  rw [generatePrimes]
  cases hp : generatePrimeOf s l with
  | done p l' => rw [hp] at h; simp only [Run.bind] at h ⊢; rw [h]
  | failed l' => rw [hp] at h; simpa [Run.bind] using h
  | starved => rw [hp] at h; exact absurd h (by simp [Run.bind])

/-- The two generatePrime calls inside KEYGEN go as the pseudocode does. -/
theorem keygen_agrees (rd ra rn : BReg) (s : State) :
    Agrees 6 8 (keygenPStep rd ra rn (.more (.draw [])) s) s (generatePrimes s (available s))
      fun pq s => keygenFinish rd ra rn pq.1 pq.2 s := by
  have hp := (keygenPContext rd ra rn).generate ((available s).length + 1) s
  refine hp.bind le_rfl (by decide) fun p n _ _ => ⟨4, le_rfl, ?_⟩
  have hq := (keygenQContext rd ra rn p).generate ((available (afterDraws n n s)).length + 1) (afterDraws n n s)
  exact hq.bind le_rfl le_rfl fun q _ _ _ => ⟨0, le_rfl, Agrees.done 6 rfl⟩

/-- The product of two values of at most half the bytes of a register fits one (R158). -/
theorem mul_lt_bigMod {j p q : Nat} (hj : 8 * j + 8 * j = Config.bigw) (hp : p < 2 ^ (8 * j)) (hq : q < 2 ^ (8 * j)) :
    p * q < bigMod := by
  rw [bigMod_eq, ← hj, Nat.pow_add]
  exact Nat.mul_lt_mul'' hp hq

/-- e is selected for every φ = (p - 1)(q - 1) of two values of at least 3, and d is its inverse (R154, R158). -/
theorem keygenFinish_eq {p q : Nat} (hp : 3 ≤ p) (hq : 3 ≤ q) (rd ra rn : BReg) (s : State) :
    ∃ e d, 2 ≤ e ∧ e < (p - 1) * (q - 1) ∧ Nat.gcd e ((p - 1) * (q - 1)) = 1 ∧
      (∀ j, 2 ≤ j → j < e → Nat.gcd j ((p - 1) * (q - 1)) ≠ 1) ∧ d < (p - 1) * (q - 1) ∧
      e * d % ((p - 1) * (q - 1)) = 1 ∧
      keygenFinish rd ra rn p q s = complete .ok (writeB ra d (writeB rd e (writeB rn (p * q) s))) := by
  have hphi : 2 * 2 ≤ (p - 1) * (q - 1) := Nat.mul_le_mul (by omega) (by omega)
  rw [keygenFinish]
  generalize (p - 1) * (q - 1) = phi at hphi ⊢
  cases he : selectCoprime phi with
  | none => exact absurd ((selectCoprime_none phi).mp he) (by omega)
  | some e =>
    obtain ⟨h2, hlt, hg, hmin⟩ := selectCoprime_some phi e he
    obtain ⟨hd, hinv⟩ := modInverse_spec e phi (by omega) (by rwa [Nat.mod_eq_of_lt hlt])
    exact ⟨e, modInverse e phi, h2, hlt, hg, hmin, hd, hinv.trans (Nat.mod_eq_of_lt (by omega)), rfl⟩

theorem readB_complete (r : BReg) (c : ErrorCode) (s : State) : readB r (complete c s) = readB r s := rfl

/-- Three registers written one after the other, when they are distinct. -/
theorem writeB_three {rd ra rn : BReg} (h : distinctDestinations rd ra rn) (e d n : Nat) (s : State) :
    let t := writeB ra d (writeB rd e (writeB rn n s))
    readB rn t = n % bigMod ∧ readB rd t = e % bigMod ∧ readB ra t = d % bigMod ∧
      KeepsRegistersBut [rd, ra, rn] s t := by
  obtain ⟨hda, hdn, han⟩ := h
  refine ⟨?_, ?_, readB_writeB_self ra d _, fun r hr => ?_⟩
  · rw [readB_writeB_ne _ _ _ _ han.symm, readB_writeB_ne _ _ _ _ hdn.symm, readB_writeB_self]
  · rw [readB_writeB_ne _ _ _ _ hda, readB_writeB_self]
  · simp only [List.mem_cons, List.not_mem_nil, or_false, not_or] at hr
    obtain ⟨hrd, hra, hrn⟩ := hr
    rw [writeB_getElem_ne _ _ _ _ hra, writeB_getElem_ne _ _ _ _ hrd, writeB_getElem_ne _ _ _ _ hrn]

/-- Settles O33: both generatePrime calls go as the pseudocode does (`keygen_agrees`), the key is that of
`keygenFinish_eq`, and its three values fit their registers. -/
theorem keygenWritesAKeyPair : Obligations.KeygenWritesAKeyPair := by
  intro rd ra rn s p q l rest hpace hdist hk hp hq
  have h := keygen_agrees rd ra rn s
  rw [generatePrimes_done hp hq] at h
  obtain ⟨m, hm⟩ := turn_of_done h (m := s.pace + 1) (by omega)
  obtain ⟨-, hp3, -⟩ := generatedValuesFit _ _ _ _ _ _ hp
  obtain ⟨-, hq3, -⟩ := generatedValuesFit _ _ _ _ _ _ hq
  obtain ⟨e, d, h2, he, hg, hmin, hd, hinv, hfin⟩ := keygenFinish_eq hp3 hq3 rd ra rn (afterBytes s rest)
  have hn : p * q < bigMod :=
    mul_lt_bigMod (j := 256) rfl (generatePrimeOf_lt (by decide) hk hp) (generatePrimeOf_lt (by decide) hk hq)
  have hphi : (p - 1) * (q - 1) ≤ p * q := Nat.mul_le_mul (Nat.sub_le p 1) (Nat.sub_le q 1)
  obtain ⟨hrn, hrd, hra, hregs⟩ := writeB_three hdist e d (p * q) (afterBytes s rest)
  rw [Nat.mod_eq_of_lt hn] at hrn
  rw [Nat.mod_eq_of_lt (by omega)] at hrd hra
  refine ⟨_, exec_keygen hdist hk, ?_⟩
  rw [hm, hfin, runMoves_complete]
  simp only [readB_complete, hrn, hrd, hra]
  exact ⟨trivial, h2, he, hg, hmin, hd, hinv, hregs, rfl⟩

/-! ### The checks and the failed draw -/

/-- Settles O34: the two checks of the commands come before their first move. -/
theorem generationCapacityIsCheckedFirst : Obligations.GenerationCapacityIsCheckedFirst := fun _ _ _ s =>
  ⟨fun h => ⟨_, exec_genprime_capacity h, complete_writesNothing .capacity s⟩,
    fun hd => ⟨_, exec_keygen_aliased hd, complete_writesNothing .illegal s⟩,
    fun hd h => ⟨_, exec_keygen_capacity hd h, complete_writesNothing .capacity s⟩⟩

/-- Settles O35: a failed draw of the pseudocode is one of the command's (`turn_of_failed`). -/
theorem aFailedDrawRaisesRng : Obligations.AFailedDrawRaisesRng := by
  intro rd ra rn s rest hpace
  refine ⟨fun hrun => ?primeq, fun hk hrun => ?genprime, fun hd hk hrun => ?keygen⟩
  case primeq =>
    have h := primeqContext.isPrime (readB ra s) (roundsOf s) s
    rw [hrun] at h
    rw [exec_primeq, turn_of_failed h (by omega)]; rfl
  case genprime =>
    have h := (genprimeContext rd).generate ((available s).length + 1) s
    rw [← generatePrimeOf, hrun] at h
    rw [exec_genprime hk, turn_of_failed h (by omega)]; rfl
  case keygen =>
    have h := keygen_agrees rd ra rn s
    rw [generatePrimes_failed hrun] at h
    rw [exec_keygen hd hk, turn_of_failed h (by omega)]; rfl

/-! ### COPRIME -/

theorem exec_coprime_none {rd ra : BReg} {s : State} (h : selectCoprime (readB ra s) = none) :
    exec (.coprime rd ra) s = .next (complete .nocoprime s) := by
  simp only [exec, execCoprime, h, raise_eq]

theorem exec_coprime_some {rd ra : BReg} {s : State} {k : Nat} (h : selectCoprime (readB ra s) = some k) :
    exec (.coprime rd ra) s = .next (complete .ok (writeB rd k s)) := by
  simp only [exec, execCoprime, h, finish_eq]

/-- Settles O39: what selectCoprime answers (`selectCoprime_some`, `selectCoprime_none`) is below the operand. -/
theorem coprimeGivesTheSmallestCoprime : Obligations.CoprimeGivesTheSmallestCoprime := by
  intro rd ra s
  refine ⟨encodedPlain_of_imm (i := .coprime rd ra) rfl, ?_⟩
  cases hs : selectCoprime (readB ra s) with
  | none =>
    have hle := (selectCoprime_none _).mp hs
    exact ⟨_, exec_coprime_none hs, fun h => by omega, fun _ => complete_writesNothing .nocoprime s⟩
  | some k =>
    obtain ⟨h2, hlt, hg, hmin⟩ := selectCoprime_some _ k hs
    exact ⟨_, exec_coprime_some hs, fun _ => ⟨k, h2, hlt, hg, hmin, complete_writesRegister_of_lt rd hlt⟩,
      fun h => by omega⟩

end Sys2Proof.Machine
end

section
/-! Commands held in WAIT (spec/42_prime.md R150, R159; spec/10_state.md R44): a draw with no answer leads there, an
answer of the source to its request ends it, and so do a push and a reset, and nothing else does. -/

namespace Sys2Proof.Machine

open Sys2Proof.Laws Sys2Proof.Safety

/-! ### Draws with no answer -/

/-- But for a fetch a turn of the engine is a run of moves, which in IDLE and WAIT does nothing. -/
theorem engineTurn_eq_runMoves {s : State} (h : s.phase ≠ .run .fetch) :
    engineTurn s = .next (runMoves (s.pace + 1) s) := by
  cases hp : s.phase with
  | idle => rw [runMoves_idle _ _ hp]; simp only [engineTurn, hp]
  | wait w => rw [runMoves_wait _ _ w hp]; simp only [engineTurn, hp]
  | run w =>
    cases w with
    | fetch => exact absurd hp h
    | _ => simp only [engineTurn, hp]

theorem ne_fetch_of_wants {k : Nat} {w : Work} (h : workWants k w = true) : w ≠ .fetch := by
  rintro rfl
  cases h

/-- The first move of a command that asks for a byte, with no answer ready. -/
theorem runMoves_held {s : State} {w : Work} (hav : available s = []) (hw : workWants (primeBytes s) w = true)
    (n : Nat) : Held w s (runMoves (n + 1) { s with phase := .run w }) := by
  obtain ⟨l, hl⟩ := nextByte_held { s with phase := .run w } hav
  have hmove : engineMove w { s with phase := .run w } = { s with source := l, phase := .wait w } := by
    rw [engineMove, if_pos (by exact hw), workDraw, hl]
  rw [runMoves_run n _ w (ne_fetch_of_wants hw) rfl, hmove, runMoves_wait n _ w rfl]
  exact ⟨rfl, rfl, rfl, rfl, rfl, rfl, rfl, rfl, rfl, by constructor <;> rfl, ⟨rfl, rfl, fun _ => rfl⟩⟩

theorem engineTurn_held {s : State} {w : Work} (hav : available s = []) (hp : s.phase = .run w)
    (hw : workWants (primeBytes s) w = true) : ∃ t, engineTurn s = .next t ∧ Held w s t := by
  have hs : { s with phase := .run w } = s := by rw [← hp]
  refine ⟨_, engineTurn_eq_runMoves ?_, ?_⟩
  · rw [hp]; exact fun h => ne_fetch_of_wants hw (Phase.run.inj h)
  · have h := runMoves_held hav hw s.pace
    rwa [hs] at h

theorem testStart_asks {n rounds : Nat} (h5 : 5 ≤ n) (hodd : n % 2 = 1) (hr : rounds ≠ 0) :
    testStart n rounds = .ask ⟨n, rounds, []⟩ := by
  rw [testStart, if_neg (by omega), if_neg (by omega), if_neg hr]

/-- Settles O36: a later draw by the turn that comes to it (`engineTurn_held`), the first by the first move of the
command (`runMoves_held`). -/
theorem aDrawWithNoAnswerWaits : Obligations.ADrawWithNoAnswerWaits := by
  intro s hav
  refine ⟨fun w hp hw => ⟨fun hin => ?noInput, fun pace rest hin => ?turn⟩, fun ra hpace h5 hodd hr => ?primeq,
    fun rd hk hk' => ?genprime, fun rd ra rn hd hk hk' => ?keygen⟩
  case noInput => rw [step_of_inputs_nil hin]; exact engineTurn_held hav hp hw
  case turn =>
    rw [step_of_inputs_cons hin, takeEvent_engine]
    exact engineTurn_held (s := { s with inputs := rest, pace := pace }) hav hp hw
  case primeq =>
    have hr' : roundsOf s ≠ 0 := fun h => hr (BitVec.eq_of_toNat_eq h)
    obtain ⟨n, hn⟩ := Nat.exists_eq_add_of_le' hpace
    refine ⟨_, exec_primeq ra s, ?_⟩
    rw [testStart_asks h5 hodd hr', hn]
    exact runMoves_held hav rfl n
  case genprime =>
    exact ⟨_, exec_genprime hk', runMoves_held (w := .genprime rd (.draw [])) hav (decide_eq_true hk) s.pace⟩
  case keygen =>
    exact ⟨_, exec_keygen hd hk', runMoves_held (w := .keygenP rd ra rn (.draw [])) hav (decide_eq_true hk) s.pace⟩

/-! ### Answers of the external source -/

theorem takeEvent_source (asked : Nat) (a : Answer) (s : State) :
    takeEvent (.source asked a) s = .next (sourceAnswer asked a s) := rfl

theorem sourceAnswer_ignored {s : State} {asked : Nat} {a : Answer}
    (h : rngwait s = false ∨ s.rngsrc = true ∨ asked ≠ s.resets) : sourceAnswer asked a s = s := by
  cases hp : s.phase with
  | idle => simp only [sourceAnswer, hp]
  | run w => simp only [sourceAnswer, hp]
  | wait w =>
    have hi : s.rngsrc = true ∨ asked ≠ s.resets := h.resolve_left (by simp [rngwait, hp])
    simp only [sourceAnswer, hp, if_pos hi]

theorem sourceAnswer_byte {s : State} {w : Work} (b : Byte) (hp : s.phase = .wait w) (hr : s.rngsrc = false) :
    sourceAnswer s.resets (.byte b) s = workFeed b w (countByte { s with phase := .run w }) := by
  simp [sourceAnswer, hp, hr]

theorem sourceAnswer_failure {s : State} {w : Work} (hp : s.phase = .wait w) (hr : s.rngsrc = false) :
    sourceAnswer s.resets .failure s = complete .rng s := by
  simp [sourceAnswer, hp, hr]

/-- What a move that requests no byte does of R150: nothing is counted, and nothing waits. -/
structure RequestsNothing (s t : State) : Prop where
  rngcount : t.rngcount = s.rngcount
  rngwait : rngwait s = false → rngwait t = false

theorem primeqVerdict_requestsNothing (v : Verdict) (s : State) : RequestsNothing s (primeqVerdict v s) := by
  cases v <;> exact ⟨rfl, fun _ => rfl⟩

theorem genprimeStep_requestsNothing (rd : BReg) (v : GenStep) (s : State) :
    RequestsNothing s (genprimeStep rd v s) := by
  cases v <;> exact ⟨rfl, fun _ => rfl⟩

theorem keygenPStep_requestsNothing (rd ra rn : BReg) (v : GenStep) (s : State) :
    RequestsNothing s (keygenPStep rd ra rn v s) := by
  cases v <;> exact ⟨rfl, fun _ => rfl⟩

theorem keygenQStep_requestsNothing (rd ra rn : BReg) (p : Nat) (v : GenStep) (s : State) :
    RequestsNothing s (keygenQStep rd ra rn p v s) := by
  cases v with
  | more g => exact ⟨rfl, fun _ => rfl⟩
  | found q => rw [keygenQStep, keygenFinish]; split <;> exact ⟨rfl, fun _ => rfl⟩

theorem workFeed_requestsNothing (b : Byte) (w : Work) (s : State) : RequestsNothing s (workFeed b w s) := by
  cases w with
  | fetch => exact ⟨rfl, id⟩
  | primeq w => exact primeqVerdict_requestsNothing _ s
  | genprime rd g => exact genprimeStep_requestsNothing rd _ s
  | keygenP rd ra rn g => exact keygenPStep_requestsNothing rd ra rn _ s
  | keygenQ rd ra rn p g => exact keygenQStep_requestsNothing rd ra rn p _ s

theorem workQuiet_requestsNothing (w : Work) (s : State) : RequestsNothing s (workQuiet w s) := by
  cases w with
  | fetch => exact ⟨rfl, id⟩
  | primeq w => exact ⟨rfl, id⟩
  | genprime rd g => exact genprimeStep_requestsNothing rd _ s
  | keygenP rd ra rn g => exact keygenPStep_requestsNothing rd ra rn _ s
  | keygenQ rd ra rn p g => exact keygenQStep_requestsNothing rd ra rn p _ s

/-- Settles O37: the cases of `sourceAnswer`, a byte by what it does to the command it is given to
(`workFeed_requestsNothing`, `workFeed_keeps`). -/
theorem theSourceAnswersTheWaitingDraw : Obligations.TheSourceAnswersTheWaitingDraw := by
  intro s rest b w
  refine ⟨fun hin hp hr => ?byte, fun hin hp hr => ?failure, fun asked a hin h => ?ignored⟩
  case byte =>
    rw [step_of_inputs_cons hin, takeEvent_source]
    have ha := sourceAnswer_byte (s := { s with inputs := rest }) b hp hr
    have hq := workFeed_requestsNothing b w (countByte { s with inputs := rest, phase := .run w })
    have hk := (workFeed_keeps b w (countByte { s with inputs := rest, phase := .run w })).1.control
    exact ⟨_, congrArg _ ha, rfl, hq.rngwait rfl, hq.rngcount, hk.inputs⟩
  case failure =>
    rw [step_of_inputs_cons hin, takeEvent_source]
    exact congrArg _ (sourceAnswer_failure (s := { s with inputs := rest }) hp hr)
  case ignored =>
    rw [step_of_inputs_cons hin, takeEvent_source]
    exact congrArg _ (sourceAnswer_ignored (s := { s with inputs := rest }) h)

/-! ### What leaves a command held, and what ends the hold -/

/-- What an input that does not end the hold leaves as it was. -/
structure StaysHeld (s t : State) : Prop where
  phase : t.phase = s.phase
  inputs : t.inputs = s.inputs
  b : t.b = s.b
  flags : t.flags = s.flags
  cmd : t.cmd = s.cmd
  rngcount : t.rngcount = s.rngcount
  errcode : t.errcode = s.errcode
  msglen : t.msglen = s.msglen
  nblocks : t.nblocks = s.nblocks
  mem : t.mem = s.mem

theorem StaysHeld.refl (s : State) : StaysHeld s s := by constructor <;> rfl

theorem StaysHeld.replyDone {s t : State} (h : StaysHeld s t) : StaysHeld s (replyDone t) := { h with }

theorem StaysHeld.keepsBuffers {s t : State} (h : StaysHeld s t) : KeepsBuffers s t :=
  ⟨h.msglen, h.nblocks, fun a => by rw [h.mem]⟩

/-- While BUSY = 1 a write the lock covers only sets HAZ (R69). -/
theorem lockedWrite_stays {s : State} (f : State → State) (hb : busy s = true) : StaysHeld s (lockedWrite f s) := by
  rw [lockedWrite_busy f s hb]; constructor <;> rfl

theorem writeCmd_stays {s : State} (v : Word) (hb : busy s = true) : StaysHeld s (writeCmd v s) := by
  rw [writeCmd, if_pos hb]; constructor <;> rfl

theorem writeCtrl_stays {s : State} {v : Word} (hv : v.getLsbD 0 = false) : StaysHeld s (writeCtrl v s) := by
  rw [writeCtrl, if_neg (Bool.eq_false_iff.mp hv)]; exact .refl s

theorem pushEntropy_stays {s : State} (b : Byte) (h : s.rngsrc = true → 64 ≤ s.fifo.length) :
    StaysHeld s (pushEntropy b s) := by
  rcases Nat.lt_or_ge s.fifo.length Config.rngDepth with hlt | hfull
  · have hr : s.rngsrc = false := Bool.eq_false_iff.mpr fun hr => absurd (h hr) (Nat.not_le.mpr hlt)
    rw [pushEntropy_unawaited b hlt (.inr hr)]; constructor <;> rfl
  · rw [pushEntropy_full b hfull]; constructor <;> rfl

/-- Of the writes of the CSR page only a soft reset and a push that is waited for end the hold. -/
theorem csrWrite_stays {s : State} {off : Nat} {v : Word} (hb : busy s = true)
    (hctrl : off = 0x00C → v.getLsbD 0 = false) (hpush : off = 0x034 → s.rngsrc = true → 64 ≤ s.fifo.length) :
    StaysHeld s (csrWrite off v s) := by
  unfold csrWrite
  split
  · exact writeCtrl_stays (hctrl rfl)
  · exact writeCmd_stays v hb
  · constructor <;> rfl
  · constructor <;> rfl
  · exact lockedWrite_stays _ hb
  · exact lockedWrite_stays _ hb
  · exact lockedWrite_stays _ hb
  · exact lockedWrite_stays _ hb
  · exact lockedWrite_stays _ hb
  · exact pushEntropy_stays _ (hpush rfl)
  · exact .refl s

theorem csr_of_place {off o : Nat} (h : place off = .csr o) : o = off := by
  unfold place at h
  split at h
  · cases h; rfl
  · split at h
    · cases h
    · split at h <;> cases h

theorem hostAccess_stays {s : State} {a : Access} (hb : busy s = true) (h : ¬ endsTheHold s (.host a)) :
    StaysHeld s (hostAccess a s) := by
  cases a with
  | read w off =>
    obtain ⟨r, f, -, -, hread⟩ := hostAccess_read_cases w off s
    rw [hread]; constructor <;> rfl
  | write w off v =>
    rcases admitted_or_refused w off with ⟨rfl, ho⟩ | hrefused
    · rw [← w32, hostAccess_w32 off v s ho, hostWrite]
      cases hp : place off with
      | csr o =>
        obtain rfl := csr_of_place hp
        refine (csrWrite_stays hb (fun hc => ?_) fun hc hr => ?_).replyDone
        · exact Bool.eq_false_iff.mpr fun hv => h ⟨rfl, .inl ⟨hc, hv⟩⟩
        · exact Nat.not_lt.mp fun hlt => h ⟨rfl, .inr ⟨hc, hr, hlt⟩⟩
      | bfile k i => exact (lockedWrite_stays _ hb).replyDone
      | buffer o => exact (lockedWrite_stays _ hb).replyDone
      | unmapped => constructor <;> rfl
    · rw [hostAccess_refused_write w off v s hrefused]; constructor <;> rfl

/-- What ends the hold does not depend on the inputs to come. -/
theorem endsTheHold_inputs (s : State) (e : Event) (rest : List Event) :
    endsTheHold { s with inputs := rest } e ↔ endsTheHold s e := by
  cases e with
  | host a => cases a <;> exact Iff.rfl
  | _ => exact Iff.rfl

theorem takeEvent_stays {s : State} {w : Work} {e : Event} (hp : s.phase = .wait w) (h : ¬ endsTheHold s e) :
    ∃ t, takeEvent e s = .next t ∧ StaysHeld s t := by
  cases e with
  | host a => exact ⟨_, rfl, hostAccess_stays (by simp only [busy, hp]) h⟩
  | source asked a =>
    refine ⟨_, takeEvent_source asked a s, ?_⟩
    rw [sourceAnswer_ignored (.inr (by simpa [endsTheHold, imp_iff_not_or] using h))]
    exact .refl s
  | engine pace =>
    refine ⟨_, engineTurn_eq_runMoves (s := { s with pace := pace }) (by simp [hp]), ?_⟩
    rw [runMoves_wait _ _ w (by exact hp)]; constructor <;> rfl
  | powerOn => exact absurd trivial h

theorem takeEvent_ends {s : State} {w : Work} {e : Event} (hp : s.phase = .wait w) (h : endsTheHold s e) :
    ∃ t, takeEvent e s = .next t ∧ rngwait t = false := by
  cases e with
  | powerOn => exact ⟨_, rfl, rfl⟩
  | engine pace => exact absurd h id
  | source asked a =>
    obtain ⟨hr, rfl⟩ := h
    refine ⟨_, takeEvent_source _ a s, ?_⟩
    cases a with
    | byte b => rw [sourceAnswer_byte b hp hr]; exact (workFeed_requestsNothing b w _).rngwait rfl
    | failure => rw [sourceAnswer_failure hp hr]; rfl
  | host a =>
    cases a with
    | read w off => exact absurd h id
    | write width off v =>
      refine ⟨_, rfl, ?_⟩
      obtain ⟨rfl, ⟨rfl, hv⟩ | ⟨rfl, hr, hlt⟩⟩ := h
      · have hwrite : csrWrite 0x00C v s = softReset s := if_pos hv
        rw [← w32, hostAccess_w32_csr 0x00C v s rfl (by decide), hwrite]; rfl
      · have hwrite : csrWrite 0x034 v s = { s with fifo := s.fifo ++ [v.setWidth 8], phase := .run w } :=
          pushEntropy_awaited _ hlt hp hr
        rw [← w32, hostAccess_w32_csr 0x034 v s rfl (by decide), hwrite]; rfl

theorem run_of_step_self {M : Host.Core} {s : M.State} (h : M.step s = .next s) (n : Nat) : M.run n s = .next s := by
  induction n with
  | zero => rfl
  | succ n ih => rw [Host.Core.run, h]; exact ih

/-- Settles O9: with no input the waiting engine has every turn and does nothing in it; an input is one that leaves the
command held (`takeEvent_stays`) or one that ends the hold (`takeEvent_ends`). -/
theorem anUnansweredCommandNeverCompletes : Obligations.AnUnansweredCommandNeverCompletes := by
  intro s w hp
  refine ⟨fun hin => run_of_step_self (M := Sys2Proof.core) ?still, fun e rest hin h => ?stays,
    fun e rest hin h => ?ends⟩
  case still =>
    show step s = .next s
    rw [step_of_inputs_nil hin, engineTurn_eq_runMoves (by simp [hp]), runMoves_wait _ _ w hp]
  case stays =>
    rw [← endsTheHold_inputs s e rest] at h
    obtain ⟨t, ht, hs⟩ := takeEvent_stays (s := { s with inputs := rest }) hp h
    exact ⟨t, (step_of_inputs_cons hin).trans ht, hs.phase.trans hp, hs.inputs, hs.b, hs.flags, hs.cmd, hs.rngcount,
      hs.errcode, { hs.keepsBuffers with }⟩
  case ends =>
    rw [← endsTheHold_inputs s e rest] at h
    obtain ⟨t, ht, hwait⟩ := takeEvent_ends (s := { s with inputs := rest }) hp h
    exact ⟨t, (step_of_inputs_cons hin).trans ht, hwait⟩

end Sys2Proof.Machine
end

section
/-! Waiting changes no result (spec/42_prime.md R150, spec/70_reset_and_hazards.md R242): a run of moves that ends in
WAIT goes the same way with one more answer behind those that are ready, up to the draw that is held, and goes on there as
the answered command does. -/

namespace Sys2Proof.Machine

open Sys2Proof.Laws Sys2Proof.Safety

/-! ### What stands around the engine -/

/-- The fields no move of a command reads but by its draws: the answers to come, the pace, the host's response and the
inputs. -/
structure Surroundings where
  fifo : List Byte
  source : List (Option Answer)
  pace : Nat
  bus : BusReply
  inputs : List Event

def State.surroundings (s : State) : Surroundings := ⟨s.fifo, s.source, s.pace, s.bus, s.inputs⟩

/-- The state with its surroundings changed by `g`. -/
def State.adjust (g : Surroundings → Surroundings) (s : State) : State :=
  { s with
    fifo := (g s.surroundings).fifo
    source := (g s.surroundings).source
    pace := (g s.surroundings).pace
    bus := (g s.surroundings).bus
    inputs := (g s.surroundings).inputs }

/-- Another schedule and another response of the last access. -/
def reschedule (pace : Nat) (bus : BusReply) (inputs : List Event) (e : Surroundings) : Surroundings :=
  { e with pace := pace, bus := bus, inputs := inputs }

/-- A byte behind those in the host FIFO, and a pace. -/
def behindFifo (b : Byte) (pace : Nat) (e : Surroundings) : Surroundings :=
  { e with fifo := e.fifo ++ [b], pace := pace }

/-- An answer behind those the external source gives at once, and a pace. -/
def behindSource (a : Answer) (pace : Nat) (e : Surroundings) : Surroundings :=
  { e with source := answeredWith a e.source, pace := pace }

/-! ### Moves do not look at the surroundings -/

section Adjust

variable (g : Surroundings → Surroundings)

theorem primeqVerdict_adjust (v : Verdict) (s : State) :
    primeqVerdict v (s.adjust g) = (primeqVerdict v s).adjust g := by
  cases v <;> rfl

theorem genprimeStep_adjust (rd : BReg) (v : GenStep) (s : State) :
    genprimeStep rd v (s.adjust g) = (genprimeStep rd v s).adjust g := by
  cases v <;> rfl

theorem keygenPStep_adjust (rd ra rn : BReg) (v : GenStep) (s : State) :
    keygenPStep rd ra rn v (s.adjust g) = (keygenPStep rd ra rn v s).adjust g := by
  cases v <;> rfl

theorem keygenQStep_adjust (rd ra rn : BReg) (p : Nat) (v : GenStep) (s : State) :
    keygenQStep rd ra rn p v (s.adjust g) = (keygenQStep rd ra rn p v s).adjust g := by
  cases v with
  | more g' => rfl
  | found q =>
    simp only [keygenQStep, keygenFinish]
    cases selectCoprime ((p - 1) * (q - 1)) <;> rfl

theorem workFeed_adjust (b : Byte) (w : Work) (s : State) : workFeed b w (s.adjust g) = (workFeed b w s).adjust g := by
  cases w with
  | fetch => rfl
  | primeq w => exact primeqVerdict_adjust g _ s
  | genprime rd g' => exact genprimeStep_adjust g rd _ s
  | keygenP rd ra rn g' => exact keygenPStep_adjust g rd ra rn _ s
  | keygenQ rd ra rn p g' => exact keygenQStep_adjust g rd ra rn p _ s

theorem workQuiet_adjust (w : Work) (s : State) : workQuiet w (s.adjust g) = (workQuiet w s).adjust g := by
  cases w with
  | fetch => rfl
  | primeq w => rfl
  | genprime rd g' => exact genprimeStep_adjust g rd _ s
  | keygenP rd ra rn g' => exact keygenPStep_adjust g rd ra rn _ s
  | keygenQ rd ra rn p g' => exact keygenQStep_adjust g rd ra rn p _ s

theorem engineMove_wants {w : Work} {s : State} (h : workWants (primeBytes s) w = true) :
    engineMove w s = workDraw w s := if_pos h

theorem engineMove_quiet {w : Work} {s : State} (h : workWants (primeBytes s) w = false) :
    engineMove w s = workQuiet w s := if_neg (Bool.eq_false_iff.mp h)

/-- An answer of the source looks at the command and at the request only. -/
theorem sourceAnswer_adjust (asked : Nat) (a : Answer) (s : State) :
    sourceAnswer asked a (s.adjust g) = (sourceAnswer asked a s).adjust g := by
  cases hp : s.phase with
  | wait w =>
    by_cases hi : s.rngsrc = true ∨ asked ≠ s.resets
    · rw [sourceAnswer_ignored (.inr hi), sourceAnswer_ignored (s := s.adjust g) (.inr hi)]
    · obtain ⟨hr, rfl⟩ : s.rngsrc = false ∧ asked = s.resets := by simpa using hi
      cases a with
      | failure => rw [sourceAnswer_failure hp hr]; exact sourceAnswer_failure (s := s.adjust g) hp hr
      | byte b =>
        rw [sourceAnswer_byte b hp hr, ← workFeed_adjust]; exact sourceAnswer_byte (s := s.adjust g) b hp hr
  | _ =>
    have hw : rngwait s = false := by simp only [rngwait, hp]
    rw [sourceAnswer_ignored (.inl hw), sourceAnswer_ignored (s := s.adjust g) (.inl hw)]

/-- The outcome of a request with the surroundings of its state changed by `g`. -/
def Draw.adjust : Draw → Draw
  | .byte b s => .byte b (s.adjust g)
  | .failed s => .failed (s.adjust g)
  | .held s => .held (s.adjust g)

end Adjust

/-! ### What a request comes to -/

/-- The cases of a byte request (R150). -/
inductive DrawsAs (s : State) : Draw → Prop where
  | fifoByte (b : Byte) (l : List Byte) (hr : s.rngsrc = true) (hf : s.fifo = b :: l) :
      DrawsAs s (.byte b (countByte { s with fifo := l }))
  | fifoEmpty (hr : s.rngsrc = true) (hf : s.fifo = []) : DrawsAs s (.held s)
  | sourceByte (b : Byte) (l : List (Option Answer)) (hr : s.rngsrc = false) (hs : s.source = some (.byte b) :: l) :
      DrawsAs s (.byte b (countByte { s with source := l }))
  | sourceFailure (l : List (Option Answer)) (hr : s.rngsrc = false) (hs : s.source = some .failure :: l) :
      DrawsAs s (.failed { s with source := l })
  | sourceLater (l : List (Option Answer)) (hr : s.rngsrc = false)
      (hs : s.source = none :: l ∨ (s.source = [] ∧ l = [])) : DrawsAs s (.held { s with source := l })

theorem nextByte_of_drawsAs {s : State} {d : Draw} (h : DrawsAs s d) : nextByte s = d := by
  cases h with
  | fifoByte b l hr hf => simp only [nextByte, hr, hf, if_true]
  | fifoEmpty hr hf => simp only [nextByte, hr, hf, if_true]
  | sourceByte b l hr hs => simp only [nextByte, hr, hs, Bool.false_eq_true, if_false]
  | sourceFailure l hr hs => simp only [nextByte, hr, hs, Bool.false_eq_true, if_false]
  | sourceLater l hr hs =>
    rcases hs with hs | ⟨hs, rfl⟩
    · simp only [nextByte, hr, hs, Bool.false_eq_true, if_false]
    · rw [show ({ s with source := [] } : State) = s by rw [← hs]]
      simp only [nextByte, hr, hs, Bool.false_eq_true, if_false]

theorem nextByte_drawsAs (s : State) : DrawsAs s (nextByte s) := by
  have sure : ∀ d, DrawsAs s d → DrawsAs s (nextByte s) := fun d h => (nextByte_of_drawsAs h).symm ▸ h
  cases hr : s.rngsrc with
  | true =>
    cases hf : s.fifo with
    | nil => exact sure _ (.fifoEmpty hr hf)
    | cons b l => exact sure _ (.fifoByte b l hr hf)
  | false =>
    rcases hs : s.source with _ | ⟨_ | _ | _, l⟩
    · exact sure _ (.sourceLater [] hr (.inr ⟨hs, rfl⟩))
    · exact sure _ (.sourceLater l hr (.inl hs))
    · exact sure _ (.sourceByte _ l hr hs)
    · exact sure _ (.sourceFailure l hr hs)

/-! ### Another schedule -/

section Reschedule

variable (pace : Nat) (bus : BusReply) (inputs : List Event)

theorem nextByte_reschedule (s : State) :
    nextByte (s.adjust (reschedule pace bus inputs)) = (nextByte s).adjust (reschedule pace bus inputs) := by
  apply nextByte_of_drawsAs
  have hd := nextByte_drawsAs s
  generalize nextByte s = d at hd ⊢
  cases hd with
  | fifoByte b l hr hf => exact .fifoByte b l hr hf
  | fifoEmpty hr hf => exact .fifoEmpty hr hf
  | sourceByte b l hr hs => exact .sourceByte b l hr hs
  | sourceFailure l hr hs => exact .sourceFailure l hr hs
  | sourceLater l hr hs => exact .sourceLater l hr hs

theorem workDraw_reschedule (w : Work) (s : State) :
    workDraw w (s.adjust (reschedule pace bus inputs)) = (workDraw w s).adjust (reschedule pace bus inputs) := by
  rw [workDraw, workDraw, nextByte_reschedule]
  cases nextByte s with
  | byte b t => exact workFeed_adjust _ b w t
  | failed t => rfl
  | held t => rfl

theorem engineMove_reschedule (w : Work) (s : State) :
    engineMove w (s.adjust (reschedule pace bus inputs)) = (engineMove w s).adjust (reschedule pace bus inputs) := by
  cases hw : workWants (primeBytes s) w with
  | true => rw [engineMove_wants hw, ← workDraw_reschedule]; exact engineMove_wants hw
  | false => rw [engineMove_quiet hw, ← workQuiet_adjust]; exact engineMove_quiet hw

theorem runMoves_reschedule (n : Nat) (s : State) :
    runMoves n (s.adjust (reschedule pace bus inputs)) = (runMoves n s).adjust (reschedule pace bus inputs) := by
  induction n generalizing s with
  | zero => rfl
  | succ n ih =>
    rcases runMoves_cases s with ⟨w, hw, hp, hr⟩ | ⟨hstop, hr⟩
    · rw [hr, ← ih, ← engineMove_reschedule]; exact runMoves_run n _ w hw hp
    · rw [hr]; exact runMoves_stop _ _ hstop

end Reschedule

/-! ### One more answer -/

/-- The bytes that are ready are drawn all the same when the surroundings are changed by `g`. -/
def KeepsReadyBytes (g : Surroundings → Surroundings) : Prop :=
  ∀ s b t, DrawsAs s (.byte b t) → DrawsAs (s.adjust g) (.byte b (t.adjust g))

theorem behindFifo_keepsReadyBytes (v : Byte) (pace : Nat) : KeepsReadyBytes (behindFifo v pace) := by
  intro s b t h
  cases h with
  | fifoByte _ l hr hf => exact .fifoByte b (l ++ [v]) hr (congrArg (· ++ [v]) hf)
  | sourceByte _ l hr hs => exact .sourceByte b l hr hs

theorem behindSource_keepsReadyBytes (a : Answer) (pace : Nat) : KeepsReadyBytes (behindSource a pace) := by
  intro s b t h
  cases h with
  | fifoByte _ l hr hf => exact .fifoByte b l hr hf
  | sourceByte _ l hr hs => exact .sourceByte b (answeredWith a l) hr (congrArg (answeredWith a) hs)

/-- A request met later is the next one met when it is answered at once. -/
theorem answeredWith_later {a : Answer} {o l : List (Option Answer)} (h : o = none :: l ∨ (o = [] ∧ l = [])) :
    answeredWith a o = some a :: l := by
  rcases h with rfl | ⟨rfl, rfl⟩ <;> rfl

/-- The state `x` in which the command asks for the byte that holds it in `t`. -/
structure HeldDraw (w : Work) (x t : State) : Prop where
  phase : x.phase = .run w
  wants : workWants (primeBytes x) w = true
  held : ∃ y, DrawsAs x (.held y) ∧ t = { y with phase := .wait w }

/-- A move is held at its draw, or goes the same way with another answer behind the bytes that are ready. -/
theorem engineMove_cases {w : Work} {s : State} (hp : s.phase = .run w) :
    HeldDraw w s (engineMove w s) ∨ (engineMove w s).phase = .idle ∨
      (rngwait (engineMove w s) = false ∧
        ∀ g, KeepsReadyBytes g → engineMove w (s.adjust g) = (engineMove w s).adjust g) := by
  have hrun : rngwait s = false := by simp only [rngwait, hp]
  cases hw : workWants (primeBytes s) w with
  | false =>
    rw [engineMove_quiet hw]
    exact .inr (.inr ⟨(workQuiet_requestsNothing w s).rngwait hrun,
      fun g _ => (engineMove_quiet (s := s.adjust g) hw).trans (workQuiet_adjust g w s)⟩)
  | true =>
    rw [engineMove_wants hw, workDraw]
    have hd := nextByte_drawsAs s
    cases hn : nextByte s with
    | failed t => exact .inr (.inl rfl)
    | held t => exact .inl ⟨hp, hw, t, hn ▸ hd, rfl⟩
    | byte b t =>
      rw [hn] at hd
      have ht : rngwait t = false := by cases hd <;> exact hrun
      refine .inr (.inr ⟨(workFeed_requestsNothing b w t).rngwait ht, fun g hg => ?_⟩)
      rw [engineMove_wants (s := s.adjust g) hw, workDraw, nextByte_of_drawsAs (hg s b t hd)]
      exact workFeed_adjust g b w t

/-- A run of moves that ends in WAIT goes the same way up to the held draw. -/
theorem runMoves_until_held {n : Nat} {w w0 : Work} {s : State} (hw0 : w0 ≠ .fetch) (hp : s.phase = .run w0)
    (h : (runMoves n s).phase = .wait w) :
    ∃ q x, HeldDraw w x (runMoves n s) ∧
      ∀ g, KeepsReadyBytes g → ∀ m, runMoves (q + m) (s.adjust g) = runMoves m (x.adjust g) := by
  induction n generalizing s w0 with
  | zero => exact absurd (hp.symm.trans h) (by simp)
  | succ n ih =>
    rw [runMoves_run n s w0 hw0 hp] at h ⊢
    have more : ∀ {w'}, (engineMove w0 s).phase = .run w' → w' ≠ .fetch := fun {w'} hp' hf => by
      rw [runMoves_stop n _ (fun w'' hp'' => by rw [hp'] at hp''; cases hp''; exact hf), hp'] at h
      cases h
    rcases engineMove_cases hp with hheld | hidle | ⟨hnowait, hstep⟩
    · obtain ⟨-, -, y, -, hy⟩ := id hheld
      have hwait : (engineMove w0 s).phase = .wait w0 := by rw [hy]
      rw [runMoves_wait n _ w0 hwait] at h ⊢
      cases hwait.symm.trans h
      exact ⟨0, s, hheld, fun g _ m => by rw [Nat.zero_add]⟩
    · rw [runMoves_idle n _ hidle, hidle] at h; cases h
    · cases hp' : (engineMove w0 s).phase with
      | idle => rw [runMoves_idle n _ hp', hp'] at h; cases h
      | wait w' => simp [rngwait, hp'] at hnowait
      | run w' =>
        obtain ⟨q, x, hx, hsame⟩ := ih (more hp') hp' h
        refine ⟨q + 1, x, hx, fun g hg m => ?_⟩
        rw [Nat.add_right_comm, runMoves_run _ (s.adjust g) w0 hw0 hp, hstep g hg, hsame g hg]

/-! ### The execution up to the held draw -/

/-- Only the commands that draw can leave the engine in WAIT. -/
theorem startsWork_of_wait {i : Instr} {s t : State} {w : Work} (h : ExecLeaves i s t) (hp : t.phase = .wait w) :
    ∃ w0, StartsWork i w0 := by
  cases h with
  | completes => cases hp
  | stores => cases hp
  | draws n w0 hw => exact ⟨w0, hw⟩

/-- A command that comes to wait begins with one working value whatever its surroundings are, and makes the moves of its
turn from there, PRIMEQ one move fewer (R155). -/
theorem exec_of_wait {i : Instr} {s t : State} {w : Work} (h : exec i s = .next t) (hp : t.phase = .wait w) :
    ∃ c w0, c ≤ 1 ∧ w0 ≠ .fetch ∧ ∀ g, exec i (s.adjust g) =
      .next (runMoves ((s.adjust g).pace + c) (State.adjust g { s with phase := .run w0 })) := by
  have notIdle : t.phase ≠ .idle := by simp [hp]
  obtain ⟨w0, hw0⟩ := startsWork_of_wait (exec_leaves h) hp
  cases hw0 with
  | primeq ra _ =>
    rw [exec_primeq] at h
    cases ht : testStart (readB ra s) (roundsOf s) with
    | ask w1 =>
      refine ⟨0, .primeq w1, Nat.zero_le 1, by simp, fun g => ?_⟩
      have htest : testStart (readB ra (s.adjust g)) (roundsOf (s.adjust g)) = .ask w1 := ht
      rw [exec_primeq, htest]; rfl
    | _ => rw [ht] at h; cases h; exact absurd (congrArg State.phase (runMoves_idle _ _ rfl)) notIdle
  | genprime rd =>
    refine ⟨1, .genprime rd (.draw []), le_rfl, by simp, fun g => ?_⟩
    rcases Nat.lt_or_ge 512 (s.bitlen.toNat / 8) with hk | hk
    · rw [exec_genprime_capacity hk] at h; cases h; exact absurd rfl notIdle
    · exact exec_genprime (s := s.adjust g) hk
  | keygen rd ra rn =>
    refine ⟨1, .keygenP rd ra rn (.draw []), le_rfl, by simp, fun g => ?_⟩
    by_cases hd : distinctDestinations rd ra rn
    · rcases Nat.lt_or_ge 256 (s.bitlen.toNat / 8) with hk | hk
      · rw [exec_keygen_capacity hd hk] at h; cases h; exact absurd rfl notIdle
      · exact exec_keygen (s := s.adjust g) hd hk
    · rw [exec_keygen_aliased hd] at h; cases h; exact absurd rfl notIdle

/-- With another answer behind the bytes that are ready, the execution in a long enough turn comes to the draw that held
it and goes on from there. -/
theorem exec_until_held {i : Instr} {s t : State} {w : Work} (h : exec i s = .next t) (hp : t.phase = .wait w) :
    ∃ q x, HeldDraw w x t ∧ ∀ g, KeepsReadyBytes g → ∀ n, (s.adjust g).pace = q + n →
      exec i (s.adjust g) = .next (runMoves (n + 1) (x.adjust g)) := by
  obtain ⟨c, w0, hc, hw0, hexec⟩ := exec_of_wait h hp
  have ht : runMoves (s.pace + c) { s with phase := .run w0 } = t :=
    Host.Outcome.next.inj ((hexec id).symm.trans h)
  subst ht
  obtain ⟨q, x, hx, hsame⟩ := runMoves_until_held hw0 rfl hp
  refine ⟨q + 1 - c, x, hx, fun g hg n hn => ?_⟩
  rw [hexec g, hn, ← hsame g hg, show q + 1 - c + n + c = q + (n + 1) by omega]

/-! ### The answer to the held draw -/

/-- A push into the host FIFO lets the held command go on with the byte where it stands ready. -/
theorem push_resumes {w : Work} {x t : State} (h : HeldDraw w x t) (hr : t.rngsrc = true) (v : Word) (p n : Nat)
    (rest : List Event) :
    ∃ y, step { t with inputs := .host (w32 0x034 v) :: .engine n :: rest } = .next y ∧
      step y = .next ((runMoves (n + 1) (x.adjust (behindFifo (v.setWidth 8) p))).adjust
        (reschedule n ⟨0#32, false⟩ rest)) := by
  obtain ⟨hphase, hwants, z, hd, rfl⟩ := h
  have hrun : x.phase ≠ .run .fetch := fun hf => ne_fetch_of_wants hwants (Phase.run.inj (hphase.symm.trans hf))
  cases hd with
  | sourceLater l hr' => exact absurd (hr'.symm.trans hr) (by simp)
  | fifoEmpty _ hf =>
    refine ⟨{ x with fifo := x.fifo ++ [v.setWidth 8], bus := ⟨0#32, false⟩, inputs := .engine n :: rest }, ?_, ?_⟩
    · have hpush := pushEntropy_awaited (s := { x with phase := .wait w, inputs := .engine n :: rest }) (v.setWidth 8)
        (by rw [hf]; decide) rfl hr
      rw [step_of_inputs_cons rfl, takeEvent_host, hostAccess_w32_csr _ _ _ rfl (by decide)]
      refine congrArg _ ((congrArg replyDone hpush).trans ?_)
      rw [← hphase]; rfl
    · rw [step_of_inputs_cons rfl, takeEvent_engine, engineTurn_eq_runMoves (by exact hrun), ← runMoves_reschedule]
      rfl

/-- The draw that was held, with the answer ready, is what the answer makes of the held command. -/
theorem engineMove_answered {w : Work} {x t : State} (h : HeldDraw w x t) (hr : t.rngsrc = false) (a : Answer)
    (p : Nat) : engineMove w (x.adjust (behindSource a p)) =
      (sourceAnswer t.resets a t).adjust (reschedule p t.bus t.inputs) := by
  obtain ⟨hphase, hwants, z, hd, rfl⟩ := h
  rw [engineMove_wants (s := x.adjust _) hwants, workDraw]
  cases hd with
  | fifoEmpty hr' => exact absurd (hr'.symm.trans hr) (by simp)
  | sourceLater l hr' hs =>
    have hs' : (x.adjust (behindSource a p)).source = some a :: l := answeredWith_later hs
    cases a with
    | failure =>
      rw [nextByte_of_drawsAs (.sourceFailure (s := x.adjust _) l hr' hs'), sourceAnswer_failure rfl hr]; rfl
    | byte b =>
      rw [nextByte_of_drawsAs (.sourceByte (s := x.adjust _) b l hr' hs'), sourceAnswer_byte b rfl hr,
        ← workFeed_adjust, ← hphase]
      rfl

theorem sourceAnswer_not_fetching {asked : Nat} {a : Answer} {s : State} {w : Work} (hw : w ≠ .fetch)
    (hp : s.phase = .wait w) : (sourceAnswer asked a s).phase ≠ .run .fetch := by
  rcases sourceAnswer_moves asked a hw hp with h | h
  · rw [h, hp]; simp
  · rcases h.leads with ⟨phase, -⟩ | ⟨w', same, phase, -⟩ | ⟨w', same, phase, -⟩ <;> rw [phase]
    · simp
    · exact fun hf => same.ne_fetch (Phase.run.inj hf)
    · simp

/-- An answer of the external source lets the held command go on as the answer that stands ready does. -/
theorem answer_resumes {w : Work} {x t : State} (h : HeldDraw w x t) (hr : t.rngsrc = false) (a : Answer) (p n : Nat)
    (rest : List Event) :
    ∃ y, step { t with inputs := .source t.resets a :: .engine n :: rest } = .next y ∧
      step y = .next ((runMoves (n + 1 + 1) (x.adjust (behindSource a p))).adjust (reschedule n t.bus rest)) := by
  have hw : w ≠ .fetch := ne_fetch_of_wants h.wants
  have hp : t.phase = .wait w := by obtain ⟨-, -, z, -, rfl⟩ := h; rfl
  refine ⟨(sourceAnswer t.resets a t).adjust (reschedule t.pace t.bus (.engine n :: rest)), ?_, ?_⟩
  · rw [step_of_inputs_cons rfl, takeEvent_source, ← sourceAnswer_adjust]; rfl
  · have hmove := runMoves_run (n + 1) (x.adjust (behindSource a p)) w hw h.phase
    rw [hmove, engineMove_answered h hr, step_of_inputs_cons rfl, takeEvent_engine,
      engineTurn_eq_runMoves (by exact sourceAnswer_not_fetching hw hp), ← runMoves_reschedule]
    rfl

/-- Settles O38: with the answer ready the execution comes to the draw that was held and goes on (`exec_until_held`), as
the held command does with its push (`push_resumes`) or answer (`answer_resumes`). -/
theorem waitingChangesNoResult : Obligations.WaitingChangesNoResult := by
  intro i s t w h hp
  obtain ⟨q, x, hx, hexec⟩ := exec_until_held h hp
  have hc := (exec_leaves h).keepsControl
  refine ⟨fun hr v => ⟨q, fun n rest => ?push⟩, fun hr a => ⟨q + 1, fun n rest => ?answer⟩⟩
  case push =>
    obtain ⟨y, hy, hz⟩ := push_resumes hx (hc.rngsrc.trans hr) v (q + n) n rest
    exact ⟨y, _, hexec _ (behindFifo_keepsReadyBytes (v.setWidth 8) (q + n)) n rfl, hy, hz⟩
  case answer =>
    obtain ⟨y, hy, hz⟩ := answer_resumes hx (hc.rngsrc.trans hr) a (q + 1 + n) n rest
    have hu := hexec _ (behindSource_keepsReadyBytes a (q + 1 + n)) (n + 1) (Nat.add_right_comm q 1 n)
    have hbus : t.bus = (runMoves (n + 1 + 1) (x.adjust (behindSource a (q + 1 + n)))).bus :=
      hc.bus.trans (exec_leaves hu).keepsControl.bus.symm
    refine ⟨y, _, hu, hc.resets ▸ hy, hz.trans ?_⟩
    rw [hbus]; rfl

end Sys2Proof.Machine
end

section
/-! The mathematics under the codec (spec/43_codec.md R180, R181, R188): the RSA identity modulo two primes, the byte
lengths of blocks and moduli, and the shortest bytes of a chunk's value. -/

namespace Sys2Proof.Laws

open Sys2Proof.Machine

/-! ### The RSA identity (93_implementation_defined.md G4) -/

/-- Fermat: an exponent that is 1 modulo p - 1 gives every value back modulo p, a multiple of p included. -/
theorem pow_modEq_self_of_prime {p k : Nat} (hp : p.Prime) (hk : k ≠ 0) (h : k ≡ 1 [MOD p - 1]) (x : Nat) :
    x ^ k ≡ x [MOD p] := by
  have : Fact p.Prime := ⟨hp⟩
  obtain ⟨j, hj⟩ := (Nat.modEq_iff_dvd' (Nat.one_le_iff_ne_zero.mpr hk)).mp h.symm
  rw [← ZMod.natCast_eq_natCast_iff, Nat.cast_pow]
  by_cases hx : (x : ZMod p) = 0
  · rw [hx, zero_pow hk]
  · rw [show k = 1 + (p - 1) * j by omega, pow_add, pow_mul, ZMod.pow_card_sub_one_eq_one hx, one_pow, mul_one, pow_one]

/-- The RSA identity: exponents e and d with e·d ≡ 1 mod (p-1)(q-1) undo each other on the residues of p·q. -/
theorem rsa_identity {p q e d x : Nat} (hp : p.Prime) (hq : q.Prime) (hpq : p ≠ q)
    (h : e * d ≡ 1 [MOD (p - 1) * (q - 1)]) (hx : x < p * q) : (x ^ e % (p * q)) ^ d % (p * q) = x := by
  have hk : e * d ≠ 0 := by
    intro hz
    have hone : (p - 1) * (q - 1) = 1 := Nat.dvd_one.mp ((Nat.modEq_iff_dvd' (Nat.zero_le 1)).mp (hz ▸ h))
    have := Nat.eq_one_of_mul_eq_one_right hone
    have := Nat.eq_one_of_mul_eq_one_left hone
    omega
  have hmod : x ^ (e * d) ≡ x [MOD p * q] :=
    (Nat.modEq_and_modEq_iff_modEq_mul ((Nat.coprime_primes hp hq).mpr hpq)).mp
      ⟨pow_modEq_self_of_prime hp hk h.of_mul_right x, pow_modEq_self_of_prime hq hk h.of_mul_left x⟩
  rw [← Nat.pow_mod, ← pow_mul, hmod, Nat.mod_eq_of_lt hx]

/-! ### Bytes and their integers -/

theorem chunkSize_eq_zero_iff (n : Nat) : chunkSize n = 0 ↔ n < 256 := by
  rw [chunkSize, Nat.sub_eq_zero_iff_le, byteLength_le, Nat.pow_one]

theorem one_le_chunkSize {n : Nat} (h : 256 ≤ n) : 1 ≤ chunkSize n :=
  Nat.one_le_iff_ne_zero.mpr (mt (chunkSize_eq_zero_iff n).mp (Nat.not_lt.mpr h))

/-- A modulus has one byte more than its chunks, so every chunk is below it (R180). -/
theorem pow_chunkSize_le {n : Nat} (h : 256 ≤ n) : 256 ^ chunkSize n ≤ n := by
  have hk : 1 ≤ byteLength n - 1 := one_le_chunkSize h
  rw [← Nat.not_lt, ← byteLength_le, chunkSize]
  omega

/-- Byte sequences of one length are told apart by their integers. -/
theorem beInt_inj {xs ys : List Byte} (hl : xs.length = ys.length) (h : beInt xs = beInt ys) : xs = ys := by
  induction xs generalizing ys with
  | nil => exact (List.length_eq_zero_iff.mp hl.symm).symm
  | cons x xs ih =>
    obtain ⟨y, ys, rfl⟩ := List.exists_cons_of_length_eq_add_one hl.symm
    have htail : xs.length = ys.length := Nat.succ.inj hl
    have hx : beInt xs < 256 ^ ys.length := htail ▸ beInt_lt xs
    rw [beInt, beInt, htail] at h
    have hhead : x.toNat = y.toNat := by
      have hdiv := congrArg (· / 256 ^ ys.length) h
      have hpos : 0 < 256 ^ ys.length := by positivity
      simpa [Nat.mul_comm _ (256 ^ ys.length), Nat.mul_add_div hpos, Nat.div_eq_of_lt hx,
        Nat.div_eq_of_lt (beInt_lt ys)] using hdiv
    rw [hhead] at h
    rw [BitVec.eq_of_toNat_eq hhead, ih htail (Nat.add_left_cancel h)]

/-- A sequence with no leading zero is the shortest of its integer. -/
theorem byteLength_beInt_cons {b : Byte} (hb : b ≠ 0x00#8) (bs : List Byte) :
    byteLength (beInt (b :: bs)) = bs.length + 1 := by
  refine Nat.le_antisymm ((byteLength_le _ _).mpr (beInt_lt (b :: bs))) ?_
  rw [Nat.succ_le_iff, ← Nat.not_le, byteLength_le, Nat.not_lt, beInt]
  have hpos : 1 ≤ b.toNat := Nat.one_le_iff_ne_zero.mpr fun h => hb (BitVec.eq_of_toNat_eq h)
  exact (Nat.le_mul_of_pos_left _ hpos).trans (Nat.le_add_right _ _)

/-- beBytes gives a sequence with no leading zero back (R181). -/
theorem beBytes_beInt_cons {b : Byte} (hb : b ≠ 0x00#8) (bs : List Byte) : beBytes (beInt (b :: bs)) = b :: bs :=
  beInt_inj (by rw [beBytes_length, byteLength_beInt_cons hb, List.length_cons]) (beInt_beBytes _)

end Sys2Proof.Laws
end

section
/-! ENC and DEC executed (spec/43_codec.md R180 to R187): the outcome of each in each case of its checks, the checks in
their order, and what the blocks, the message and the free bytes read as afterwards. -/

namespace Sys2Proof.Machine

open Sys2Proof.Laws Sys2Proof.Safety

/-! ### The checks and the outcomes -/

/-- The first two checks of both commands: a modulus of one byte is too small (R180, R204). -/
theorem withModulus_smallmod {rn : BReg} {k : Nat → State → State} {s : State} (h : 1 ≤ readB rn s)
    (h' : readB rn s ≤ 255) :
    withModulus rn (fun n s => if chunkSize n = 0 then raise .smallmod s else k n s) s = complete .smallmod s := by
  rw [withModulus_pos _ _ _ (by omega), if_pos ((chunkSize_eq_zero_iff _).mpr (by omega)), raise_eq]

theorem withModulus_chunked {rn : BReg} {k : Nat → State → State} {s : State} (h : 256 ≤ readB rn s) :
    withModulus rn (fun n s => if chunkSize n = 0 then raise .smallmod s else k n s) s = k (readB rn s) s := by
  rw [withModulus_pos _ _ _ (by omega), if_neg (by rw [chunkSize_eq_zero_iff]; omega)]

theorem exec_enc_smallmod {ra rn : BReg} {s : State} (h : 1 ≤ readB rn s) (h' : readB rn s ≤ 255) :
    exec (.enc ra rn) s = .next (complete .smallmod s) := congrArg _ (withModulus_smallmod h h')

theorem exec_dec_smallmod {ra rn : BReg} {s : State} (h : 1 ≤ readB rn s) (h' : readB rn s ≤ 255) :
    exec (.dec ra rn) s = .next (complete .smallmod s) := congrArg _ (withModulus_smallmod h h')

theorem exec_enc_capacity {ra rn : BReg} {s : State} (hn : 256 ≤ readB rn s)
    (h : 8192 < msglenOf s ∨ 128 < blockCount (msglenOf s) (chunkSize (readB rn s))) :
    exec (.enc ra rn) s = .next (complete .capacity s) := by
  rw [exec, execEnc, withModulus_chunked hn, raise_eq]
  by_cases hlen : 8192 < msglenOf s
  · rw [if_pos hlen]
  · rw [if_neg hlen, if_pos (h.resolve_left hlen)]

theorem exec_enc {ra rn : BReg} {s : State} (hn : 256 ≤ readB rn s) (hlen : msglenOf s ≤ 8192)
    (hnb : blockCount (msglenOf s) (chunkSize (readB rn s)) ≤ 128) :
    exec (.enc ra rn) s = .next (encWrite (readB ra s) (readB rn s) (chunkSize (readB rn s))
      (blockCount (msglenOf s) (chunkSize (readB rn s))) s) := by
  rw [exec, execEnc, withModulus_chunked hn, if_neg (Nat.not_lt.mpr hlen), if_neg (Nat.not_lt.mpr hnb)]

theorem exec_dec_capacity {ra rn : BReg} {s : State} (hn : 256 ≤ readB rn s)
    (h : 128 < nblocksOf s ∨ 8192 < nblocksOf s * chunkSize (readB rn s)) :
    exec (.dec ra rn) s = .next (complete .capacity s) := by
  rw [exec, execDec, withModulus_chunked hn, if_pos h, raise_eq]

/-- DEC past its CAPACITY check: DECWIDE, or the message (R185). -/
theorem exec_dec {ra rn : BReg} {s : State} (hn : 256 ≤ readB rn s) (hnb : nblocksOf s ≤ 128)
    (hsize : nblocksOf s * chunkSize (readB rn s) ≤ 8192) :
    exec (.dec ra rn) s = .next (
      if tooWide (readB ra s) (readB rn s) (chunkSize (readB rn s)) (nblocksOf s) s.mem then
        decWide (nblocksOf s * chunkSize (readB rn s)) s
      else decWrite (decOutput (readB ra s) (readB rn s) (chunkSize (readB rn s)) (nblocksOf s) s.mem) s) := by
  rw [exec, execDec, withModulus_chunked hn,
    if_neg (not_or.mpr ⟨Nat.not_lt.mpr hnb, Nat.not_lt.mpr hsize⟩)]

/-- A completion is all that is left of an execution that fails a check. -/
theorem writesNothing_of_exec {i : Instr} {c : ErrorCode} {s t : State} (h : exec i s = .next (complete c s))
    (ht : exec i s = .next t) : WritesNothing c s.flags s t := by
  cases h.symm.trans ht
  exact complete_writesNothing c s

/-- Settles O42: the outcome of each check, when the checks before it have passed. -/
theorem codecChecksInOrder : Obligations.CodecChecksInOrder := fun _ _ _ =>
  ⟨_, _, rfl, rfl, fun h => ⟨withModulus_writesNothing h, withModulus_writesNothing h⟩,
    fun h h' =>
      ⟨writesNothing_of_exec (exec_enc_smallmod h h') rfl, writesNothing_of_exec (exec_dec_smallmod h h') rfl⟩,
    fun hn h => writesNothing_of_exec (exec_enc_capacity hn h) rfl,
    fun hn h => writesNothing_of_exec (exec_dec_capacity hn h) rfl⟩

/-! ### ENC -/

theorem nblocksOf_encWrite {nb : Nat} (e n k : Nat) (s : State) (h : nb ≤ 128) :
    nblocksOf (encWrite e n k nb s) = nb :=
  (toNat_ofNat_of_pow 16 nb 65536 (by decide)).trans (Nat.mod_eq_of_lt (by omega))

/-- A slot ENC has written holds the power of its chunk, which fits because it is below a modulus that fits (R182). -/
theorem blkRead_encWrite {e n k nb i : Nat} {s : State} (hn : 0 < n) (hfit : n ≤ bigMod) (hi : i < nb) :
    blkRead (encWrite e n k nb s).mem i = chunkValue (paddedMessage s.mem (msglenOf s) (nb * k)) k i ^ e % n := by
  have hmem : (encWrite e n k nb s).mem = writeBytes s.mem Config.blkBase
      (encImage e n k nb (paddedMessage s.mem (msglenOf s) (nb * k))) := rfl
  rw [hmem, blkRead_encImage _ _ _ _ _ _ _ hi, toNat_ofNat_big, encSlot, powMod_eq,
    Nat.mod_eq_of_lt ((Nat.mod_lt _ hn).trans_le hfit)]

/-- ENC changes no byte outside the slots it writes. -/
theorem readByte_encWrite_out {e n k nb a : Nat} {s : State}
    (h : ¬ (Config.blkBase ≤ a ∧ a < Config.blkBase + 512 * nb)) :
    readByte (encWrite e n k nb s).mem a = readByte s.mem a :=
  readByte_writeBytes_out _ _ _ _ (by rwa [encImage_length, Nat.mul_comm])

/-- Settles O40: the slots by `blkRead_encWrite`, the chunks by `chunk_eq`. -/
theorem encWritesTheBlocks : Obligations.EncWritesTheBlocks := by
  rintro ra rn s n k len nb rfl (rfl : k = chunkSize _) (rfl : len = msglenOf s) (rfl : nb = blockCount _ _) hn hlen hnb
  refine ⟨_, exec_enc hn hlen hnb, complete_completed _ _, nblocksOf_encWrite _ _ _ s hnb, fun i hi => ?slot,
    fun a ha => readByte_encWrite_out ha, rfl, rfl, rfl, { keepsControl_refl s with }, { keepsEntropy_refl s with }⟩
  case slot =>
    rw [blkRead_encWrite (by omega) (readB_lt rn s).le hi, chunkValue,
      chunk_eq _ _ _ _ _ (le_blockCount _ _ (one_le_chunkSize hn)) hi]

/-! ### DEC -/

theorem decValue_eq (d n : Nat) (m : Memory) (i : Nat) : decValue d n m i = blkRead m i ^ d % n := powMod_eq _ _ _

/-- The bytes of a block too wide are free values of this command's own (R185, assumption 1). -/
theorem readByte_scrambleMsg_in {gen len j : Nat} (m : Memory) (h : j < len) :
    readByte (scrambleMsg gen len m) (Config.msgBase + j) = Config.unspecByte gen (Config.msgBase + j) := by
  rw [scrambleMsg, readByte_writeBytes_in _ _ _ _ (by simpa using h), List.getElem_map, List.getElem_range]

/-- Settles O43: some value does not fit its slot, so the output bytes become free values. -/
theorem decOfAWideBlockRaisesDecwide : Obligations.DecOfAWideBlockRaisesDecwide := by
  rintro ra rn s n k nb rfl (rfl : k = chunkSize _) (rfl : nb = nblocksOf s) hn hnb hsize ⟨i, hi, hwide⟩
  have htoo : tooWide (readB ra s) (readB rn s) (chunkSize (readB rn s)) (nblocksOf s) s.mem = true := by
    refine Bool.eq_true_of_not_eq_false fun hfits => Nat.not_le.mpr hwide ?_
    rw [← decValue_eq]
    exact (tooWide_false _ _ _ _ _).mp hfits i hi
  refine ⟨_, (exec_dec hn hnb hsize).trans (congrArg _ (if_pos htoo)), complete_completed _ _, rfl, rfl,
    fun a ha => readByte_scrambleMsg_out _ _ _ a ha, fun j hj => readByte_scrambleMsg_in _ hj, rfl, rfl,
    { keepsControl_refl s with }, { keepsEntropy_refl s with }⟩

/-- DEC of values that all fit their slots writes the message. -/
theorem exec_dec_fits {ra rn : BReg} {n k nb : Nat} {s : State} (hn : readB rn s = n) (hk : chunkSize n = k)
    (hblocks : nblocksOf s = nb) (h256 : 256 ≤ n) (hnb : nb ≤ 128) (hsize : nb * k ≤ 8192)
    (hfit : ∀ i, i < nb → byteLength (decValue (readB ra s) n s.mem i) ≤ k) :
    exec (.dec ra rn) s = .next (decWrite (decOutput (readB ra s) n k nb s.mem) s) := by
  subst hn hk hblocks
  rw [exec_dec h256 hnb hsize, if_neg (Bool.not_eq_true _ ▸ (tooWide_false _ _ _ _ _).mpr hfit)]

/-! ### The message DEC writes -/

/-- MSGBUF holds the output after it is written. -/
theorem msgRead_decWrite {out : List Byte} {s : State} {j : Nat} {b : Byte} (h : out[j]? = some b) :
    msgRead (decWrite out s).mem j = b := by
  obtain ⟨hj, rfl⟩ := List.getElem?_eq_some_iff.mp h
  exact readByte_writeBytes_in _ _ j _ hj

theorem take_eq_msgRead_decWrite {out : List Byte} {len : Nat} (s : State) (h : len ≤ out.length) :
    out.take len = (List.range len).map (msgRead (decWrite out s).mem) :=
  (readBytes_writeBytes_in s.mem Config.msgBase 0 len out (by omega)).symm

/-- The ASCII check looks at the message DEC leaves (R187). -/
theorem hasNonAscii_decWrite (out : List Byte) (s : State) :
    hasNonAscii (out.take (strippedLength out)) = true ↔
      ∃ j < strippedLength out, 0x80 ≤ (msgRead (decWrite out s).mem j).toNat := by
  rw [take_eq_msgRead_decWrite s (strippedLength_le out)]
  simp [hasNonAscii]

/-- The completion code of DEC past its checks (R187). -/
theorem decWrite_errcode (out : List Byte) (s : State) :
    (decWrite out s).errcode =
      if s.aschk = true ∧ ∃ j < strippedLength out, 0x80 ≤ (msgRead (decWrite out s).mem j).toNat then .decode
      else .ok := by
  simp only [← hasNonAscii_decWrite, ← Bool.and_eq_true]
  rfl

theorem decWrite_msglen {out : List Byte} {s : State} (h : out.length ≤ 8192) :
    (decWrite out s).msglen.toNat = strippedLength out := by
  have := strippedLength_le out
  exact (toNat_ofNat_of_pow 16 _ 65536 (by decide)).trans (Nat.mod_eq_of_lt (by omega))

/-- From the stripped length on the output is spaces (R186). -/
theorem msgRead_decWrite_space {out : List Byte} {j : Nat} (s : State) (h : strippedLength out ≤ j)
    (hj : j < out.length) : msgRead (decWrite out s).mem j = 0x20#8 := by
  have hl : (out.take (strippedLength out)).length = strippedLength out :=
    List.length_take_of_le (strippedLength_le out)
  apply msgRead_decWrite
  rw [(strippedLength_spec out).1, List.getElem?_append_right (by omega), List.getElem?_replicate, if_pos (by omega)]

/-- The message does not end in a space (R186). -/
theorem msgRead_decWrite_last (out : List Byte) (s : State) :
    strippedLength out = 0 ∨ msgRead (decWrite out s).mem (strippedLength out - 1) ≠ 0x20#8 := by
  have hl := strippedLength_le out
  by_cases h0 : strippedLength out = 0
  · exact .inl h0
  · have hb := List.getElem?_eq_getElem (l := out) (i := strippedLength out - 1) (by omega)
    rw [msgRead_decWrite hb]
    exact .inr fun h => (strippedLength_spec out).2.elim h0 (· (hb.trans (congrArg some h)))

/-- A base-256 digit of a value, as a slot byte shows it. -/
theorem toNat_ofNat_shiftRight (v i : Nat) : (BitVec.ofNat 8 (v >>> (8 * i))).toNat = v / 256 ^ i % 256 := by
  rw [toNat_ofNat_of_pow 8 _ 256 (by decide), Nat.shiftRight_eq_div_pow, Nat.pow_mul]

theorem decWrite_completed {out : List Byte} {s : State} {c : ErrorCode} (h : (decWrite out s).errcode = c) :
    Completed c (decWrite out s) := h ▸ complete_completed _ _

/-- Settles O41: the output bytes by their slots (`decSlot_getElem`), the message by its stripped length. -/
theorem decWritesTheMessage : Obligations.DecWritesTheMessage := by
  rintro ra rn s n k nb m rfl (rfl : k = chunkSize _) (rfl : nb = nblocksOf s) hn hnb hsize hm
  have hval : ∀ i, i < nblocksOf s → decValue (readB ra s) (readB rn s) s.mem i = m i := fun i hi =>
    (decValue_eq _ _ _ _).trans (hm i hi).1.symm
  have hfit : ∀ i, i < nblocksOf s →
      byteLength (decValue (readB ra s) (readB rn s) s.mem i) ≤ chunkSize (readB rn s) := fun i hi =>
    (hval i hi).symm ▸ (hm i hi).2
  have hlen := decOutput_length _ _ _ _ _ hfit
  refine ⟨_, _, exec_dec_fits rfl rfl rfl hn hnb hsize hfit, decWrite_msglen (hlen.trans_le hsize),
    (strippedLength_le _).trans_eq hlen, fun i hi j hj => ?slot,
    fun j h hj => msgRead_decWrite_space s h (hj.trans_eq hlen.symm), msgRead_decWrite_last _ s,
    fun h => decWrite_completed ((decWrite_errcode _ s).trans (if_pos h)),
    fun h => decWrite_completed ((decWrite_errcode _ s).trans (if_neg h)),
    fun a ha => readByte_writeBytes_out _ _ _ _ (hlen.symm ▸ ha), rfl, rfl, rfl, { keepsControl_refl s with },
    { keepsEntropy_refl s with }⟩
  case slot =>
    have hbyte := (decOutput_getElem _ _ _ _ i j _ hfit hi hj).trans (decSlot_getElem _ _ _ (hfit i hi) hj)
    rw [msgRead_decWrite hbyte, hval i hi, apply_ite BitVec.toNat, toNat_ofNat_shiftRight]
    rfl

end Sys2Proof.Machine
end

section
/-! The round trip of ENC and DEC (spec/43_codec.md R188): under a matching key DEC's values are the chunks' integers, a
chunk with no leading zero is what its slot shows, and so DEC's output is the padded message. -/

namespace Sys2Proof.Machine

open Sys2Proof.Laws Sys2Proof.Safety

/-! ### Chunks -/

theorem chunkValue_lt (bytes : List Byte) (k i : Nat) : chunkValue bytes k i < 256 ^ k :=
  (beInt_lt _).trans_le (Nat.pow_le_pow_right (by decide) (List.length_take_le _ _))

/-- A chunk of the padded message starts with a byte of the message or a space, so with no zero byte if no chunk of the
message does. -/
theorem chunk_eq_cons {m : Memory} {len k nb i : Nat} (hk : 1 ≤ k) (hlen : len ≤ nb * k) (hi : i < nb)
    (hzero : i * k < len → msgRead m (i * k) ≠ 0x00#8) :
    ∃ b bs, b ≠ 0x00#8 ∧ bs.length + 1 = k ∧ ((paddedMessage m len (nb * k)).drop (i * k)).take k = b :: bs := by
  rw [chunk_eq m len k nb i hlen hi]
  obtain ⟨k, rfl⟩ := Nat.exists_eq_add_of_le' hk
  rw [List.range_succ_eq_map, List.map_cons]
  refine ⟨_, _, ?_, by simp, rfl⟩
  split
  · next h => exact hzero h
  · decide

/-- The slot of a chunk's value shows the chunk, if the chunk has no leading zero (R185, R188). -/
theorem decSlot_beInt_cons {b : Byte} (hb : b ≠ 0x00#8) (bs : List Byte) :
    decSlot (bs.length + 1) (beInt (b :: bs)) = b :: bs := by
  rw [decSlot, beBytes_beInt_cons hb, List.length_cons, Nat.sub_self, List.replicate_zero, List.append_nil]

/-- The chunks of a sequence make up the sequence. -/
theorem flatMap_chunks (l : List Byte) (k nb : Nat) :
    ((List.range nb).flatMap fun i => (l.drop (i * k)).take k) = l.take (nb * k) := by
  induction nb with
  | zero => simp
  | succ nb ih =>
    rw [List.range_succ, List.flatMap_append, ih, Nat.succ_mul, List.take_add, List.flatMap_singleton]

/-- DEC's output is the padded message when its values are those of the chunks. -/
theorem decOutput_eq_paddedMessage {d n k nb len : Nat} {m m' : Memory} (hk : 1 ≤ k) (hlen : len ≤ nb * k)
    (hzero : ∀ i, i * k < len → msgRead m (i * k) ≠ 0x00#8)
    (hval : ∀ i < nb, decValue d n m' i = chunkValue (paddedMessage m len (nb * k)) k i) :
    decOutput d n k nb m' = paddedMessage m len (nb * k) := by
  have hslot : ∀ i ∈ List.range nb,
      decSlot k (decValue d n m' i) = ((paddedMessage m len (nb * k)).drop (i * k)).take k := by
    intro i hi
    rw [List.mem_range] at hi
    obtain ⟨b, bs, hb, rfl, hchunk⟩ := chunk_eq_cons hk hlen hi (hzero i)
    rw [hval i hi, chunkValue, hchunk, decSlot_beInt_cons hb]
  rw [decOutput, List.flatMap_congr hslot, flatMap_chunks, List.take_of_length_le (paddedMessage_length _ _ _ hlen).le]

/-- Stripping takes off the padding and no more, if the message does not end in a space (R186). -/
theorem strippedLength_paddedMessage {m : Memory} {len : Nat} (total : Nat)
    (h : len = 0 ∨ msgRead m (len - 1) ≠ 0x20#8) : strippedLength (paddedMessage m len total) = len := by
  rw [paddedMessage, strippedLength_append_spaces]
  cases len with
  | zero => rfl
  | succ len =>
    have hlast : msgRead m len ≠ 0x20#8 := h.resolve_left len.succ_ne_zero
    rw [List.range_succ, List.map_append, List.map_singleton, strippedLength_of_last _ _ hlast, List.length_map,
      List.length_range]

/-! ### The round trip -/

/-- Exponents that undo each other on the residues of n give the chunks' values back from the slots ENC has written. -/
theorem decValue_encWrite {e d n k nb i : Nat} {s : State} (hinv : ∀ x < n, (x ^ e % n) ^ d % n = x)
    (hfit : n ≤ bigMod) (hkn : 256 ^ k ≤ n) (hi : i < nb) :
    decValue d n (encWrite e n k nb s).mem i = chunkValue (paddedMessage s.mem (msglenOf s) (nb * k)) k i := by
  have hlt := (chunkValue_lt (paddedMessage s.mem (msglenOf s) (nb * k)) k i).trans_le hkn
  rw [decValue_eq, blkRead_encWrite (Nat.zero_lt_of_lt hlt) hfit hi, hinv _ hlt]

/-- DEC after ENC writes the padded message (R188). -/
theorem exec_dec_encWrite {rd rn : BReg} {e n k nb : Nat} {s : State} (hn : readB rn s = n) (hk : chunkSize n = k)
    (h256 : 256 ≤ n) (hinv : ∀ x < n, (x ^ e % n) ^ readB rd s % n = x) (hnb : nb ≤ 128) (hsize : nb * k ≤ 8192)
    (hlen : msglenOf s ≤ nb * k) (hzero : ∀ i, i * k < msglenOf s → msgRead s.mem (i * k) ≠ 0x00#8) :
    exec (.dec rd rn) (encWrite e n k nb s) =
      .next (decWrite (paddedMessage s.mem (msglenOf s) (nb * k)) (encWrite e n k nb s)) := by
  subst hn hk
  have hval : ∀ i < nb, decValue (readB rd s) _ (encWrite e _ _ nb s).mem i = _ := fun i hi =>
    decValue_encWrite hinv (readB_lt rn s).le (pow_chunkSize_le h256) hi
  rw [← decOutput_eq_paddedMessage (one_le_chunkSize h256) hlen hzero hval]
  exact exec_dec_fits rfl rfl (nblocksOf_encWrite _ _ _ s hnb) h256 hnb hsize fun i hi =>
    (hval i hi).symm ▸ (byteLength_le _ _).mpr (chunkValue_lt _ _ _)

/-- The padded message in MSGBUF reads as the message. -/
theorem msgRead_decWrite_paddedMessage {m : Memory} {len total j : Nat} (s : State) (hlen : len ≤ total)
    (hj : j < len) : msgRead (decWrite (paddedMessage m len total) s).mem j = msgRead m j := by
  rw [msgRead_decWrite (paddedMessage_getElem m len total j hlen (hj.trans_le hlen)), if_pos hj]

/-- Settles O44: the exponents undo each other by `rsa_identity`, so DEC writes the padded message
(`exec_dec_encWrite`), and stripping takes its padding off. -/
theorem decInvertsEnc : Obligations.DecInvertsEnc := by
  rintro re rd rn s p q n k len nb hp hq hpq hn rfl hkey h256 (rfl : k = chunkSize _) (rfl : len = msglenOf s) hlen
    (rfl : nb = blockCount _ _) hnb hsize hzero hlast hascii
  have hpad := le_blockCount (msglenOf s) _ (one_le_chunkSize h256)
  have hinv : ∀ x < readB rn s, (x ^ readB re s % readB rn s) ^ readB rd s % readB rn s = x := fun x hx => by
    rw [hn] at hx ⊢
    exact rsa_identity hp hq hpq hkey hx
  have hstrip := fun total => strippedLength_paddedMessage total hlast
  refine ⟨_, _, exec_enc h256 hlen hnb, exec_dec_encWrite rfl rfl h256 hinv hnb hsize hpad hzero,
    decWrite_completed ?ok, ?len, fun j hj => msgRead_decWrite_paddedMessage _ hpad hj⟩
  case ok =>
    rw [decWrite_errcode, hstrip, if_neg]
    rintro ⟨hchk, j, hj, hbyte⟩
    rw [msgRead_decWrite_paddedMessage _ hpad hj] at hbyte
    exact Nat.not_lt.mpr hbyte (hascii hchk j hj)
  case len =>
    refine BitVec.eq_of_toNat_eq ((decWrite_msglen ?_).trans (hstrip _))
    rwa [paddedMessage_length _ _ _ hpad]

end Sys2Proof.Machine
end

section
/-! The life of a command (spec/60_exceptions.md R200 to R206): a CMD write is accepted or lost, every step and every
command answers a next state, and the moves of a command change no control register, nor, past its execution, anything
but its destinations and the source it draws from. -/

namespace Sys2Proof.Machine

open Sys2Proof.Laws Sys2Proof.Safety

/-! ### Acceptance (R201, R202) -/

theorem writeCmd_idle (v : Word) {s : State} (h : busy s = false) : writeCmd v s = accept v s :=
  if_neg (Bool.eq_false_iff.mp h)

theorem writeCmd_busy (v : Word) {s : State} (h : busy s = true) : writeCmd v s = { s with haz := true } := if_pos h

/-- Settles O10: the write of CMD is `accept` while idle (`writeCmd_idle`), and only HAZ otherwise (`writeCmd_busy`). -/
theorem cmdWriteIsAcceptedOrLost : Obligations.CmdWriteIsAcceptedOrLost := by
  intro s w
  rw [hostAccess_w32_csr 0x010 w s rfl (by decide)]
  refine ⟨fun h => ?accepted, fun h => ?lost⟩
  case accepted => exact ⟨replyDone (accept w s), congrArg replyDone (writeCmd_idle w h), rfl, rfl, rfl⟩
  case lost => exact congrArg replyDone (writeCmd_busy w h)

/-! ### Every move answers (R200) -/

theorem takeEvent_answers (e : Event) (s : State) : ∃ t, takeEvent e s = .next t := by
  cases e with
  | host a => exact ⟨_, rfl⟩
  | source asked a => exact ⟨_, rfl⟩
  | engine pace =>
    obtain ⟨t, ht, -⟩ := engineTurn_answers { s with pace := pace }
    exact ⟨t, ht⟩
  | powerOn => exact ⟨_, rfl⟩

theorem step_answers (s : State) : ∃ t, step s = .next t := by
  cases hin : s.inputs with
  | nil =>
    obtain ⟨t, ht, -⟩ := engineTurn_answers s
    exact ⟨t, (step_of_inputs_nil hin).trans ht⟩
  | cons e rest => rw [step_of_inputs_cons hin]; exact takeEvent_answers e _

/-- Settles O7: a step by its earliest input or its turn (`step_answers`), a command by `exec_answers`. -/
theorem theMachineNeverStops : Obligations.TheMachineNeverStops := by
  refine ⟨step_answers, fun i s => ?_⟩
  obtain ⟨t, ht, -⟩ := exec_answers i s
  exact ⟨t, ht⟩

/-! ### What the moves of a command change (R201, R205, R206) -/

theorem engineTurn_keepsControl {s t : State} (h : engineTurn s = .next t) : KeepsControl s t := by
  rcases engineTurn_leaves h with - | ⟨i, _, -, -, hl⟩ | - | ⟨n, w, -, -⟩
  · exact keepsControl_refl s
  · exact hl.keepsControl
  · exact (complete_writesNothing .illegal s).control
  · exact (runMoves_keeps n s).1.control

theorem laterMove_keepsControl {s t : State} (h : LaterMove s t) : KeepsControl s t := by
  rcases h with h | ⟨asked, a, rfl⟩
  · exact engineTurn_keepsControl h
  · exact (sourceAnswer_keeps asked a s).1.control

theorem commandMove_keepsControl {s t : State} (h : CommandMove s t) : KeepsControl s t := by
  rcases h with ⟨i, h⟩ | h
  · exact (exec_leaves h).keepsControl
  · exact laterMove_keepsControl h

/-- A step that is no access of the host and no reset is a move of the state with its input taken off and its pace
noted. -/
theorem step_laterMove {s t : State} (h : step s = .next t) (hhost : ∀ a, s.inputs.head? ≠ some (.host a))
    (hreset : s.inputs.head? ≠ some .powerOn) :
    ∃ pace, LaterMove { s with inputs := s.inputs.tail, pace := pace } t := by
  cases hin : s.inputs with
  | nil =>
    have hs : { s with inputs := [] } = s := by rw [← hin]
    refine ⟨s.pace, .inl ?_⟩
    rw [List.tail_nil, hs, ← step_of_inputs_nil hin, h]
  | cons e rest =>
    rw [step_of_inputs_cons hin] at h
    rw [hin] at hhost hreset
    cases e with
    | host a => exact absurd rfl (hhost a)
    | source asked a => cases h; exact ⟨s.pace, .inr ⟨asked, a, rfl⟩⟩
    | engine pace => exact ⟨pace, .inl h⟩
    | powerOn => exact absurd rfl hreset

/-- From `s` to `t` no big register but those of `written` and no source but the selected one has changed. -/
structure WritesWithin (written : List BReg) (s t : State) : Prop where
  registers : KeepsRegistersBut written s t
  rngsrc : t.rngsrc = s.rngsrc
  source : s.rngsrc = true → t.source = s.source
  fifo : s.rngsrc = false → t.fifo = s.fifo

theorem WritesWithin.trans {written : List BReg} {s t u : State} (h : WritesWithin written s t)
    (k : WritesWithin written t u) : WritesWithin written s u where
  registers := keepsRegistersBut_trans h.registers k.registers
  rngsrc := k.rngsrc.trans h.rngsrc
  source hr := (k.source (h.rngsrc.trans hr)).trans (h.source hr)
  fifo hr := (k.fifo (h.rngsrc.trans hr)).trans (h.fifo hr)

/-- A move that writes no register and draws nothing, whatever it does to the rest. -/
theorem writesWithin_of_eq {written : List BReg} {s t : State} (b : t.b = s.b := by rfl)
    (rngsrc : t.rngsrc = s.rngsrc := by rfl) (source : t.source = s.source := by rfl)
    (fifo : t.fifo = s.fifo := by rfl) : WritesWithin written s t :=
  ⟨fun _ _ => by rw [b], rngsrc, fun _ => source, fun _ => fifo⟩

theorem writesWithin_writeB {written : List BReg} (rd : BReg) (h : rd ∈ written) (v : Nat) (s : State) :
    WritesWithin written s (writeB rd v s) :=
  ⟨fun r hr => writeB_getElem_ne rd r v s fun he => hr (he ▸ h), rfl, fun _ => rfl, fun _ => rfl⟩

theorem primeqVerdict_within (written : List BReg) (v : Verdict) (s : State) :
    WritesWithin written s (primeqVerdict v s) := by
  cases v <;> exact writesWithin_of_eq

theorem genprimeStep_within (rd : BReg) (v : GenStep) (s : State) : WritesWithin [rd] s (genprimeStep rd v s) := by
  cases v with
  | found c => exact (writesWithin_writeB rd (by simp) c s).trans writesWithin_of_eq
  | more g => exact writesWithin_of_eq

theorem keygenPStep_within (written : List BReg) (rd ra rn : BReg) (v : GenStep) (s : State) :
    WritesWithin written s (keygenPStep rd ra rn v s) := by
  cases v <;> exact writesWithin_of_eq

theorem keygenFinish_within (rd ra rn : BReg) (p q : Nat) (s : State) :
    WritesWithin [rd, ra, rn] s (keygenFinish rd ra rn p q s) := by
  unfold keygenFinish
  split
  · exact writesWithin_of_eq
  · exact (((writesWithin_writeB rn (by simp) _ s).trans (writesWithin_writeB rd (by simp) _ _)).trans
      (writesWithin_writeB ra (by simp) _ _)).trans writesWithin_of_eq

theorem keygenQStep_within (rd ra rn : BReg) (p : Nat) (v : GenStep) (s : State) :
    WritesWithin [rd, ra, rn] s (keygenQStep rd ra rn p v s) := by
  cases v with
  | found q => exact keygenFinish_within rd ra rn p q s
  | more g => exact writesWithin_of_eq

theorem workFeed_within (b : Byte) (w : Work) (s : State) : WritesWithin (destinations w) s (workFeed b w s) := by
  cases w with
  | fetch => exact writesWithin_of_eq
  | primeq w => exact primeqVerdict_within _ _ s
  | genprime rd g => exact genprimeStep_within rd _ s
  | keygenP rd ra rn g => exact keygenPStep_within _ rd ra rn _ s
  | keygenQ rd ra rn p g => exact keygenQStep_within rd ra rn p _ s

theorem workQuiet_within (w : Work) (s : State) : WritesWithin (destinations w) s (workQuiet w s) := by
  cases w with
  | fetch => exact writesWithin_of_eq
  | primeq w => exact writesWithin_of_eq
  | genprime rd g => exact genprimeStep_within rd _ s
  | keygenP rd ra rn g => exact keygenPStep_within _ rd ra rn _ s
  | keygenQ rd ra rn p g => exact keygenQStep_within rd ra rn p _ s

/-- The state a draw leaves. -/
def drawState : Draw → State
  | .byte _ s => s
  | .failed s => s
  | .held s => s

/-- nextByte() takes from the selected source alone (R32, R150). -/
theorem nextByte_within (written : List BReg) (s : State) : WritesWithin written s (drawState (nextByte s)) := by
  unfold nextByte
  split
  case isTrue hr =>
    have hfifo : ∀ {l : List Byte}, s.rngsrc = false → l = s.fifo := fun h => by simp [hr] at h
    split <;> exact ⟨fun _ _ => rfl, rfl, fun _ => rfl, hfifo⟩
  case isFalse hr =>
    split <;> exact ⟨fun _ _ => rfl, rfl, fun h => absurd h hr, fun _ => rfl⟩

theorem workDraw_within (w : Work) (s : State) : WritesWithin (destinations w) s (workDraw w s) := by
  have h := nextByte_within (destinations w) s
  unfold workDraw
  cases hd : nextByte s <;> rw [hd] at h
  case byte b t => exact h.trans (workFeed_within b w t)
  case failed t => exact h.trans writesWithin_of_eq
  case held t => exact h.trans writesWithin_of_eq

theorem engineMove_within (w : Work) (s : State) : WritesWithin (destinations w) s (engineMove w s) := by
  unfold engineMove
  split
  · exact workDraw_within w s
  · exact workQuiet_within w s

theorem SameCommand.destinations_eq {w w' : Work} (h : SameCommand w w') : destinations w' = destinations w := by
  cases h <;> rfl

theorem runMoves_within (n : Nat) {w : Work} {s : State} (hw : w ≠ .fetch) (hp : s.phase = .run w) :
    WritesWithin (destinations w) s (runMoves n s) := by
  induction n generalizing w s with
  | zero => exact writesWithin_of_eq
  | succ n ih =>
    rw [runMoves_run n s w hw hp]
    have h := engineMove_within w s
    cases (engineMove_moves hw s).leads with
    | completed phase _ => rwa [runMoves_idle n _ phase]
    | waiting w' _ phase => rwa [runMoves_wait n _ w' phase]
    | running w' same phase => exact h.trans (same.destinations_eq ▸ ih same.ne_fetch phase)

theorem sourceAnswer_within (asked : Nat) (a : Answer) {w : Work} {s : State}
    (hp : s.phase = .run w ∨ s.phase = .wait w) : WritesWithin (destinations w) s (sourceAnswer asked a s) := by
  rcases sourceAnswer_cases asked a s with h | ⟨w', hp', h | ⟨b, h⟩⟩ <;> rw [h]
  · exact writesWithin_of_eq
  · exact writesWithin_of_eq
  · obtain rfl : w' = w := by rcases hp with hp | hp <;> cases hp.symm.trans hp'; rfl
    exact .trans writesWithin_of_eq (workFeed_within b w' (countByte { s with phase := .run w' }))

/-- A later move of a command past its execution is a run of its moves or an answer to it. -/
theorem laterMove_within {s t : State} {w : Work} (hp : s.phase = .run w ∨ s.phase = .wait w) (hw : w ≠ .fetch)
    (h : LaterMove s t) : MoveKeeps s t ∧ WritesWithin (destinations w) s t := by
  rcases h with h | ⟨asked, a, rfl⟩
  case inr => exact ⟨(sourceAnswer_keeps asked a s).1, sourceAnswer_within asked a hp⟩
  case inl =>
    have hfetch : s.phase ≠ .run .fetch := fun hf => by
      rcases hp with hp | hp <;> cases hp.symm.trans hf
      exact hw rfl
    cases (engineTurn_eq_runMoves hfetch).symm.trans h
    refine ⟨(runMoves_keeps _ s).1, ?_⟩
    rcases hp with hp | hp
    · exact runMoves_within _ hw hp
    · rw [runMoves_wait _ s w hp]; exact writesWithin_of_eq

/-- Settles O45: any move by `commandMove_keepsControl`, a later one by `laterMove_within`, and a step that is a later
move by `step_laterMove`. -/
theorem noCommandWritesTheControlRegisters : Obligations.NoCommandWritesTheControlRegisters := by
  refine ⟨fun s t => commandMove_keepsControl, fun s t w hp hw h => ?later, fun s t h hhost hreset => ?step⟩
  case later =>
    obtain ⟨hk, hwrites⟩ := laterMove_within hp hw h
    exact ⟨hwrites.registers, hk.keepsBuffers, hwrites.source, hwrites.fifo⟩
  case step =>
    obtain ⟨pace, hm⟩ := step_laterMove h hhost hreset
    exact ⟨pace, .inr hm⟩

end Sys2Proof.Machine
end

section
/-! Turns may be cut anywhere (spec/70_reset_and_hazards.md R242): a turn of the engine makes as many moves as its pace
and a constant, from a state that does not depend on the schedule, so that the moves of two turns add up. -/

namespace Sys2Proof.Machine

open Sys2Proof.Laws Sys2Proof.Safety

/-! ### Commands that draw nothing -/

/-- `f` neither looks at the surroundings nor changes them. -/
def IgnoresSurroundings (f : State → State) : Prop :=
  ∀ (g : Surroundings → Surroundings) (s : State), f (s.adjust g) = (f s).adjust g

theorem ite_ignoresSurroundings {p : State → Prop} [DecidablePred p] {f f' : State → State}
    (hp : ∀ g s, p (State.adjust g s) ↔ p s) (hf : IgnoresSurroundings f) (hf' : IgnoresSurroundings f') :
    IgnoresSurroundings fun s => if p s then f s else f' s := by
  intro g s
  simp only [hp, hf g s, hf' g s, apply_ite (State.adjust g)]

theorem withModulus_ignoresSurroundings (rn : BReg) {k : Nat → State → State} (hk : ∀ n, IgnoresSurroundings (k n)) :
    IgnoresSurroundings (withModulus rn k) := by
  intro g s
  by_cases hn : readB rn s = 0
  · rw [withModulus_zero _ _ _ hn]; exact withModulus_zero _ _ _ hn
  · rw [withModulus_pos _ _ _ hn, ← hk]; exact withModulus_pos _ _ _ hn

/-- A command that draws nothing completes in the turn that executes it. -/
theorem exec_idle_of_drawsNothing {i : Instr} {s t : State} (hi : ∀ w, ¬ StartsWork i w) (h : exec i s = .next t) :
    t.phase = .idle := by
  cases exec_leaves h with
  | completes => rfl
  | stores => rfl
  | draws n w hw => exact absurd hw (hi w)

/-! ### An execution as a number of moves -/

/-- Whatever its surroundings are, the execution of `i` in `s` makes as many moves as the pace and a constant, from one
state past the fetch. -/
def ExecBegins (i : Instr) (s : State) : Prop :=
  ∃ (c : Nat) (x : State), x.phase ≠ .run .fetch ∧
    ∀ g, exec i (s.adjust g) = .next (runMoves ((s.adjust g).pace + c) (x.adjust g))

/-- A command that has completed has no moves to make. -/
theorem ExecBegins.of_ignoresSurroundings {i : Instr} {f : State → State} (s : State) (hi : ∀ w, ¬ StartsWork i w)
    (he : ∀ s, exec i s = .next (f s)) (hf : IgnoresSurroundings f) : ExecBegins i s := by
  have hidle : (f s).phase = .idle := exec_idle_of_drawsNothing hi (he s)
  exact ⟨0, f s, by simp [hidle], fun g => by rw [he, hf, runMoves_idle _ ((f s).adjust g) hidle]⟩

theorem ExecBegins.of_withModulus {i : Instr} {rn : BReg} {k : Nat → State → State} (s : State)
    (hi : ∀ w, ¬ StartsWork i w) (he : ∀ s, exec i s = .next (withModulus rn k s))
    (hk : ∀ n, IgnoresSurroundings (k n)) : ExecBegins i s :=
  .of_ignoresSurroundings s hi he (withModulus_ignoresSurroundings rn hk)

theorem ExecBegins.of_error {i : Instr} {s : State} (c : ErrorCode)
    (h : ∀ g, exec i (s.adjust g) = .next (complete c (s.adjust g))) : ExecBegins i s :=
  ⟨0, complete c s, nofun, fun g => (h g).trans (congrArg _ (runMoves_complete _ c (s.adjust g)).symm)⟩

theorem execMontmul_begins (rd ra rb rn : BReg) (s : State) : ExecBegins (.montmul rd ra rb rn) s :=
  .of_withModulus s nofun (fun _ => rfl) fun _ =>
    ite_ignoresSurroundings (fun _ _ => .rfl) (fun _ _ => rfl) fun _ _ => rfl

theorem execModinv_begins (rd ra rn : BReg) (s : State) : ExecBegins (.modinv rd ra rn) s :=
  .of_withModulus s nofun (fun _ => rfl) fun _ =>
    ite_ignoresSurroundings (fun _ _ => .rfl) (fun _ _ => rfl) <|
    ite_ignoresSurroundings (fun _ _ => .rfl) (fun _ _ => rfl) fun _ _ => rfl

theorem execEnc_begins (ra rn : BReg) (s : State) : ExecBegins (.enc ra rn) s :=
  .of_withModulus s nofun (fun _ => rfl) fun _ =>
    ite_ignoresSurroundings (fun _ _ => .rfl) (fun _ _ => rfl) <|
    ite_ignoresSurroundings (fun _ _ => .rfl) (fun _ _ => rfl) <|
    ite_ignoresSurroundings (fun _ _ => .rfl) (fun _ _ => rfl) fun _ _ => rfl

theorem execDec_begins (ra rn : BReg) (s : State) : ExecBegins (.dec ra rn) s :=
  .of_withModulus s nofun (fun _ => rfl) fun _ =>
    ite_ignoresSurroundings (fun _ _ => .rfl) (fun _ _ => rfl) <|
    ite_ignoresSurroundings (fun _ _ => .rfl) (fun _ _ => rfl) <|
    ite_ignoresSurroundings (fun _ _ => .rfl) (fun _ _ => rfl) fun _ _ => rfl

theorem execCoprime_begins (rd ra : BReg) (s : State) : ExecBegins (.coprime rd ra) s :=
  .of_ignoresSurroundings s nofun (fun _ => rfl) fun g s => by
    have hread : readB ra (s.adjust g) = readB ra s := rfl
    rw [hread]
    cases selectCoprime (readB ra s) <;> rfl

theorem primeqVerdict_not_fetching (v : Verdict) (s : State) : (primeqVerdict v s).phase ≠ .run .fetch := by
  cases v <;> nofun

theorem execPrimeq_begins (ra : BReg) (s : State) : ExecBegins (.primeq ra) s := by
  refine ⟨0, primeqVerdict (testStart (readB ra s) (roundsOf s)) s, primeqVerdict_not_fetching _ s, fun g => ?_⟩
  rw [exec_primeq, ← primeqVerdict_adjust]; rfl

theorem execGenprime_begins (rd : BReg) (s : State) : ExecBegins (.genprime rd) s := by
  rcases Nat.lt_or_ge 512 (s.bitlen.toNat / 8) with hk | hk
  · exact .of_error .capacity fun g => exec_genprime_capacity (s := s.adjust g) hk
  · exact ⟨1, genprimeStep rd (.more (.draw [])) s, nofun, fun g => exec_genprime (s := s.adjust g) hk⟩

theorem execKeygen_begins (rd ra rn : BReg) (s : State) : ExecBegins (.keygen rd ra rn) s := by
  by_cases hd : distinctDestinations rd ra rn
  · rcases Nat.lt_or_ge 256 (s.bitlen.toNat / 8) with hk | hk
    · exact .of_error .capacity fun g => exec_keygen_capacity (s := s.adjust g) hd hk
    · exact ⟨1, keygenPStep rd ra rn (.more (.draw [])) s, nofun, fun g => exec_keygen (s := s.adjust g) hd hk⟩
  · exact .of_error .illegal fun g => exec_keygen_aliased (s := s.adjust g) hd

theorem exec_begins (i : Instr) (s : State) : ExecBegins i s := by
  cases i with
  | modred rd ra rn => exact .of_withModulus s nofun (fun _ => rfl) fun _ _ _ => rfl
  | modmul rd ra rb rn => exact .of_withModulus s nofun (fun _ => rfl) fun _ _ _ => rfl
  | modexp rd ra rb rn => exact .of_withModulus s nofun (fun _ => rfl) fun _ _ _ => rfl
  | montmul rd ra rb rn => exact execMontmul_begins rd ra rb rn s
  | modinv rd ra rn => exact execModinv_begins rd ra rn s
  | primeq ra => exact execPrimeq_begins ra s
  | genprime rd => exact execGenprime_begins rd s
  | coprime rd ra => exact execCoprime_begins rd ra s
  | keygen rd ra rn => exact execKeygen_begins rd ra rn s
  | enc ra rn => exact execEnc_begins ra rn s
  | dec ra rn => exact execDec_begins ra rn s
  | _ => exact .of_ignoresSurroundings s nofun (fun _ => rfl) fun _ _ => rfl

/-! ### Any turn as a number of moves -/

/-- No number of moves leads a command past its fetch back to it. -/
theorem runMoves_not_fetching (n : Nat) {s : State} (h : s.phase ≠ .run .fetch) :
    (runMoves n s).phase ≠ .run .fetch := by
  cases hp : s.phase with
  | idle => rwa [runMoves_idle n s hp]
  | wait w => rwa [runMoves_wait n s w hp]
  | run w =>
    have hw : w ≠ .fetch := fun hw => h (hw ▸ hp)
    rcases (runMoves_moves n hw hp).leads with ⟨phase, -⟩ | ⟨w', same, phase, -⟩ | ⟨w', same, phase, -⟩ <;> rw [phase]
    · nofun
    · exact fun hf => same.ne_fetch (Phase.run.inj hf)
    · nofun

theorem engineTurn_reschedule {s : State} (h : s.phase ≠ .run .fetch) (pace : Nat) (bus : BusReply)
    (inputs : List Event) : engineTurn (s.adjust (reschedule pace bus inputs)) =
      .next ((runMoves (pace + 1) s).adjust (reschedule pace bus inputs)) := by
  rw [← runMoves_reschedule]; exact engineTurn_eq_runMoves (s := s.adjust _) h

/-- A turn of any schedule makes as many moves as its pace and a constant, from one state past the fetch. -/
theorem engineTurn_begins (s : State) : ∃ (c : Nat) (x : State), x.phase ≠ .run .fetch ∧
    ∀ pace bus inputs, engineTurn (s.adjust (reschedule pace bus inputs)) =
      .next ((runMoves (pace + c) x).adjust (reschedule pace bus inputs)) := by
  by_cases hp : s.phase = .run .fetch
  case neg => exact ⟨1, s, hp, engineTurn_reschedule hp⟩
  case pos =>
    cases hd : decode s.cmd with
    | ok i =>
      obtain ⟨c, x, hx, hexec⟩ := exec_begins i s
      refine ⟨c, x, hx, fun pace bus inputs => ?_⟩
      rw [← runMoves_reschedule, engineTurn_runs_decoded (s := s.adjust _) hp hd, hexec]
      rfl
    | error e =>
      refine ⟨0, complete .illegal s, nofun, fun pace bus inputs => ?_⟩
      have hd' : decode (s.adjust (reschedule pace bus inputs)).cmd = .error e := hd
      rw [runMoves_complete, engineTurn_of_fetch (s := s.adjust _) hp, executeWord, hd']
      rfl

/-- Settles O8: the two turns and the one begin from the same state (`engineTurn_begins`), and their moves add up
(`runMoves_add`). -/
theorem turnsMayBeCutAnywhere : Obligations.TurnsMayBeCutAnywhere := by
  intro s a b rest hin
  obtain ⟨c, x, hx, hturn⟩ := engineTurn_begins s
  have hsum : runMoves (a + b + 1 + c) x = runMoves (b + 1) (runMoves (a + c) x) := by
    rw [← runMoves_add, show a + b + 1 + c = a + c + (b + 1) by omega]
  refine ⟨(runMoves (a + c) x).adjust (reschedule a s.bus (.engine b :: rest)),
    (runMoves (b + 1) (runMoves (a + c) x)).adjust (reschedule b s.bus rest), ?first, ?second, ?whole⟩
  case first =>
    rw [step_of_inputs_cons hin, takeEvent_engine]
    exact hturn a s.bus (.engine b :: rest)
  case second =>
    rw [step_of_inputs_cons rfl, takeEvent_engine]
    exact engineTurn_reschedule (runMoves_not_fetching (a + c) hx) b s.bus rest
  case whole =>
    rw [step_of_inputs_cons rfl, takeEvent_engine, ← hsum]
    exact hturn (a + b + 1) s.bus rest

end Sys2Proof.Machine
end
